-- ==== Sys2Proof/Word.lean ====
section
/-! DEFINITION. The word types of the OWFS block: bytes, the 32-bit registers and command words
(R22 to R28, R90), the 16-bit CRC (R192) and the 64-bit ROM code (R99). -/

namespace Sys2Proof

/-- One byte: a flash cell, a buffer element, a command operand. -/
abbrev Byte := BitVec 8

/-- One 32-bit register or command word (R22 to R28, R90). -/
abbrev Word := BitVec 32

/-- The 16-bit result of `crc16` (R192). -/
abbrev Half := BitVec 16

/-- A ROM code or device address: 8 bytes, byte 0 in the low bits, so that ROM bit position `n`
(1 to 64) is bit `n - 1` (R33, R99, R170). -/
abbrev RomCode := BitVec 64

end Sys2Proof
end

