-- ==== Sys2Proof/Syntax.lean ====
section
/-! DEFINITION. The 24 commands of R92, one constructor per row of the opcode table. A command of
format A carries the 8-bit operand `A` as it stands in the word (R90); a command of format N carries
nothing. Which operand values are legal is `Instr.WellFormed`. -/

namespace Sys2Proof

/-- The commands of the block (R92). -/
inductive Instr where
  /-- `OW_BEGIN pin` (R127). -/
  | owBegin (pin : Byte)
  /-- `OW_RESET` (R128). -/
  | owReset
  /-- `OW_WRITE_BIT v`, `v` 0 or 1 (R129). -/
  | owWriteBit (v : Byte)
  /-- `OW_READ_BIT` (R130). -/
  | owReadBit
  /-- `OW_WRITE b` (R152). -/
  | owWrite (b : Byte)
  /-- `OW_WRITE_BYTES n` (R153). -/
  | owWriteBytes (n : Byte)
  /-- `OW_READ` (R154). -/
  | owRead
  /-- `OW_READ_BYTES n` (R155). -/
  | owReadBytes (n : Byte)
  /-- `OW_SELECT` (R158). -/
  | owSelect
  /-- `OW_SELECT_ALL` (R159). -/
  | owSelectAll
  /-- `OW_SEARCH_BEGIN` (R171). -/
  | owSearchBegin
  /-- `OW_SEARCH_BEGIN_FAM family` (R172). -/
  | owSearchBeginFam (family : Byte)
  /-- `OW_SEARCH alert_only`, 0 or 1 (R173). -/
  | owSearch (alertOnly : Byte)
  /-- `CRC8 n` (R191). -/
  | crc8 (n : Byte)
  /-- `CRC16 n` (R193). -/
  | crc16 (n : Byte)
  /-- `CHECK_CRC16 n` (R194). -/
  | checkCrc16 (n : Byte)
  /-- `FS_BEGIN` (R200). -/
  | fsBegin
  /-- `FS_WRITE_FILE id` (R238). -/
  | fsWriteFile (id : Byte)
  /-- `FS_UPDATE_FILE id` (R239). -/
  | fsUpdateFile (id : Byte)
  /-- `FS_ERASE_FILE id` (R240). -/
  | fsEraseFile (id : Byte)
  /-- `FS_READ_FILE id` (R212). -/
  | fsReadFile (id : Byte)
  /-- `FS_CRCERR` (R215). -/
  | fsCrcerr
  /-- `FS_LIST_FIRST id` (R216). -/
  | fsListFirst (id : Byte)
  /-- `FS_LIST_NEXT` (R217). -/
  | fsListNext
deriving DecidableEq, Repr

end Sys2Proof
end

