-- ==== Sys2Proof/WellFormed.lean ====
section
/-! DEFINITION. Which terms of `Instr` are legal commands: R93 makes `A > 1` illegal for
`OW_WRITE_BIT` and `OW_SEARCH`; every other operand value is legal (range is the command's own
check and reports `RANGE`, R94). -/

namespace Sys2Proof

/-- A one-bit operand of R93: the value 0 or 1. -/
abbrev OneBitOperand (a : Byte) : Prop := a.toNat ≤ 1

/-- The command is legal by R93. -/
def Instr.wellFormed : Instr → Bool
  | .owWriteBit v => decide (OneBitOperand v)
  | .owSearch alertOnly => decide (OneBitOperand alertOnly)
  | .owBegin _ => true
  | .owReset => true
  | .owReadBit => true
  | .owWrite _ => true
  | .owWriteBytes _ => true
  | .owRead => true
  | .owReadBytes _ => true
  | .owSelect => true
  | .owSelectAll => true
  | .owSearchBegin => true
  | .owSearchBeginFam _ => true
  | .crc8 _ => true
  | .crc16 _ => true
  | .checkCrc16 _ => true
  | .fsBegin => true
  | .fsWriteFile _ => true
  | .fsUpdateFile _ => true
  | .fsEraseFile _ => true
  | .fsReadFile _ => true
  | .fsCrcerr => true
  | .fsListFirst _ => true
  | .fsListNext => true

/-- The command is legal by R93, as a proposition. -/
abbrev Instr.WellFormed (i : Instr) : Prop := i.wellFormed = true

end Sys2Proof
end

