-- ==== Sys2Proof/Decode.lean ====
section
/-! DEFINITION. The decoder and the encoder of command words (R90 to R93). The decoder is total on
32-bit words and rejects an illegal word by name; the encoder writes `w = OPC + (A << 8)` (R102)
from R92's opcode map. -/

namespace Sys2Proof

/-- Why a word is no command (R93). Every one of them executes as `fail(ILLEGAL)`; none stops the
machine. -/
inductive IllegalWord where
  /-- `w[31:16]` is not zero. -/
  | reservedBits
  /-- `OPC` is not in R92's table. -/
  | reservedOpcode (opc : Byte)
  /-- the command's format is N and `A` is not zero. -/
  | operandNotZero (opc a : Byte)
  /-- the command is `OW_WRITE_BIT` or `OW_SEARCH` and `A > 1`. -/
  | operandTooLarge (opc a : Byte)
deriving DecidableEq, Repr

/-- `OPC`, bits 7:0 of a command word (R90). -/
def wordOpc (w : Word) : Byte := w.extractLsb' 0 8

/-- `A`, bits 15:8 of a command word (R90). -/
def wordOperand (w : Word) : Byte := w.extractLsb' 8 8

/-- Bits 31:16 of a command word, which must be zero (R90). -/
def wordReserved (w : Word) : Half := w.extractLsb' 16 16

/-- Format N: the command carries no operand and `A` must be 0 (R90). -/
def formatN (w : Word) (i : Instr) : Except IllegalWord Instr :=
  if wordOperand w = 0 then .ok i else .error (.operandNotZero (wordOpc w) (wordOperand w))

/-- Format A: the operand is used as written (R90). -/
def formatA (w : Word) (mk : Byte → Instr) : Except IllegalWord Instr :=
  .ok (mk (wordOperand w))

/-- Format A with an operand that must be 0 or 1 (R93). -/
def formatA1 (w : Word) (mk : Byte → Instr) : Except IllegalWord Instr :=
  if OneBitOperand (wordOperand w) then .ok (mk (wordOperand w))
  else .error (.operandTooLarge (wordOpc w) (wordOperand w))

/-- R92's opcode map, read with R93's format checks. -/
def decodeOpcode (w : Word) : Except IllegalWord Instr :=
  match (wordOpc w).toNat with
  | 0x01 => formatA w .owBegin
  | 0x02 => formatN w .owReset
  | 0x03 => formatA1 w .owWriteBit
  | 0x04 => formatN w .owReadBit
  | 0x05 => formatA w .owWrite
  | 0x06 => formatA w .owWriteBytes
  | 0x07 => formatN w .owRead
  | 0x08 => formatA w .owReadBytes
  | 0x09 => formatN w .owSelect
  | 0x0A => formatN w .owSelectAll
  | 0x10 => formatN w .owSearchBegin
  | 0x11 => formatA w .owSearchBeginFam
  | 0x12 => formatA1 w .owSearch
  | 0x20 => formatA w .crc8
  | 0x21 => formatA w .crc16
  | 0x22 => formatA w .checkCrc16
  | 0x40 => formatN w .fsBegin
  | 0x41 => formatA w .fsWriteFile
  | 0x42 => formatA w .fsUpdateFile
  | 0x43 => formatA w .fsEraseFile
  | 0x44 => formatA w .fsReadFile
  | 0x45 => formatN w .fsCrcerr
  | 0x46 => formatA w .fsListFirst
  | 0x47 => formatN w .fsListNext
  | _ => .error (.reservedOpcode (wordOpc w))

/-- The command that word `w` stands for, or the reason it is illegal (R92, R93). -/
def decode (w : Word) : Except IllegalWord Instr :=
  if wordReserved w = 0 then decodeOpcode w else .error .reservedBits

/-- The opcode of a command (R92). -/
def Instr.opcode : Instr → Byte
  | .owBegin _ => 0x01
  | .owReset => 0x02
  | .owWriteBit _ => 0x03
  | .owReadBit => 0x04
  | .owWrite _ => 0x05
  | .owWriteBytes _ => 0x06
  | .owRead => 0x07
  | .owReadBytes _ => 0x08
  | .owSelect => 0x09
  | .owSelectAll => 0x0A
  | .owSearchBegin => 0x10
  | .owSearchBeginFam _ => 0x11
  | .owSearch _ => 0x12
  | .crc8 _ => 0x20
  | .crc16 _ => 0x21
  | .checkCrc16 _ => 0x22
  | .fsBegin => 0x40
  | .fsWriteFile _ => 0x41
  | .fsUpdateFile _ => 0x42
  | .fsEraseFile _ => 0x43
  | .fsReadFile _ => 0x44
  | .fsCrcerr => 0x45
  | .fsListFirst _ => 0x46
  | .fsListNext => 0x47

/-- The operand `A` of a command; 0 for format N (R90). -/
def Instr.operand : Instr → Byte
  | .owBegin a => a
  | .owReset => 0
  | .owWriteBit a => a
  | .owReadBit => 0
  | .owWrite a => a
  | .owWriteBytes a => a
  | .owRead => 0
  | .owReadBytes a => a
  | .owSelect => 0
  | .owSelectAll => 0
  | .owSearchBegin => 0
  | .owSearchBeginFam a => a
  | .owSearch a => a
  | .crc8 a => a
  | .crc16 a => a
  | .checkCrc16 a => a
  | .fsBegin => 0
  | .fsWriteFile a => a
  | .fsUpdateFile a => a
  | .fsEraseFile a => a
  | .fsReadFile a => a
  | .fsCrcerr => 0
  | .fsListFirst a => a
  | .fsListNext => 0

/-- The command word of an instruction, `w = OPC + (A << 8)` (R102). -/
def encode (i : Instr) : Word :=
  i.opcode.setWidth 32 + (i.operand.setWidth 32 <<< 8)

/-- The instruction the decoder reads from a table word: a command word is one 32-bit number written
to `CMD` (R90), so its low `nbits` bits are taken, the bits above are 0, and there is no byte order
to apply (R70). -/
def decodeTableWord (nbits w : Nat) : Option Instr :=
  match decode (BitVec.ofNat 32 (w % 2 ^ nbits)) with
  | .ok i => some i
  | .error _ => none

end Sys2Proof
end

