-- ==== Sys2Proof/Config.lean ====
section
/-! DEFINITION. What one implementation of the block fixes (R6 to R8): the flash geometry, the
twelve 1-Wire timing parameters and the buffer size, as plain data; and the FREE VALUES, constants
with no body for every value the spec leaves open (93_implementation_defined.md). -/

namespace Sys2Proof

/-- The twelve 1-Wire timing parameters of R7, in microseconds; the defaults are R7's table. -/
structure Timing where
  /-- `T_RSTL`, reset low-hold. -/
  tRstl : Nat := 480
  /-- `T_PDW`, length of the presence window after the release. -/
  tPdw : Nat := 70
  /-- `T_RSTH`, deadline of the presence pulse and length of the released phase of a reset. -/
  tRsth : Nat := 480
  /-- `T_W1L`, write-1 low-hold. -/
  tW1l : Nat := 6
  /-- `T_W1H`, idle after a write-1 low-hold. -/
  tW1h : Nat := 64
  /-- `T_W0L`, write-0 low-hold. -/
  tW0l : Nat := 60
  /-- `T_W0H`, idle after a write-0 low-hold. -/
  tW0h : Nat := 10
  /-- `T_RDL`, read low-hold. -/
  tRdl : Nat := 6
  /-- `T_RDS`, from the release to the sample of a read slot. -/
  tRds : Nat := 9
  /-- `T_RDSLOT`, total read slot from the falling edge. -/
  tRdslot : Nat := 60
  /-- `T_BUSY`, the bus-release timeout. -/
  tBusy : Nat := 500
  /-- `T_LEAD`, the lead-in before every falling edge. -/
  tLead : Nat := 10
deriving DecidableEq, Repr

/-- The configuration record of R6 to R8. `eraseSize` is the block device's `get_erase_size()`,
which only constrains `ps` (R64); `REGMAP` (R8, OPEN) has no field because nothing depends on it. -/
structure Config where
  /-- `SDS`, payload bytes per sector. -/
  sds : Nat
  /-- `N`, number of file numbers. -/
  n : Nat
  /-- `PS`, bytes per erase page. -/
  ps : Nat
  /-- `ES`, total flash bytes. -/
  es : Nat
  /-- the block device's erase size (R64, R269). -/
  eraseSize : Nat
  /-- `OWBUF_SIZE`, bytes in the 1-Wire data buffer (R8). -/
  owbufSize : Nat := 32
  /-- the twelve timing parameters (R7). -/
  timing : Timing := {}
deriving DecidableEq, Repr

/-- The one configuration R6 gives numbers for (the §8 scenario): `SDS = 20`, `N = 15`, `PS = 1024`,
`ES = 8192`, `OWBUF_SIZE = 32`, R7's timing. DESIGN CHOICE (log 1): reset uses this one, and the
device's erase size is taken equal to `PS`. -/
def Config.reference : Config :=
  { sds := 20, n := 15, ps := 1024, es := 8192, eraseSize := 1024 }

/-- FREE VALUE (U3, R301; log 5): how far `TIME` advances during the `k`-th CRC or FSC command. -/
opaque Config.commandTime : Nat → Nat

/-- FREE VALUE (U5, R63; log 6): what flash byte `addr` holds after flash event number `event` programs
`new` over `old` when `old` is not 0xFF. -/
opaque Config.overProgram (event addr : Nat) (old new : Byte) : Byte

/-- FREE VALUE (U6, R72; log 7): what flash byte `addr` holds after flash event number `event`, an erase
that power loss interrupted. -/
opaque Config.cutErase (event addr : Nat) : Byte

/-- FREE VALUE (U7, R72; log 7): whether flash byte `addr` took its new value in flash event number
`event`, a program call that power loss interrupted. -/
opaque Config.cutProgramDone (event addr : Nat) : Bool

/-- FREE VALUE (U1, R290; log 8): what the `k`-th free-valued host read returns. -/
opaque Config.busyRead : Nat → Word

/-- FREE VALUE (U2, R122; log 9): the level of the line at microsecond `t` while the master drives it
high and a slave pulls it low. -/
opaque Config.contention : Nat → Bool

end Sys2Proof
end

