-- ==== Sys2Proof/Machine/State.lean ====
section
/-! DEFINITION. The complete state of the block (R20) as plain data, grouped by unit: the command
interface, the OWM unit with its line, the search state, the FSC unit with its flash; the model's own
fields (host inputs, the slaves' behaviour, observation logs); the reasons a step can stop; and the
state after reset (R47). -/

namespace Sys2Proof.Machine

/-- Why a step stops with a fault. -/
inductive Fault where
  /-- An FSC command met a directory entry, write pointer or free page outside the flash (R37, R39,
  R40 bound them; R62 needs `a + n <= ES`). Raised by `FS_WRITE_FILE`, `FS_UPDATE_FILE`,
  `FS_ERASE_FILE`, `FS_READ_FILE` in states no run reaches. Safe: the spec has no such access. -/
  | flashAddress
deriving DecidableEq, Repr

/-- Why a step is refused. -/
inductive Refusal where
  /-- The instruction has no meaning yet. Raised by `exec`'s refused arms only (there are none).
  Safe. -/
  | notModelled (mnemonic : String)
  /-- An FSC command with a configuration outside R6's constraints: "no rule of the FSC is promised"
  (R284), treatment `refuse` (93_implementation_defined.md U8). Raised by the eight FSC commands.
  Safe. -/
  | geometry
deriving DecidableEq, Repr

/-- The error codes of R96; codes 12 to 15 are never produced (U4). -/
inductive ErrCode where
  | none | busBusy | noPresence | searchDone | searchNodev | notFound | range | full | crc
  | illegal | notReady | listEnd
deriving DecidableEq, Repr

/-- What the master does to the pin (R34). -/
inductive PinState where
  /-- drives the line low -/
  | low
  /-- releases the line -/
  | rel
  /-- drives the line high (parasitic power delivery, R123) -/
  | high
deriving DecidableEq, Repr

/-- One entry `(t, OW_PIN, X)` of the pin trace (R121). -/
structure PinEvent where
  time : Nat
  pin : Byte
  level : PinState
deriving DecidableEq, Repr

/-- Flash contents as (address, byte) pairs: addresses strictly rising, no entry equal to the erased
byte 0xFF, which is what an unlisted address reads as (log 4). -/
abbrev Memory := List Host.Cell

/-- What happens to the flash array, in order: the block-device calls of R63 and R64 (whose order and
arguments are observable, R236, R269), the two calls power loss can interrupt (R72), and a bit error
of the device itself (R211, R293). -/
inductive FlashEvent where
  /-- one `program` call of `bytes` at `addr` (R63) -/
  | program (addr : Nat) (bytes : List Byte)
  /-- one `erase` call of page `page` (R64) -/
  | erase (page : Nat)
  /-- a `program` call cut by power loss (R72, U7) -/
  | programCut (addr : Nat) (bytes : List Byte)
  /-- an `erase` call cut by power loss (R72, U6) -/
  | eraseCut (page : Nat)
  /-- the byte at `addr` decays to `value`; not a call of the block -/
  | upset (addr : Nat) (value : Byte)
deriving DecidableEq, Repr

/-- The registers of R22 to R28, by number 0 to 9. -/
inductive HostReg where
  | cmd | status | res | ctrl | timeLo | timeHi | srch | fsCrcerr | fsPtr | owCfg
deriving DecidableEq, Repr

/-- The byte arrays of R28. -/
inductive HostArray where
  | addr | srom | owbuf | dbuf
deriving DecidableEq, Repr

/-- Where power is lost inside a command (R72): after `calls` completed flash events of the command
(block-device calls, and the decays that struck among them, log 18), and, when `mid`, in the middle
of the next one if it is a call. -/
structure PowerCut where
  calls : Nat
  mid : Bool
deriving DecidableEq, Repr

/-- One thing the outside world does to the block (R46): host accesses, time passing, power loss, and
what the slaves and the flash device do. -/
inductive Input where
  /-- the host writes `v` to a register (R22, R25, R27); a write to `CMD` issues a command -/
  | write (r : HostReg) (v : Word)
  /-- the host reads a register -/
  | read (r : HostReg)
  /-- the host writes one byte of an array (R28) -/
  | writeByte (a : HostArray) (i : Nat) (v : Byte)
  /-- the host reads one byte of an array (R28) -/
  | readByte (a : HostArray) (i : Nat)
  /-- the host lets `n` microseconds pass (R29, U12) -/
  | idle (n : Nat)
  /-- power is lost and comes back between two commands (R72, R280) -/
  | powerLoss
  /-- the host writes `w` to `CMD` and power is lost during the command (R72) -/
  | powerLossDuring (w : Word) (cut : PowerCut)
  /-- from now on some slave pulls the line low in exactly these intervals (R122, U10) -/
  | slaves (script : List (Nat × Nat))
  /-- the flash byte at `addr` decays now (R211 "an aged sector", R293) -/
  | upset (addr : Nat) (value : Byte)
  /-- the flash byte at `addr` will decay between a rescan and the retried read (R211) -/
  | upsetOnRetry (addr : Nat) (value : Byte)
deriving DecidableEq, Repr

/-- The OWM unit's pin, line and clock. -/
structure OneWire where
  /-- `CTRL.PPWR` (R25) -/
  ppwr : Bool
  /-- `TIME`, microseconds since reset (R29); 64 bits to the host, a natural number to the rules
  (R11); wrap-around is not modelled (R29, log 10) -/
  time : Nat
  /-- `OW_BOUND` (R30) -/
  bound : Bool
  /-- `OW_PIN` (R31) -/
  pin : Byte
  /-- `PINSTATE` (R34) -/
  pinState : PinState
  /-- MODEL's own: `SlaveLow(t)` holds exactly for `a <= t < b` of some pair (R122, log 3) -/
  slaves : List (Nat × Nat)
  /-- MODEL's own: the pin trace since reset, oldest first (R121) -/
  trace : List PinEvent
deriving DecidableEq, Repr

/-- The search state (R33). -/
structure Search where
  /-- `SROM[0..7]` -/
  srom : RomCode
  /-- `LD`, 0 to 64 -/
  ld : BitVec 7
  /-- `LFD`, 0 to 64 -/
  lfd : BitVec 7
  /-- `LDF` -/
  ldf : Bool
deriving DecidableEq, Repr

/-- The FSC unit's volatile state and the flash array. -/
structure Fsc where
  /-- `FS_READY` (R38) -/
  ready : Bool
  /-- `DIR[0..N-1]`; `none` is `ABSENT` (R37, `dirWord` gives the 16-bit entry) -/
  dir : List (Option Nat)
  /-- `WP`, 16 bits, `0..T-1` (R39) -/
  wp : Nat
  /-- `FREE`, 16 bits, `0..P-1` (R40) -/
  free : Nat
  /-- `CRCERR` (R41) -/
  crcerr : Word
  /-- `LIST_ACTIVE` (R43) -/
  listActive : Bool
  /-- `LIST_ID` (R43) -/
  listId : BitVec 7
  /-- `LIST_POS`, 16 bits, `0..T` (R43) -/
  listPos : Nat
  /-- `LIST_BASE`, 16 bits, a sector index (R43) -/
  listBase : Nat
  /-- the flash array (R60) -/
  flash : Memory
  /-- MODEL's own: everything that happened to the flash, oldest first; its `program` and `erase`
  entries are the block-device call trace (R236, R269, R272) -/
  log : List FlashEvent
  /-- MODEL's own: bytes that decay between a rescan and the retried read (R211, log 13) -/
  decay : List Host.Cell
deriving DecidableEq, Repr

/-- The complete state of the block (R20), its configuration, and the model's own fields. -/
structure State where
  /-- the configuration record (R6 to R8), which no step changes (log 1) -/
  cfg : Config
  /-- `CMD` (R22) -/
  cmd : Word
  /-- `STATUS.BUSY` (R23) -/
  busy : Bool
  /-- `STATUS.OK` (R23) -/
  ok : Bool
  /-- `STATUS.ERR` (R23) -/
  err : ErrCode
  /-- `RES` (R24) -/
  res : Word
  /-- the value a read of `TIME_LO` latched for `TIME_HI` (R26) -/
  timeHiLatch : Word
  /-- whether `TIME_LO` was read since reset, so that `TIME_HI` reads the latch (R26, log 11) -/
  timeHiLatched : Bool
  /-- the OWM unit's pin, line and clock -/
  line : OneWire
  /-- `ADDR[0..7]` (R32) -/
  addr : RomCode
  /-- the search state (R33) -/
  search : Search
  /-- `OWBUF[0..OWBUF_SIZE-1]` (R36) -/
  owbuf : List Byte
  /-- the FSC unit and the flash -/
  fsc : Fsc
  /-- `DBUF[0..SDS-1]` (R42) -/
  dbuf : List Byte
  /-- MODEL's own: what the outside world does next, in order (R46, log 2) -/
  inputs : List Input
  /-- MODEL's own: what the host's last read returned, zero-extended -/
  hostData : Word
  /-- MODEL's own: how many free values have been taken (logs 5 and 8) -/
  freeCount : Nat
deriving DecidableEq, Repr

/-- The OWM unit at reset (R47, R282). DESIGN CHOICE (log 3): what the slaves do right after reset is a
parameter of the spec (U10, R46); the reset state takes none that pulls the line low. -/
def OneWire.reset : OneWire :=
  { ppwr := false, time := 0, bound := false, pin := 0, pinState := .rel, slaves := [], trace := [] }

/-- The search state at reset, the one `OW_SEARCH_BEGIN` creates (R47, R171). -/
def Search.reset : Search := { srom := 0, ld := 0, lfd := 0, ldf := false }

/-- The FSC unit at power-on over a flash that holds `flash` after the events `log` (R47, R281). -/
def Fsc.powerOn (c : Config) (flash : Memory) (log : List FlashEvent) : Fsc :=
  { ready := false, dir := List.replicate c.n none, wp := 0, free := 0, crcerr := 0
    listActive := false, listId := 0, listPos := 0, listBase := 0
    flash := flash, log := log, decay := [] }

/-- The block at power-on: every volatile element at R47's value, over a flash that holds `flash`. -/
def State.powerOn (c : Config) (flash : Memory) (log : List FlashEvent) : State :=
  { cfg := c, cmd := 0, busy := false, ok := false, err := .none, res := 0
    timeHiLatch := 0, timeHiLatched := false
    line := OneWire.reset, addr := 0, search := Search.reset
    owbuf := List.replicate c.owbufSize 0
    fsc := Fsc.powerOn c flash log
    dbuf := List.replicate c.sds 0
    inputs := [], hostData := 0, freeCount := 0 }

/-- The machine right after reset (R47, R280): the reference configuration (log 1) over a flash that
lists nothing, so every byte reads 0xFF (log 4). -/
def State.reset : State := State.powerOn Config.reference [] []

end Sys2Proof.Machine
end

