-- ==== Sys2Proof/Machine/Ops.lean ====
section
/-! DEFINITION. The operations every command shares: the flash as a memory (R60 to R64), byte
buffers, the two ways a command ends (R95, R261: the block's only exception mechanism, R260), and
the free passage of time (R301). -/

namespace Sys2Proof.Machine

/-! ### The flash array as a memory -/

/-- The device's erased-value sentinel (R64), which an unlisted address reads as. -/
def erasedByte : Byte := 0xFF

/-- The byte at an address (R62). -/
def Memory.read : Memory → Nat → Byte
  | [], _ => erasedByte
  | (k, v) :: rest, a => if k = a then v else Memory.read rest a

/-- Put byte `b` at address `a`, keeping the canonical form: an erased byte is not listed. -/
def Memory.write : Memory → Nat → Byte → Memory
  | [], a, b => if b = erasedByte then [] else [(a, b)]
  | (k, v) :: rest, a, b =>
    if k < a then (k, v) :: Memory.write rest a b
    else if k = a then (if b = erasedByte then rest else (a, b) :: rest)
    else if b = erasedByte then (k, v) :: rest else (a, b) :: (k, v) :: rest

/-- Put consecutive bytes at `a`, `a + 1`, …, lowest address first. -/
def Memory.writeBytes : Memory → Nat → List Byte → Memory
  | m, _, [] => m
  | m, a, b :: bs => Memory.writeBytes (Memory.write m a b) (a + 1) bs

/-- Make every byte of `lo .. lo+n-1` hold 0xFF (R64). -/
def Memory.eraseRange (m : Memory) (lo n : Nat) : Memory :=
  m.filter fun c => decide (c.1 < lo) || decide (lo + n ≤ c.1)

/-- The canonical form: addresses strictly rising and no erased byte listed. -/
def Memory.wf : Memory → Bool
  | [] => true
  | (k, v) :: rest => decide (v ≠ erasedByte) && rest.all (fun c => decide (k < c.1)) && Memory.wf rest

/-- Every listed address is below `limit`. -/
def Memory.below (m : Memory) (limit : Nat) : Bool := m.all fun c => decide (c.1 < limit)

/-- `FlashRead(a, n)`: the `n` bytes at `a .. a+n-1`, lowest address first (R62). -/
def flashRead (m : Memory) (a n : Nat) : List Byte :=
  (List.range n).map fun k => Memory.read m (a + k)

/-- What a byte holds after flash event number `event` programs `new` over `old`: `new` over an erased
byte, else unspecified (R63, U5, log 6). -/
def programByte (event addr : Nat) (old new : Byte) : Byte :=
  if old = erasedByte then new else Config.overProgram event addr old new

/-- One completed program call, byte by byte (R63). -/
def programBytes (event : Nat) : Memory → Nat → List Byte → Memory
  | m, _, [] => m
  | m, a, b :: bs =>
    programBytes event (Memory.write m a (programByte event a (Memory.read m a) b)) (a + 1) bs

/-- A program call cut by power loss: each byte holds its old or its new value (R72, U7, log 7). -/
def programCutBytes (event : Nat) : Memory → Nat → List Byte → Memory
  | m, _, [] => m
  | m, a, b :: bs =>
    let kept := Memory.read m a
    let byte := if Config.cutProgramDone event a then programByte event a kept b else kept
    programCutBytes event (Memory.write m a byte) (a + 1) bs

/-- What flash event number `event` makes of the flash (R63, R64, R72). A decaying byte outside the
flash does not exist and changes nothing. -/
def applyFlashEvent (c : Config) (event : Nat) (e : FlashEvent) (m : Memory) : Memory :=
  match e with
  | .program a bytes => programBytes event m a bytes
  | .erase p => Memory.eraseRange m (p * c.ps) c.ps
  | .programCut a bytes => programCutBytes event m a bytes
  | .eraseCut p =>
    Memory.writeBytes m (p * c.ps)
      ((List.range c.ps).map fun k => Config.cutErase event (p * c.ps + k))
  | .upset a v => if a < c.es then Memory.write m a v else m

/-- The flash after a sequence of events, the first of them numbered `event`. -/
def replayFlash (c : Config) : Nat → List FlashEvent → Memory → Memory
  | _, [], m => m
  | event, e :: es, m => replayFlash c (event + 1) es (applyFlashEvent c event e m)

/-- One event happens to the flash: its content changes and the event is logged. Every change of the
flash goes through here. -/
def Fsc.device (c : Config) (e : FlashEvent) (f : Fsc) : Fsc :=
  { f with flash := applyFlashEvent c f.log.length e f.flash, log := f.log ++ [e] }

/-! ### Byte buffers -/

/-- Byte `i` of a buffer; an index outside it reads 0 (R28). -/
def bufRead (b : List Byte) (i : Nat) : Byte := b.getD i 0

/-- Write byte `i` of a buffer; an index outside it is ignored (R28). -/
def bufWrite (b : List Byte) (i : Nat) (v : Byte) : List Byte := b.set i v

/-- The first `n` bytes of a buffer, `B[0 .. n-1]`. -/
def bufTake (b : List Byte) (n : Nat) : List Byte := (List.range n).map (bufRead b)

/-- Byte `k` of a ROM code, byte 0 lowest (R33, R99). -/
def romByte (r : RomCode) (k : Nat) : Byte := r.extractLsb' (8 * k) 8

/-- The 8 bytes of a ROM code, family code first (R32, R100). -/
def romBytes (r : RomCode) : List Byte := (List.range 8).map (romByte r)

/-- Write byte `k` of a ROM code; an index outside `0..7` is ignored (R28). -/
def setRomByte (r : RomCode) (k : Nat) (v : Byte) : RomCode :=
  if k < 8 then (r &&& ~~~((0xFF : RomCode) <<< (8 * k))) ||| (v.setWidth 64 <<< (8 * k)) else r

/-- ROM bit at position `n`, 1 to 64 (R33, R170). -/
def romBit (r : RomCode) (n : Nat) : Bool := r.getLsbD (n - 1)

/-- Set ROM bit position `n`, 1 to 64, to `b` (R33, R170). -/
def setRomBit (r : RomCode) (n : Nat) (b : Bool) : RomCode :=
  if b then r ||| ((1 : RomCode) <<< (n - 1)) else r &&& ~~~((1 : RomCode) <<< (n - 1))

/-- The 8 bits of a byte, bit 0 first, as they go over the wire (R99). -/
def byteBits (b : Byte) : List Bool := (List.range 8).map b.getLsbD

/-! ### How a command ends -/

/-- `done(v)`: the command succeeded with result `v` (R95, R261). -/
def done (v : Word) (s : State) : State :=
  { s with ok := true, err := .none, res := v, busy := false }

/-- `fail(E)` with the value `v` the command's rule gives `RES` (0 unless it says otherwise): the
block's whole exception mechanism. It saves nothing and transfers control nowhere; every state change
made before it stays (R260, R261). -/
def fail (e : ErrCode) (v : Word) (s : State) : State :=
  { s with ok := false, err := e, res := v, busy := false }

/-- A CRC or FSC command lets an unspecified time pass (R301, U3, log 5). -/
def spend (s : State) : State :=
  { s with line := { s.line with time := s.line.time + Config.commandTime s.freeCount }
           freeCount := s.freeCount + 1 }

/-- `min(x + 1, 0xFFFFFFFF)`, the saturating increment of `CRCERR` (R41, R203, R235). -/
def satInc (x : Word) : Word := if x = BitVec.allOnes 32 then x else x + 1

/-- Power is lost and comes back over a flash that holds `flash`: every volatile element takes its
reset value (R72, R273, R280); the flash stays, and with it what belongs to the outside world (the
inputs still to come, the slaves, the device's history, what the host last read). -/
def powerCycle (flash : Memory) (log : List FlashEvent) (s : State) : State :=
  { State.powerOn s.cfg flash log with
      line := { OneWire.reset with slaves := s.line.slaves }
      fsc := { Fsc.powerOn s.cfg flash log with decay := s.fsc.decay }
      inputs := s.inputs, hostData := s.hostData, freeCount := s.freeCount }

end Sys2Proof.Machine
end

