-- ==== Sys2Proof/Machine/Geometry.lean ====
section
/-! DEFINITION. The flash geometry derived from the configuration (R6, R66): sector size, sectors per
page, pages, sectors, addresses, and the constraints inside which the FSC's rules hold. -/

namespace Sys2Proof

/-- `SS = SDS + 2`, the sector size in bytes (R6, R67). -/
def Config.ss (c : Config) : Nat := c.sds + 2

/-- `SPP = PS div SS`, sectors per page (R6). -/
def Config.spp (c : Config) : Nat := c.ps / c.ss

/-- `P = ES div PS`, the number of pages (R6). -/
def Config.pages (c : Config) : Nat := c.es / c.ps

/-- `T = P * SPP`, the number of sectors (R6). -/
def Config.total (c : Config) : Nat := c.pages * c.spp

/-- `PageOf(s) = s div SPP` (R66). -/
def Config.pageOf (c : Config) (i : Nat) : Nat := i / c.spp

/-- `SecAddr(s)`, the byte address of sector `s` (R66). -/
def Config.secAddr (c : Config) (i : Nat) : Nat := (i / c.spp) * c.ps + (i % c.spp) * c.ss

/-- The constraints of R6 on a configuration, with R64's on the device's erase size. -/
abbrev Config.Valid (c : Config) : Prop :=
  1 ≤ c.sds ∧ 1 ≤ c.n ∧ c.n + 2 * c.spp ≤ c.total ∧ c.n ≤ 127 ∧ c.ss ≤ c.ps ∧ 3 * c.ps ≤ c.es ∧
    c.total ≤ 65535 ∧ 1 ≤ c.eraseSize ∧ c.ps % c.eraseSize = 0

/-- `DIR[n]` as the 16-bit entry of R37: a sector index, or `ABSENT = 0xFFFF`. -/
def dirWord (e : Option Nat) : BitVec 16 :=
  match e with
  | some i => BitVec.ofNat 16 i
  | none => 0xFFFF

end Sys2Proof
end

