-- ==== Sys2Proof/Machine/Operands.lean ====
section
/-! DEFINITION. The checks made on a command's operand and on the unit's readiness before its rule
runs, in R97's order: `ILLEGAL`, then `NOT_READY`, then `RANGE`. -/

namespace Sys2Proof.Machine

/-- The outcome of a command. -/
abbrev Result := Host.Outcome State Fault Refusal

/-- A one-bit operand: `A > 1` is `fail(ILLEGAL)` with no other effect (R93). -/
def withBitOperand (a : Byte) (s : State) (body : Bool → Result) : Result :=
  if OneBitOperand a then body (a.getLsbD 0) else .next (fail .illegal 0 s)

/-- An OWM line command needs a bound pin: else `fail(NOT_READY)`, no pin event, no time (R126). -/
def withPin (s : State) (body : Result) : Result :=
  if s.line.bound then body else .next (fail .notReady 0 s)

/-- A count operand `n` for which the command needs `need` bytes of `OWBUF`; more than `OWBUF_SIZE` is
`fail(RANGE)` (R151, R195). -/
def withCount (need : Nat) (s : State) (body : Result) : Result :=
  if need ≤ s.cfg.owbufSize then body else .next (fail .range 0 s)

/-- An FSC command runs with a configuration inside R6's constraints only: outside them no rule of the
FSC is promised and the model refuses (R284, U8). The command lets an unspecified time pass (R301). -/
def withGeometry (s : State) (body : State → Result) : Result :=
  if s.cfg.Valid then body (spend s) else .refused .geometry

/-- An FSC command other than `FS_BEGIN` needs `FS_READY = 1`: else `fail(NOT_READY)` (R38, R284). -/
def withStore (s : State) (body : State → Result) : Result :=
  withGeometry s fun t => if t.fsc.ready then body t else .next (fail .notReady 0 t)

/-- An FSC command on a file: a file number `>= N` is `fail(RANGE)` (R94). -/
def withFile (id : Byte) (s : State) (body : State → Result) : Result :=
  withStore s fun t => if id.toNat < t.cfg.n then body t else .next (fail .range 0 t)

end Sys2Proof.Machine
end

