-- ==== Sys2Proof/Machine/Crc.lean ====
section
/-! DEFINITION. The CRC unit (43_crc.md): the two functions and the three commands. -/

namespace Sys2Proof.Machine

/-- `k` bit steps of the CRC-8 register `c` over byte `b`, bit 0 first (R190). -/
def crc8Bits : Nat → Byte → Byte → Byte
  | 0, c, _ => c
  | k + 1, c, b =>
    let mix := (c ^^^ b).getLsbD 0
    crc8Bits k (if mix then (c >>> 1) ^^^ 0x8C else c >>> 1) (b >>> 1)

/-- The CRC-8 register after one byte (R190). -/
def crc8Step (c b : Byte) : Byte := crc8Bits 8 c b

/-- `crc8(bytes)`: polynomial 0x8C, LSB first, initial value 0 (R190). -/
def crc8 (bytes : List Byte) : Byte := bytes.foldl crc8Step 0

/-- `k` bit steps of the CRC-16 register (R192). -/
def crc16Bits : Nat → Half → Half
  | 0, c => c
  | k + 1, c => crc16Bits k (if c.getLsbD 0 then (c >>> 1) ^^^ 0xA001 else c >>> 1)

/-- The CRC-16 register after one byte (R192). -/
def crc16Step (c : Half) (b : Byte) : Half := crc16Bits 8 (c ^^^ b.setWidth 16)

/-- `crc16(bytes)`: polynomial 0xA001 reflected, initial value 0 (R192). -/
def crc16 (bytes : List Byte) : Half := bytes.foldl crc16Step 0

/-- The received CRC-16 of `CHECK_CRC16 n`: `OWBUF[n] + 256 * OWBUF[n+1]` (R194). -/
def receivedCrc16 (buf : List Byte) (n : Nat) : Half := bufRead buf (n + 1) ++ bufRead buf n

/-- `CRC8 n` (R191, R195). -/
def execCrc8 (n : Byte) (s : State) : Result :=
  withCount n.toNat (spend s) <|
    .next (done ((crc8 (bufTake s.owbuf n.toNat)).setWidth 32) (spend s))

/-- `CRC16 n` (R193, R195). -/
def execCrc16 (n : Byte) (s : State) : Result :=
  withCount n.toNat (spend s) <|
    .next (done ((crc16 (bufTake s.owbuf n.toNat)).setWidth 32) (spend s))

/-- `CHECK_CRC16 n` (R194, R195): succeeds whether or not the check passes; the verdict is `RES`. -/
def execCheckCrc16 (n : Byte) (s : State) : Result :=
  withCount (n.toNat + 2) (spend s) <|
    .next (done
      (if ~~~(crc16 (bufTake s.owbuf n.toNat)) = receivedCrc16 s.owbuf n.toNat then 1 else 0)
      (spend s))

end Sys2Proof.Machine
end

