-- ==== Sys2Proof/Machine/Sector.lean ====
section
/-! DEFINITION. Sectors of the flash log (R66 to R68, R230): reading one, classifying it, building
one. -/

namespace Sys2Proof.Machine

/-- `sec = FlashRead(SecAddr(s), SS)` (R68). -/
def sectorAt (c : Config) (m : Memory) (i : Nat) : List Byte := flashRead m (c.secAddr i) c.ss

/-- `HDR`, byte 0 of a sector (R67). -/
def sectorHeader (sec : List Byte) : Byte := sec.getD 0 erasedByte

/-- `CRC`, byte 1 of a sector (R67). -/
def sectorCrc (sec : List Byte) : Byte := sec.getD 1 erasedByte

/-- `Payload(s)`, bytes 2 .. `SS-1` (R68). -/
def sectorPayload (sec : List Byte) : List Byte := sec.drop 2

/-- `Free(s)`: decided by the header byte alone (R68). -/
def sectorFree (sec : List Byte) : Bool := sectorHeader sec = erasedByte

/-- `Valid(s)`: not free, and the stored CRC is that of header and payload (R68). -/
def sectorValid (sec : List Byte) : Bool :=
  !sectorFree sec && decide (crc8 (sectorHeader sec :: sectorPayload sec) = sectorCrc sec)

/-- `Bad(s)` (R68). -/
def sectorBad (sec : List Byte) : Bool := !sectorFree sec && !sectorValid sec

/-- `File(s)`, bits 6:0 of the header (R68). -/
def sectorFile (sec : List Byte) : Nat := ((sectorHeader sec).extractLsb' 0 7).toNat

/-- `Tomb(s)`, bit 7 of the header (R68). -/
def sectorTomb (sec : List Byte) : Bool := (sectorHeader sec).getLsbD 7

/-- The header byte of a sector: `(tomb << 7) or id` (R67, R230). -/
def makeHeader (id : Nat) (tomb : Bool) : Byte :=
  ((BitVec.ofBool tomb).setWidth 8 <<< 7) ||| BitVec.ofNat 8 id

/-- `MakeSector(id, tomb, payload)` (R230). -/
def makeSector (id : Nat) (tomb : Bool) (payload : List Byte) : List Byte :=
  let hdr := makeHeader id tomb
  hdr :: crc8 (hdr :: payload) :: payload

end Sys2Proof.Machine
end

