-- ==== Sys2Proof/Machine/FlashScan.lean ====
section
/-! DEFINITION. The FSC unit's startup scan, read path and introspection (44_flash_scan.md). -/

namespace Sys2Proof.Machine

/-! ### The scan (R201 to R207) -/

/-- The transient state of a scan (R44): directory, the area each entry was recorded at, the area
counter, the first free sector, the CRC error count. -/
structure Scan where
  dir : List (Option Nat)
  darea : List (Option Nat)
  area : Nat
  head : Option Nat
  err : Word
deriving DecidableEq, Repr

/-- The scan before its first sector (R203). -/
def Scan.init (c : Config) : Scan :=
  { dir := List.replicate c.n none, darea := List.replicate c.n none
    area := 0, head := none, err := 0 }

/-- Whether a valid sector of file `n` met at the present area is as recent as what is recorded: a
smaller or equal area wins (R203, R204). -/
def Scan.accepts (a : Scan) (n : Nat) : Bool :=
  match a.darea.getD n none with
  | none => true
  | some recorded => decide (a.area ≤ recorded)

/-- One sector of the scan (R203). -/
def Scan.sector (c : Config) (i : Nat) (sec : List Byte) (a : Scan) : Scan :=
  if sectorFree sec then
    { a with area := a.area + 1, head := some (a.head.getD i) }
  else if sectorBad sec then { a with err := satInc a.err }
  else if sectorFile sec < c.n ∧ a.accepts (sectorFile sec) then
    { a with
      dir := a.dir.set (sectorFile sec) (if sectorTomb sec then none else some i)
      darea := a.darea.set (sectorFile sec) (some a.area) }
  else a

/-- The scan after sectors `0 .. k-1` (R203). -/
def scanUpTo (c : Config) (m : Memory) : Nat → Scan
  | 0 => Scan.init c
  | k + 1 => (scanUpTo c m k).sector c k (sectorAt c m k)

/-- `Scan()`: every sector in index order (R203). -/
def scan (c : Config) (m : Memory) : Scan := scanUpTo c m c.total

/-- `FindHint()`: the first page whose first sector is free (R202). -/
def findHint (c : Config) (m : Memory) : Option Nat :=
  (List.range c.pages).find? fun p => sectorFree (sectorAt c m (p * c.spp))

/-- Page `p` holds a sector that `dir` points at (R205). -/
def pageMarked (c : Config) (dir : List (Option Nat)) (p : Nat) : Bool :=
  dir.any fun e => match e with
    | some i => decide (c.pageOf i = p)
    | none => false

/-- The free page when no sector is free: the lowest unmarked page, else the last page (R205). -/
def sacrificePage (c : Config) (dir : List (Option Nat)) : Nat :=
  ((List.range c.pages).find? fun p => !pageMarked c dir p).getD (c.pages - 1)

/-- `Locate(hint, head, dir1)`: the write pointer and the free page (R205). -/
def locate (c : Config) (hint head : Option Nat) (dir : List (Option Nat)) : Nat × Nat :=
  match head with
  | some h => (h, hint.getD ((c.pageOf h + 1) % c.pages))
  | none => (sacrificePage c dir * c.spp, sacrificePage c dir)

/-- `Rescan()` (R201): scan, locate, force-erase the free page (R206), scan again (R207). -/
def Fsc.rescan (c : Config) (f : Fsc) : Fsc :=
  let first := scan c f.flash
  let place := locate c (findHint c f.flash) first.head first.dir
  let erased := f.device c (.erase place.2)
  let second := scan c erased.flash
  { erased with
    dir := second.dir, crcerr := second.err, wp := place.1, free := place.2
    listActive := false, ready := true }

/-- `FS_BEGIN` (R200). -/
def execFsBegin (s : State) : Result :=
  withGeometry s fun t => .next (done 0 { t with fsc := t.fsc.rescan t.cfg })

/-! ### The read path (R211, R212) -/

/-- What one look at a file's directory entry finds. -/
inductive Lookup where
  | absent
  | valid (i : Nat) (payload : List Byte)
  | invalid
  | outside
deriving DecidableEq, Repr

/-- The directory entry of file `id`, re-validated against the flash (R211). -/
def Fsc.lookup (c : Config) (id : Nat) (f : Fsc) : Lookup :=
  match f.dir.getD id none with
  | none => .absent
  | some i =>
    if i < c.total then
      if sectorValid (sectorAt c f.flash i) then .valid i (sectorPayload (sectorAt c f.flash i))
      else .invalid
    else .outside

/-- The bytes that decay between a rescan and the retried read (R211, log 13). -/
def Fsc.strike (c : Config) (f : Fsc) : Fsc :=
  { f.decay.foldl (fun g cell => g.device c (.upset cell.1 cell.2)) f with decay := [] }

/-- How `ReadProc` ends, with the FSC unit as it leaves it (R211). -/
inductive ReadEnd where
  | notFound (f : Fsc)
  | found (i : Nat) (payload : List Byte) (f : Fsc)
  | crcFail (f : Fsc)
  | outside
deriving DecidableEq, Repr

/-- `ReadProc(id)` (R211): on an invalid sector, one rescan and one retry. -/
def Fsc.readProc (c : Config) (id : Nat) (f : Fsc) : ReadEnd :=
  match f.lookup c id with
  | .absent => .notFound f
  | .valid i payload => .found i payload f
  | .outside => .outside
  | .invalid =>
    let g := (f.rescan c).strike c
    match g.lookup c id with
    | .absent => .notFound g
    | .valid i payload => .found i payload g
    | .outside => .outside
    | .invalid => .crcFail g

/-- `FS_READ_FILE id` (R212): `DBUF` is changed only on success. -/
def execFsReadFile (id : Byte) (s : State) : Result :=
  withFile id s fun t =>
    match t.fsc.readProc t.cfg id.toNat with
    | .notFound f => .next (fail .notFound 0 { t with fsc := f })
    | .crcFail f => .next (fail .crc 0 { t with fsc := f })
    | .found i payload f =>
      .next (done (BitVec.ofNat 32 i) { t with fsc := f, dbuf := payload })
    | .outside => .fault .flashAddress

/-! ### Introspection (R215 to R217) -/

/-- `FS_CRCERR` (R215). -/
def execFsCrcerr (s : State) : Result :=
  withStore s fun t => .next (done t.fsc.crcerr t)

/-- Sector contents that the listing of file `id` yields (R217). -/
def sectorListed (id : Nat) (sec : List Byte) : Bool :=
  sectorValid sec && !sectorTomb sec && decide (sectorFile sec = id)

/-- `ListStep()` with `count` sectors still to visit (R217): the cursor after it and the sector found. -/
def Fsc.listStep (c : Config) : Nat → Fsc → Option Nat × Fsc
  | 0, f => (none, { f with listActive := false })
  | count + 1, f =>
    let i := (f.listBase + f.listPos) % c.total
    let g := { f with listPos := f.listPos + 1 }
    if sectorListed f.listId.toNat (sectorAt c f.flash i) then (some i, g)
    else Fsc.listStep c count g

/-- One revision per command: the payload goes to `DBUF`, the sector to `RES` (R217). -/
def listOnce (t : State) : Result :=
  match t.fsc.listStep t.cfg (t.cfg.total - t.fsc.listPos) with
  | (some i, f) =>
    .next (done (BitVec.ofNat 32 i)
      { t with fsc := f, dbuf := sectorPayload (sectorAt t.cfg t.fsc.flash i) })
  | (none, f) => .next (fail .listEnd 0 { t with fsc := f })

/-- The listing cursor `FS_LIST_FIRST id` sets up (R216). -/
def Fsc.listStart (c : Config) (id : Byte) (f : Fsc) : Fsc :=
  { f with
    listId := id.setWidth 7, listPos := 0, listBase := ((f.free + 1) % c.pages) * c.spp
    listActive := true }

/-- `FS_LIST_FIRST id` (R216). -/
def execFsListFirst (id : Byte) (s : State) : Result :=
  withFile id s fun t => listOnce { t with fsc := t.fsc.listStart t.cfg id }

/-- `FS_LIST_NEXT` (R217). -/
def execFsListNext (s : State) : Result :=
  withStore s fun t => if t.fsc.listActive then listOnce t else .next (fail .listEnd 0 t)

end Sys2Proof.Machine
end

