-- ==== Sys2Proof/Machine/FlashWrite.lean ====
section
/-! DEFINITION. The FSC unit's append, defragmentation and write commands (45_flash_write.md). -/

namespace Sys2Proof.Machine

/-- `live(v)`: how many other files' directory entries point into page `v` (R233). -/
def liveCount (c : Config) (dir : List (Option Nat)) (id v : Nat) : Nat :=
  (List.range c.n).countP fun j =>
    decide (j ≠ id) && (match dir.getD j none with
      | some i => decide (c.pageOf i = v)
      | none => false)

/-- `SelectVictim(id)`: the first page after `FREE`, wrapping, with fewer than `SPP` live sectors of
other files (R233). -/
def selectVictim (c : Config) (dir : List (Option Nat)) (free id : Nat) : Option Nat :=
  ((List.range (c.pages - 1)).map fun k => (free + (k + 1)) % c.pages).find? fun v =>
    decide (liveCount c dir id v < c.spp)

/-- The file other than `id` whose live sector is sector `i`; at most one by R241 (R235). -/
def liveOwner (c : Config) (dir : List (Option Nat)) (id i : Nat) : Option Nat :=
  (List.range c.n).find? fun j => decide (j ≠ id) && decide (dir.getD j none = some i)

/-- One sector of `CopyForward` (R235): a valid live sector is copied unchanged to the write pointer,
an invalid one is dropped and counted. -/
def Fsc.copySector (c : Config) (id i : Nat) (f : Fsc) : Fsc :=
  match liveOwner c f.dir id i with
  | none => f
  | some j =>
    let sec := sectorAt c f.flash i
    if sectorValid sec then
      { f.device c (.program (c.secAddr f.wp) sec) with
        dir := f.dir.set j (some f.wp), wp := f.wp + 1 }
    else { f with crcerr := satInc f.crcerr, dir := f.dir.set j none }

/-- `CopyForward(v, id)` over the first `k` sectors of page `v`, ascending (R235). -/
def Fsc.copyForward (c : Config) (v id : Nat) : Nat → Fsc → Fsc
  | 0, f => f
  | k + 1, f => (Fsc.copyForward c v id k f).copySector c id (v * c.spp + k)

/-- How `Append` ends (R231). -/
inductive AppendEnd where
  | written (w : Nat) (f : Fsc)
  | full
  | outside
deriving DecidableEq, Repr

/-- Program a new sector of file `id` at sector `w` and point the directory at it (R231, R232). -/
def Fsc.place (c : Config) (id : Nat) (tomb : Bool) (payload : List Byte) (w : Nat) (f : Fsc) : Fsc :=
  { f.device c (.program (c.secAddr w) (makeSector id tomb payload)) with
    dir := f.dir.set id (if tomb then none else some w) }

/-- `Append` on the direct path (R231), and R237's end of a listing. -/
def Fsc.appendDirect (c : Config) (id : Nat) (tomb : Bool) (payload : List Byte) (f : Fsc) : Fsc :=
  { f.place c id tomb payload f.wp with wp := (f.wp + 1) % c.total, listActive := false }

/-- `Append` on the defragmentation path with victim page `v` (R232), and R237's end of a listing. -/
def Fsc.appendDefrag (c : Config) (id : Nat) (tomb : Bool) (payload : List Byte) (v : Nat)
    (f : Fsc) : Fsc :=
  let placed := { f.place c id tomb payload (f.free * c.spp) with wp := f.free * c.spp + 1 }
  let copied := placed.copyForward c v id c.spp
  { copied.device c (.erase v) with wp := copied.wp % c.total, free := v, listActive := false }

/-- `Append(id, tomb, payload)` (R231, R232, R237): on `full` nothing has changed. -/
def Fsc.append (c : Config) (id : Nat) (tomb : Bool) (payload : List Byte) (f : Fsc) : AppendEnd :=
  if f.wp % c.spp ≠ 0 then
    if f.wp < c.total then .written f.wp (f.appendDirect c id tomb payload) else .outside
  else if f.free < c.pages then
    match selectVictim c f.dir f.free id with
    | none => .full
    | some v => .written (f.free * c.spp) (f.appendDefrag c id tomb payload v)
  else .outside

/-- Append as a command, with the result a written sector gives (R238 to R240). -/
def appendCommand (id : Byte) (tomb : Bool) (payload : List Byte) (okRes : Nat → Word) (t : State) :
    Result :=
  match t.fsc.append t.cfg id.toNat tomb payload with
  | .full => .next (fail .full 0 t)
  | .written w f => .next (done (okRes w) { t with fsc := f })
  | .outside => .fault .flashAddress

/-- `FS_WRITE_FILE id` (R238): `RES` is the sector index written. -/
def execFsWriteFile (id : Byte) (s : State) : Result :=
  withFile id s fun t =>
    appendCommand id false (bufTake t.dbuf t.cfg.sds) (BitVec.ofNat 32) t

/-- `FS_UPDATE_FILE id` (R239): `RES = 0` when the file already holds `DBUF`, 1 when it was written. -/
def execFsUpdateFile (id : Byte) (s : State) : Result :=
  withFile id s fun t =>
    let data := bufTake t.dbuf t.cfg.sds
    match t.fsc.readProc t.cfg id.toNat with
    | .found _ payload f =>
      if payload = data then .next (done 0 { t with fsc := f })
      else appendCommand id false data (fun _ => 1) { t with fsc := f }
    | .notFound f => appendCommand id false data (fun _ => 1) { t with fsc := f }
    | .crcFail f => appendCommand id false data (fun _ => 1) { t with fsc := f }
    | .outside => .fault .flashAddress

/-- `FS_ERASE_FILE id` (R240): a tombstone with payload all 0xFF. -/
def execFsEraseFile (id : Byte) (s : State) : Result :=
  withFile id s fun t =>
    appendCommand id true (List.replicate t.cfg.sds 0xFF) (BitVec.ofNat 32) t

end Sys2Proof.Machine
end

