-- ==== Sys2Proof/Machine/Line.lean ====
section
/-! DEFINITION. The pin, the line and the slots of the OWM unit (R120 to R125, R150): every pin change
and every sample happens at an integer microsecond. A procedure on `OneWire` starts at its `time` and
leaves the instant it ends there. -/

namespace Sys2Proof.Machine

/-- `SlaveLow(t)`: some slave pulls the line low at microsecond `t` (R122). -/
def slaveLow (script : List (Nat × Nat)) (t : Nat) : Bool :=
  script.any fun iv => decide (iv.1 ≤ t) && decide (t < iv.2)

/-- `Line(t)`, `true` for level 1 (R122). The wired-AND of master and slaves; contention is free
(U2, log 9). -/
def OneWire.level (l : OneWire) (t : Nat) : Bool :=
  match l.pinState with
  | .low => false
  | .rel => !slaveLow l.slaves t
  | .high => if slaveLow l.slaves t then Config.contention t else true

/-- `Pin <- X at t` (R121). -/
def OneWire.pinAt (x : PinState) (t : Nat) (l : OneWire) : OneWire :=
  if l.pinState = x then l
  else { l with pinState := x, trace := l.trace ++ [{ time := t, pin := l.pin, level := x }] }

/-- `Idle`, the pin's state between line commands (R123). -/
def OneWire.idle (l : OneWire) : PinState := if l.ppwr then .high else .rel

/-- The last act of every line command: `Pin <- Idle at t_e` (R123 b). -/
def OneWire.finish (l : OneWire) : OneWire := l.pinAt l.idle l.time

/-- The first of the `count` instants `t, t+1, …` at which the line is at level `want`. -/
def OneWire.firstAt (want : Bool) (l : OneWire) : Nat → Nat → Option Nat
  | _, 0 => none
  | t, count + 1 => if l.level t = want then some t else OneWire.firstAt want l (t + 1) count

/-- `WaitRelease(t0)`: the first high instant of `t0, …, t0+T_BUSY` (R124). -/
def OneWire.waitRelease (tm : Timing) (t0 : Nat) (l : OneWire) : Option Nat :=
  l.firstAt true t0 (tm.tBusy + 1)

/-- How a slot or a byte transfer ends: with a value, or with the bus busy. -/
inductive Slot (α : Type) where
  | ran (v : α) (l : OneWire)
  | busBusy (l : OneWire)
deriving DecidableEq, Repr

/-- The first act of a line command: a pin that drives high is released (R123 a). -/
def OneWire.release (l : OneWire) : OneWire :=
  if l.pinState = .high then l.pinAt .rel l.time else l

/-- The preamble of every slot (R125): release a high pin, wait for the bus, lead in, drive low.
Answers the falling edge `t_f`. -/
def OneWire.preamble (tm : Timing) (l : OneWire) : Slot Nat :=
  match l.release.waitRelease tm l.time with
  | none => .busBusy { l.release with time := l.time + tm.tBusy }
  | some tr => .ran (tr + tm.tLead) (l.release.pinAt .low (tr + tm.tLead))

/-- `WriteSlot(v)` (R129, R150). -/
def OneWire.writeSlot (tm : Timing) (v : Bool) (l : OneWire) : Slot Unit :=
  match l.preamble tm with
  | .busBusy l₁ => .busBusy l₁
  | .ran tf l₁ =>
    let tu := tf + (if v then tm.tW1l else tm.tW0l)
    .ran () { l₁.pinAt .rel tu with time := tu + (if v then tm.tW1h else tm.tW0h) }

/-- `ReadSlot()` (R130, R150): the one sample is `T_RDS` after the release. -/
def OneWire.readSlot (tm : Timing) (l : OneWire) : Slot Bool :=
  match l.preamble tm with
  | .busBusy l₁ => .busBusy l₁
  | .ran tf l₁ =>
    let tu := tf + tm.tRdl
    let l₂ := l₁.pinAt .rel tu
    .ran (l₂.level (tu + tm.tRds)) { l₂ with time := tf + tm.tRdslot }

/-- The body of `OW_RESET` (R128) without its final `Pin <- Idle`: the code of its result (`none` when
a presence pulse was seen and ended in time) and the line at its end. -/
def OneWire.resetBody (tm : Timing) (l : OneWire) : ErrCode × OneWire :=
  match l.preamble tm with
  | .busBusy l₁ => (.busBusy, l₁)
  | .ran tf l₁ =>
    let tu := tf + tm.tRstl
    let l₂ := l₁.pinAt .rel tu
    let l₃ := { l₂ with time := tu + tm.tRsth }
    match l₂.firstAt false (tu + 1) tm.tPdw with
    | none => (.noPresence, l₃)
    | some tp =>
      match l₂.firstAt true (tp + 1) (tu + tm.tRsth - tp) with
      | none => (.busBusy, l₃)
      | some _ => (.none, l₃)

/-- How a run of write slots ends: all sent, or stopped at a failing slot after `sent` slots. -/
inductive WriteRun where
  | ran (l : OneWire)
  | stopped (sent : Nat) (l : OneWire)
deriving DecidableEq, Repr

/-- Write slots in sequence, each from the previous one's end (R150); `sent` were sent before. -/
def OneWire.writeBits (tm : Timing) : List Bool → Nat → OneWire → WriteRun
  | [], _, l => .ran l
  | b :: bs, sent, l =>
    match l.writeSlot tm b with
    | .busBusy l₁ => .stopped sent l₁
    | .ran _ l₁ => OneWire.writeBits tm bs (sent + 1) l₁

/-- Read `count` slots into bits `i, i+1, …` of `v` (R154, R155). -/
def OneWire.readBits (tm : Timing) : Nat → Nat → Byte → OneWire → Slot Byte
  | 0, _, v, l => .ran v l
  | count + 1, i, v, l =>
    match l.readSlot tm with
    | .busBusy l₁ => .busBusy l₁
    | .ran b l₁ =>
      OneWire.readBits tm count (i + 1) (if b then v ||| ((1 : Byte) <<< i) else v) l₁

/-- One byte read, bit 0 first (R154). -/
def OneWire.readByte (tm : Timing) (l : OneWire) : Slot Byte := l.readBits tm 8 0 0

/-- How a run of byte reads ends: with the buffer filled, or stopped after `got` whole bytes. -/
inductive ReadRun where
  | ran (buf : List Byte) (l : OneWire)
  | stopped (got : Nat) (buf : List Byte) (l : OneWire)
deriving DecidableEq, Repr

/-- Read `count` bytes into `buf[k], buf[k+1], …`, each written when all its 8 bits were read (R155). -/
def OneWire.readBytes (tm : Timing) : Nat → Nat → List Byte → OneWire → ReadRun
  | 0, _, buf, l => .ran buf l
  | count + 1, k, buf, l =>
    match l.readByte tm with
    | .busBusy l₁ => .stopped k buf l₁
    | .ran v l₁ => OneWire.readBytes tm count (k + 1) (bufWrite buf k v) l₁

end Sys2Proof.Machine
end

