-- ==== Sys2Proof/Machine/OneWireBit.lean ====
section
/-! DEFINITION. The bit-level commands of the OWM unit: `OW_BEGIN`, `OW_RESET`, `OW_WRITE_BIT`,
`OW_READ_BIT` (40_onewire_bit.md). -/

namespace Sys2Proof.Machine

/-- `OW_BEGIN` on the line (R127): leave the old pin released, bind the new one, record its release
whatever its state was, then take the idle state. -/
def OneWire.begin (a : Byte) (l : OneWire) : OneWire :=
  let l₀ := if l.bound ∧ l.pin ≠ a then l.pinAt .rel l.time else l
  let l₁ :=
    { l₀ with
      pin := a, bound := true, pinState := .rel
      trace := l₀.trace ++ [PinEvent.mk l₀.time a .rel] }
  l₁.finish

/-- `OW_BEGIN pin` (R127): takes no time, never fails. -/
def execOwBegin (pin : Byte) (s : State) : Result :=
  .next (done 0 { s with line := s.line.begin pin })

/-- `OW_RESET` (R128): `RES = 1` when a presence pulse was seen and ended in time. -/
def execOwReset (s : State) : Result :=
  withPin s <|
    match s.line.resetBody s.cfg.timing with
    | (.none, l) => .next (done 1 { s with line := l.finish })
    | (e, l) => .next (fail e 0 { s with line := l.finish })

/-- `OW_WRITE_BIT v` (R129). -/
def execOwWriteBit (v : Byte) (s : State) : Result :=
  withBitOperand v s fun b =>
    withPin s <|
      match s.line.writeSlot s.cfg.timing b with
      | .ran _ l => .next (done 0 { s with line := l.finish })
      | .busBusy l => .next (fail .busBusy 0 { s with line := l.finish })

/-- `OW_READ_BIT` (R130): `RES` is the bit read. -/
def execOwReadBit (s : State) : Result :=
  withPin s <|
    match s.line.readSlot s.cfg.timing with
    | .ran b l => .next (done ((BitVec.ofBool b).setWidth 32) { s with line := l.finish })
    | .busBusy l => .next (fail .busBusy 0 { s with line := l.finish })

end Sys2Proof.Machine
end

