-- ==== Sys2Proof/Machine/OneWireByte.lean ====
section
/-! DEFINITION. The byte-level and addressing commands of the OWM unit (41_onewire_byte.md). -/

namespace Sys2Proof.Machine

/-- Send a run of bits as one command (R150): on success the result is `okRes`; when a slot fails,
`RES` counts the units of `unit` bits sent before it (R152, R153, R158). -/
def sendBits (bits : List Bool) (okRes : Word) (unit : Nat) (s : State) : Result :=
  match s.line.writeBits s.cfg.timing bits 0 with
  | .ran l => .next (done okRes { s with line := l.finish })
  | .stopped sent l =>
    .next (fail .busBusy (BitVec.ofNat 32 (sent / unit)) { s with line := l.finish })

/-- The MATCH-ROM command byte (R98). -/
def matchRom : Byte := 0x55

/-- The SKIP-ROM command byte (R98). -/
def skipRom : Byte := 0xCC

/-- The bits of a byte sequence, in the order they go over the wire (R99, R158). -/
def wireBits (bytes : List Byte) : List Bool := bytes.flatMap byteBits

/-- `OW_WRITE b` (R152). -/
def execOwWrite (b : Byte) (s : State) : Result :=
  withPin s (sendBits (byteBits b) 0 1 s)

/-- `OW_WRITE_BYTES n` (R151, R153). -/
def execOwWriteBytes (n : Byte) (s : State) : Result :=
  withPin s <| withCount n.toNat s <|
    sendBits (wireBits (bufTake s.owbuf n.toNat)) (n.setWidth 32) 8 s

/-- `OW_READ` (R154). -/
def execOwRead (s : State) : Result :=
  withPin s <|
    match s.line.readByte s.cfg.timing with
    | .ran v l => .next (done (v.setWidth 32) { s with line := l.finish })
    | .busBusy l => .next (fail .busBusy 0 { s with line := l.finish })

/-- `OW_READ_BYTES n` (R151, R155). -/
def execOwReadBytes (n : Byte) (s : State) : Result :=
  withPin s <| withCount n.toNat s <|
    match s.line.readBytes s.cfg.timing n.toNat 0 s.owbuf with
    | .ran buf l => .next (done (n.setWidth 32) { s with owbuf := buf, line := l.finish })
    | .stopped got buf l =>
      .next (fail .busBusy (BitVec.ofNat 32 got) { s with owbuf := buf, line := l.finish })

/-- `OW_SELECT` (R158): MATCH-ROM and the 8 bytes of `ADDR`. -/
def execOwSelect (s : State) : Result :=
  withPin s (sendBits (wireBits (matchRom :: romBytes s.addr)) 0 8 s)

/-- `OW_SELECT_ALL` (R159): exactly `OW_WRITE 0xCC`. -/
def execOwSelectAll (s : State) : Result :=
  withPin s (sendBits (byteBits skipRom) 0 1 s)

end Sys2Proof.Machine
end

