-- ==== Sys2Proof/Machine/OneWireSearch.lean ====
section
/-! DEFINITION. The ROM search of the OWM unit (42_onewire_search.md): positions 1 to 64, two reads
and one write at each, and a commit on success only. -/

namespace Sys2Proof.Machine

/-- The SEARCH-ROM and ALARM SEARCH command bytes (R98). -/
def searchRom (alert : Bool) : Byte := if alert then 0xEC else 0xF0

/-- The working copies of a search: `rom`, `last_zero`, `lfd` (R173). -/
structure SearchPath where
  rom : RomCode
  lastZero : Nat
  lfd : BitVec 7
deriving DecidableEq, Repr

/-- The direction at position `n` given the bit and its complement as read, from the search state at
entry (R173 step 3). -/
def searchDirection (entry : Search) (n : Nat) (id cmp : Bool) : Bool :=
  if id ≠ cmp then id
  else if n < entry.ld.toNat then romBit entry.srom n
  else decide (n = entry.ld.toNat)

/-- The working copies after position `n` (R173 step 3): a 0 taken at a discrepancy is recorded. -/
def SearchPath.record (n : Nat) (id cmp dir : Bool) (p : SearchPath) : SearchPath :=
  let rom := setRomBit p.rom n dir
  if id = cmp ∧ dir = false then
    { rom := rom, lastZero := n, lfd := if n < 9 then BitVec.ofNat 7 n else p.lfd }
  else { p with rom := rom }

/-- How the 64 positions end. -/
inductive SearchRun where
  | found (p : SearchPath) (l : OneWire)
  | failed (e : ErrCode) (l : OneWire)
deriving DecidableEq, Repr

/-- The `count` positions from `n` on (R173 step 3). -/
def OneWire.searchBits (tm : Timing) (entry : Search) :
    Nat → Nat → SearchPath → OneWire → SearchRun
  | 0, _, p, l => .found p l
  | count + 1, n, p, l =>
    match l.readSlot tm with
    | .busBusy l₁ => .failed .busBusy l₁
    | .ran id l₁ =>
      match l₁.readSlot tm with
      | .busBusy l₂ => .failed .busBusy l₂
      | .ran cmp l₂ =>
        if id ∧ cmp then .failed .searchNodev l₂
        else
          let dir := searchDirection entry n id cmp
          match l₂.writeSlot tm dir with
          | .busBusy l₃ => .failed .busBusy l₃
          | .ran _ l₃ =>
            OneWire.searchBits tm entry count (n + 1) (p.record n id cmp dir) l₃

/-- The whole transaction of one search step (R173 steps 1 to 3): reset, command byte, 64 positions. -/
def OneWire.searchRun (tm : Timing) (entry : Search) (alert : Bool) (l : OneWire) : SearchRun :=
  match l.resetBody tm with
  | (.none, l₁) =>
    match l₁.writeBits tm (byteBits (searchRom alert)) 0 with
    | .stopped _ l₂ => .failed .busBusy l₂
    | .ran l₂ =>
      l₂.searchBits tm entry 64 1 { rom := entry.srom, lastZero := 0, lfd := entry.lfd }
  | (e, l₁) => .failed e l₁

/-- The search state a successful search commits (R173 step 4). -/
def SearchPath.commit (p : SearchPath) : Search :=
  { srom := p.rom, ld := BitVec.ofNat 7 p.lastZero, lfd := p.lfd, ldf := decide (p.lastZero = 0) }

/-- `OW_SEARCH_BEGIN` (R171). -/
def execOwSearchBegin (s : State) : Result :=
  .next (done 0 { s with search := { srom := 0, ld := 0, lfd := 0, ldf := false } })

/-- `OW_SEARCH_BEGIN_FAM family` (R172). -/
def execOwSearchBeginFam (family : Byte) (s : State) : Result :=
  .next (done 0
    { s with search := { srom := family.setWidth 64, ld := 64, lfd := 0, ldf := false } })

/-- `OW_SEARCH alert_only` (R173): on every failure the search state and `ADDR` are unchanged. -/
def execOwSearch (alertOnly : Byte) (s : State) : Result :=
  withBitOperand alertOnly s fun alert =>
    withPin s <|
      if s.search.ldf then .next (fail .searchDone 0 s)
      else
        match s.line.searchRun s.cfg.timing s.search alert with
        | .failed e l => .next (fail e 0 { s with line := l.finish })
        | .found p l =>
          .next (done 1 { s with search := p.commit, addr := p.rom, line := l.finish })

end Sys2Proof.Machine
end

