-- ==== Sys2Proof/Machine/Dispatch.lean ====
section
/-! DEFINITION. Every command of R92 to its meaning, one arm per constructor. -/

namespace Sys2Proof.Machine

def exec (i : Instr) (s : State) : Host.Outcome State Fault Refusal :=
  match i with
  | .owBegin pin => Sys2Proof.Machine.execOwBegin pin s
  | .owReset => Sys2Proof.Machine.execOwReset s
  | .owWriteBit v => Sys2Proof.Machine.execOwWriteBit v s
  | .owReadBit => Sys2Proof.Machine.execOwReadBit s
  | .owWrite b => Sys2Proof.Machine.execOwWrite b s
  | .owWriteBytes n => Sys2Proof.Machine.execOwWriteBytes n s
  | .owRead => Sys2Proof.Machine.execOwRead s
  | .owReadBytes n => Sys2Proof.Machine.execOwReadBytes n s
  | .owSelect => Sys2Proof.Machine.execOwSelect s
  | .owSelectAll => Sys2Proof.Machine.execOwSelectAll s
  | .owSearchBegin => Sys2Proof.Machine.execOwSearchBegin s
  | .owSearchBeginFam family => Sys2Proof.Machine.execOwSearchBeginFam family s
  | .owSearch alertOnly => Sys2Proof.Machine.execOwSearch alertOnly s
  | .crc8 n => Sys2Proof.Machine.execCrc8 n s
  | .crc16 n => Sys2Proof.Machine.execCrc16 n s
  | .checkCrc16 n => Sys2Proof.Machine.execCheckCrc16 n s
  | .fsBegin => Sys2Proof.Machine.execFsBegin s
  | .fsWriteFile id => Sys2Proof.Machine.execFsWriteFile id s
  | .fsUpdateFile id => Sys2Proof.Machine.execFsUpdateFile id s
  | .fsEraseFile id => Sys2Proof.Machine.execFsEraseFile id s
  | .fsReadFile id => Sys2Proof.Machine.execFsReadFile id s
  | .fsCrcerr => Sys2Proof.Machine.execFsCrcerr s
  | .fsListFirst id => Sys2Proof.Machine.execFsListFirst id s
  | .fsListNext => Sys2Proof.Machine.execFsListNext s

end Sys2Proof.Machine
end

