-- ==== Sys2Proof/Machine/Flags.lean ====
section
/-! DEFINITION. The status register and the other packed registers a host reads: the error codes'
numbers (R96), `STATUS` (R23), `CTRL` (R25), `SRCH` (R27), `FS_PTR` and `OW_CFG` (R28). -/

namespace Sys2Proof.Machine

/-- The 4-bit number of an error code (R96). -/
def ErrCode.code : ErrCode → BitVec 4
  | .none => 0
  | .busBusy => 1
  | .noPresence => 2
  | .searchDone => 3
  | .searchNodev => 4
  | .notFound => 5
  | .range => 6
  | .full => 7
  | .crc => 8
  | .illegal => 9
  | .notReady => 10
  | .listEnd => 11

/-- The number of a register (R22 to R28). How numbers map to bus addresses is the open parameter
`REGMAP` (R8, U13), on which nothing depends. -/
def HostReg.number : HostReg → Nat
  | .cmd => 0
  | .status => 1
  | .res => 2
  | .ctrl => 3
  | .timeLo => 4
  | .timeHi => 5
  | .srch => 6
  | .fsCrcerr => 7
  | .fsPtr => 8
  | .owCfg => 9

/-- A one-bit field at bit `k` of a register. -/
def flagBit (b : Bool) (k : Nat) : Word := (BitVec.ofBool b).setWidth 32 <<< k

/-- `STATUS` assembled from its fields (R23); bits 3:2 and 31:11 read 0. -/
def packStatus (busy ok : Bool) (err : BitVec 4) (bound ready listing : Bool) : Word :=
  flagBit busy 0 ||| flagBit ok 1 ||| (err.setWidth 32 <<< 4) ||| flagBit bound 8 |||
    flagBit ready 9 ||| flagBit listing 10

/-- `STATUS` while no command executes (R23). -/
def statusWord (s : State) : Word :=
  packStatus s.busy s.ok s.err.code s.line.bound s.fsc.ready s.fsc.listActive

/-- `STATUS` while a command executes: `OK` and `ERR` are unspecified, the rest reads correctly
(R290, U1, log 8). -/
def busyStatusWord (s : State) (free : Word) : Word :=
  packStatus s.busy (free.getLsbD 1) (free.extractLsb' 4 4) s.line.bound s.fsc.ready
    s.fsc.listActive

/-- `CTRL`: bit 0 is `PPWR`, the other bits read 0 (R25). -/
def ctrlWord (s : State) : Word := flagBit s.line.ppwr 0

/-- `SRCH`: `LD` in bits 6:0, `LFD` in bits 14:8, `LDF` in bit 16, the other bits 0 (R27). -/
def srchWord (q : Search) : Word :=
  q.ld.setWidth 32 ||| (q.lfd.setWidth 32 <<< 8) ||| flagBit q.ldf 16

/-- `FS_PTR`: `WP` in bits 15:0, `FREE` in bits 31:16 (R28). -/
def fsPtrWord (f : Fsc) : Word := BitVec.ofNat 16 f.free ++ BitVec.ofNat 16 f.wp

/-- `OW_CFG`: `OW_PIN` in bits 7:0, the other bits 0 (R28). -/
def owCfgWord (l : OneWire) : Word := l.pin.setWidth 32

end Sys2Proof.Machine
end

