-- ==== Sys2Proof/Machine/HostPort.lean ====
section
/-! DEFINITION. What the outside world does to the block (R46): the host's register and array accesses
(R22 to R28, R91, R290), the passage of time (R29), power loss (R72), and the events of the slaves
and of the flash device. -/

namespace Sys2Proof.Machine

/-! ### Issuing a command (R91) -/

/-- The block once it has accepted the word `w`: `CMD <- w`, `STATUS.BUSY <- 1` (R91). -/
def accept (w : Word) (s : State) : State := { s with cmd := w, busy := true }

/-- A write of `w` to `CMD`: ignored while a command executes (R22), else decoded and executed to its
end as one step (R91); an illegal word executes as `fail(ILLEGAL)` (R93). -/
def issue (w : Word) (s : State) : Result :=
  if s.busy then .next s
  else
    match decode w with
    | .ok i => exec i (accept w s)
    | .error _ => .next (fail .illegal 0 (accept w s))

/-! ### Register and array accesses (R22 to R28) -/

/-- A write of `CTRL` (R25): a change of `PPWR` on a bound pin takes the new idle state at once
(R123 c). -/
def writeCtrl (v : Word) (l : OneWire) : OneWire :=
  let l₁ := { l with ppwr := v.getLsbD 0 }
  if l.ppwr ≠ v.getLsbD 0 ∧ l.bound then l₁.finish else l₁

/-- A write of `SRCH` (R27): ignored as a whole when `LD` or `LFD` would exceed 64. -/
def writeSrch (v : Word) (q : Search) : Search :=
  if (v.extractLsb' 0 7).toNat ≤ 64 ∧ (v.extractLsb' 8 7).toNat ≤ 64 then
    { q with ld := v.extractLsb' 0 7, lfd := v.extractLsb' 8 7, ldf := v.getLsbD 16 }
  else q

/-- A host write of a register. While a command executes it is ignored (R290); the read-only registers
ignore it always (R23, R24, R26, R28; log 12). -/
def writeReg (r : HostReg) (v : Word) (s : State) : Result :=
  match r with
  | .cmd => issue v s
  | .ctrl => .next (if s.busy then s else { s with line := writeCtrl v s.line })
  | .srch => .next (if s.busy then s else { s with search := writeSrch v s.search })
  | .status => .next s
  | .res => .next s
  | .timeLo => .next s
  | .timeHi => .next s
  | .fsCrcerr => .next s
  | .fsPtr => .next s
  | .owCfg => .next s

/-- Hand a value to the host. -/
def answer (v : Word) (s : State) : State := { s with hostData := v }

/-- Hand the host `v`, or a free value while a command executes (R290, U1, log 8). -/
def answerUnlessBusy (v : Word) (s : State) : State :=
  if s.busy then { answer (Config.busyRead s.freeCount) s with freeCount := s.freeCount + 1 }
  else answer v s

/-- A host read of a register (R22 to R28). Reading `TIME_LO` latches `TIME_HI`; no other read has a
side effect (R26, R77). -/
def readReg (r : HostReg) (s : State) : State :=
  match r with
  | .cmd => answer s.cmd s
  | .status =>
    if s.busy then
      { answer (busyStatusWord s (Config.busyRead s.freeCount)) s with
        freeCount := s.freeCount + 1 }
    else answer (statusWord s) s
  | .res => answerUnlessBusy s.res s
  | .ctrl => answer (ctrlWord s) s
  | .timeLo =>
    { answer (BitVec.ofNat 32 s.line.time) s with
      timeHiLatch := BitVec.ofNat 32 (s.line.time / 2 ^ 32), timeHiLatched := true }
  | .timeHi =>
    answer (if s.timeHiLatched then s.timeHiLatch else BitVec.ofNat 32 (s.line.time / 2 ^ 32)) s
  | .srch => answerUnlessBusy (srchWord s.search) s
  | .fsCrcerr => answerUnlessBusy s.fsc.crcerr s
  | .fsPtr => answerUnlessBusy (fsPtrWord s.fsc) s
  | .owCfg => answer (owCfgWord s.line) s

/-- Byte `i` of an array; outside the array it reads 0 (R28). -/
def arrayByte (a : HostArray) (i : Nat) (s : State) : Byte :=
  match a with
  | .addr => bufRead (romBytes s.addr) i
  | .srom => bufRead (romBytes s.search.srom) i
  | .owbuf => bufRead s.owbuf i
  | .dbuf => bufRead s.dbuf i

/-- A host read of one byte of an array (R28); while a command executes its low byte is free (R290). -/
def readArray (a : HostArray) (i : Nat) (s : State) : State :=
  if s.busy then
    { answer ((Config.busyRead s.freeCount).extractLsb' 0 8 |>.setWidth 32) s with
      freeCount := s.freeCount + 1 }
  else answer ((arrayByte a i s).setWidth 32) s

/-- A host write of one byte of an array (R28): ignored outside the array and while a command
executes (R290). -/
def writeArray (a : HostArray) (i : Nat) (v : Byte) (s : State) : State :=
  if s.busy then s
  else
    match a with
    | .addr => { s with addr := setRomByte s.addr i v }
    | .srom => { s with search := { s.search with srom := setRomByte s.search.srom i v } }
    | .owbuf => { s with owbuf := bufWrite s.owbuf i v }
    | .dbuf => { s with dbuf := bufWrite s.dbuf i v }

/-! ### Time and power -/

/-- The host lets `n` microseconds pass (R29). -/
def passTime (n : Nat) (s : State) : State := { s with line := { s.line with time := s.line.time + n } }

/-- The flash events of a command as power loss leaves them (R72): the first `cut.calls` completed,
and, when `cut.mid`, the next one interrupted. -/
def cutEvents (cut : PowerCut) (events : List FlashEvent) : List FlashEvent :=
  events.take cut.calls ++
    (if cut.mid then
      match events.drop cut.calls with
      | .program a bytes :: _ => [.programCut a bytes]
      | .erase p :: _ => [.eraseCut p]
      | _ => []
    else [])

/-- The command `w` is issued and power is lost during it (R72, R273): the flash holds the effect of
the cut sequence of events, everything volatile is reset. -/
def issueCut (w : Word) (cut : PowerCut) (s : State) : Result :=
  match issue w s with
  | .next t =>
    let events := cutEvents cut (t.fsc.log.drop s.fsc.log.length)
    .next (powerCycle (replayFlash s.cfg s.fsc.log.length events s.fsc.flash) (s.fsc.log ++ events)
      { s with freeCount := t.freeCount, fsc := { s.fsc with decay := t.fsc.decay } })
  | .fault r => .fault r
  | .refused r => .refused r

/-- What one input does to the block. -/
def handle (e : Input) (s : State) : Result :=
  match e with
  | .write r v => writeReg r v s
  | .read r => .next (readReg r s)
  | .writeByte a i v => .next (writeArray a i v s)
  | .readByte a i => .next (readArray a i s)
  | .idle n => .next (passTime n s)
  | .powerLoss => .next (powerCycle s.fsc.flash s.fsc.log s)
  | .powerLossDuring w cut => issueCut w cut s
  | .slaves script => .next { s with line := { s.line with slaves := script } }
  | .upset a v => .next { s with fsc := s.fsc.device s.cfg (.upset a v) }
  | .upsetOnRetry a v => .next { s with fsc := { s.fsc with decay := s.fsc.decay ++ [(a, v)] } }

end Sys2Proof.Machine
end

