-- ==== Sys2Proof/Machine/Step.lean ====
section
/-! DEFINITION. One step of the machine: the next thing the outside world does, with a command run to
its end (R91); when nothing is left, one idle microsecond (R29, log 2). -/

namespace Sys2Proof.Machine

/-- One step (R91: "From the host's side a command is one step"). -/
def step (s : State) : Host.Outcome State Fault Refusal :=
  match s.inputs with
  | [] => .next (passTime 1 s)
  | e :: rest => handle e { s with inputs := rest }

/-- `s` with the command word `w` as the next host write to `CMD`, and no command executing, so that
the next step issues it (R22, R91). -/
def State.withFetchWord (s : State) (nbits w : Nat) : State :=
  { s with busy := false, inputs := .write .cmd (BitVec.ofNat 32 (w % 2 ^ nbits)) :: s.inputs }

end Sys2Proof.Machine
end

