-- ==== Sys2Proof/Safety.lean ====
section
/-! DEFINITION. The terms in which the claims about the machine are written: what a safe step is, the
invariants a run keeps (R25 to R43, R123, R241), and the observable traces of the 1-Wire slots and
of an append, each computed from the rules and not from the machine's own loops. -/

namespace Sys2Proof

open Sys2Proof.Machine

/-! ### Families of commands -/

/-- What a command works on (R92). -/
inductive CommandKind where
  /-- binds the pin (R127) -/
  | bind
  /-- puts slots on the line: the ten OWM line commands (R126) -/
  | line
  /-- creates a search state (R171, R172) -/
  | searchState
  /-- the CRC unit (R195) -/
  | crc
  /-- the FSC unit -/
  | store
deriving DecidableEq, Repr

/-- The kind of each command (R92). -/
def Instr.kind : Instr → CommandKind
  | .owBegin _ => .bind
  | .owReset => .line
  | .owWriteBit _ => .line
  | .owReadBit => .line
  | .owWrite _ => .line
  | .owWriteBytes _ => .line
  | .owRead => .line
  | .owReadBytes _ => .line
  | .owSelect => .line
  | .owSelectAll => .line
  | .owSearchBegin => .searchState
  | .owSearchBeginFam _ => .searchState
  | .owSearch _ => .line
  | .crc8 _ => .crc
  | .crc16 _ => .crc
  | .checkCrc16 _ => .crc
  | .fsBegin => .store
  | .fsWriteFile _ => .store
  | .fsUpdateFile _ => .store
  | .fsEraseFile _ => .store
  | .fsReadFile _ => .store
  | .fsCrcerr => .store
  | .fsListFirst _ => .store
  | .fsListNext => .store

/-- The commands whose failure puts a count in `RES`: `OW_WRITE`, `OW_WRITE_BYTES`, `OW_READ_BYTES`,
`OW_SELECT`, `OW_SELECT_ALL` (R262). -/
def Instr.countsOnFailure (i : Instr) : Bool :=
  decide (i.opcode ∈ [0x05, 0x06, 0x08, 0x09, 0x0A])

/-- The error codes a legal command can end with (R262). -/
def Instr.failureCodes : Instr → List ErrCode
  | .owBegin _ => []
  | .owReset => [.notReady, .busBusy, .noPresence]
  | .owWriteBit _ => [.notReady, .busBusy]
  | .owReadBit => [.notReady, .busBusy]
  | .owWrite _ => [.notReady, .busBusy]
  | .owWriteBytes _ => [.notReady, .range, .busBusy]
  | .owRead => [.notReady, .busBusy]
  | .owReadBytes _ => [.notReady, .range, .busBusy]
  | .owSelect => [.notReady, .busBusy]
  | .owSelectAll => [.notReady, .busBusy]
  | .owSearchBegin => []
  | .owSearchBeginFam _ => []
  | .owSearch _ => [.notReady, .searchDone, .busBusy, .noPresence, .searchNodev]
  | .crc8 _ => [.range]
  | .crc16 _ => [.range]
  | .checkCrc16 _ => [.range]
  | .fsBegin => []
  | .fsWriteFile _ => [.notReady, .range, .full]
  | .fsUpdateFile _ => [.notReady, .range, .full]
  | .fsEraseFile _ => [.notReady, .range, .full]
  | .fsReadFile _ => [.notReady, .range, .notFound, .crc]
  | .fsCrcerr => [.notReady]
  | .fsListFirst _ => [.notReady, .range, .listEnd]
  | .fsListNext => [.notReady, .listEnd]

/-! ### The waveform of runs of slots -/

/-- Low-hold of a write slot (R129). -/
def Timing.writeLow (tm : Timing) (v : Bool) : Nat := if v then tm.tW1l else tm.tW0l

/-- Idle time of a write slot after its low-hold (R129). -/
def Timing.writeHigh (tm : Timing) (v : Bool) : Nat := if v then tm.tW1h else tm.tW0h

/-- Length of a write slot on a free line (R131). -/
def Timing.writeSpan (tm : Timing) (v : Bool) : Nat := tm.tLead + tm.writeLow v + tm.writeHigh v

/-- Length of a read slot on a free line (R131). -/
def Timing.readSpan (tm : Timing) : Nat := tm.tLead + tm.tRdslot

/-- The two pin events of one slot: the falling edge and the release (R129, R130). -/
def slotEvents (pin : Byte) (fall hold : Nat) : List PinEvent :=
  [{ time := fall, pin := pin, level := .low }, { time := fall + hold, pin := pin, level := .rel }]

/-- When a run of write slots from `t` on a free line ends (R150). -/
def Timing.writeEnd (tm : Timing) : Nat → List Bool → Nat
  | t, [] => t
  | t, b :: bs => Timing.writeEnd tm (t + tm.writeSpan b) bs

/-- When the slots of such a run start (R150). -/
def Timing.writeStarts (tm : Timing) : Nat → List Bool → List Nat
  | _, [] => []
  | t, b :: bs => t :: Timing.writeStarts tm (t + tm.writeSpan b) bs

/-- The pin events of such a run (R129, R150). -/
def Timing.writeEvents (tm : Timing) (pin : Byte) : Nat → List Bool → List PinEvent
  | _, [] => []
  | t, b :: bs =>
    slotEvents pin (t + tm.tLead) (tm.writeLow b) ++
      Timing.writeEvents tm pin (t + tm.writeSpan b) bs

/-- The pin events of `count` read slots from `t` on a free line (R130, R150). -/
def Timing.readEvents (tm : Timing) (pin : Byte) : Nat → Nat → List PinEvent
  | _, 0 => []
  | t, count + 1 =>
    slotEvents pin (t + tm.tLead) tm.tRdl ++ Timing.readEvents tm pin (t + tm.readSpan) count

/-- The bit that read slot `k` of a run from `t` on a free line samples (R130). -/
def Timing.sampledBit (tm : Timing) (slaves : List (Nat × Nat)) (t k : Nat) : Bool :=
  !slaveLow slaves (t + k * tm.readSpan + tm.tLead + tm.tRdl + tm.tRds)

end Sys2Proof

namespace Sys2Proof.Machine

/-! ### Safe steps and invariants -/

/-- The step goes on: no fault, no refusal. -/
def Safe (s : State) : Prop := ∃ t, step s = .next t

/-- Every element of the state is in the range the rules give it, the buffers have their configured
sizes, the flash is in canonical form inside `0 .. ES-1`, and the pin rests in its idle state. It
holds before and after every command, and also between the acceptance of a command and its end. -/
structure State.WellShaped (s : State) : Prop where
  /-- R6's constraints -/
  cfgValid : s.cfg.Valid
  /-- `OWBUF` has `OWBUF_SIZE` bytes (R36) -/
  owbufSize : s.owbuf.length = s.cfg.owbufSize
  /-- `DBUF` has `SDS` bytes (R42) -/
  dbufSize : s.dbuf.length = s.cfg.sds
  /-- `LD` is 0 to 64 (R33) -/
  ldRange : s.search.ld.toNat ≤ 64
  /-- `LFD` is 0 to 64 (R33) -/
  lfdRange : s.search.lfd.toNat ≤ 64
  /-- the pin is released before `OW_BEGIN` (R282) and idle afterwards (R123) -/
  pinIdle : s.line.pinState = if s.line.bound then s.line.idle else .rel
  /-- `DIR` has `N` entries (R37) -/
  dirSize : s.fsc.dir.length = s.cfg.n
  /-- each entry is absent or a sector index (R37) -/
  dirRange : ∀ e ∈ s.fsc.dir, e.all (fun i => decide (i < s.cfg.total)) = true
  /-- `WP` is a sector index (R39) -/
  wpRange : s.fsc.wp < s.cfg.total
  /-- `FREE` is a page index (R40) -/
  freeRange : s.fsc.free < s.cfg.pages
  /-- `LIST_POS` is `0..T` (R43) -/
  listPosRange : s.fsc.listPos ≤ s.cfg.total
  /-- `LIST_BASE` is a sector index (R43) -/
  listBaseRange : s.fsc.listBase < s.cfg.total
  /-- the flash is in canonical form -/
  flashForm : Memory.wf s.fsc.flash = true
  /-- the flash lists no address outside `0 .. ES-1` (R60) -/
  flashRange : Memory.below s.fsc.flash s.cfg.es = true

/-- The invariant of every run: well-shaped, and no command half-way (commands are single steps, R91). -/
structure State.Inv (s : State) : Prop where
  wellShaped : s.WellShaped
  notBusy : s.busy = false

/-- Every byte of page `p` is erased. -/
abbrev pageErased (c : Config) (m : Memory) (p : Nat) : Prop :=
  ∀ k < c.ps, Memory.read m (p * c.ps + k) = erasedByte

/-- Every byte of sector `i` is erased. -/
abbrev sectorErased (c : Config) (m : Memory) (i : Nat) : Prop :=
  ∀ k < c.ss, Memory.read m (c.secAddr i + k) = erasedByte

/-- A directory entry of file `id` points, outside page `free`, at a valid live sector of the file. -/
def entryLive (c : Config) (m : Memory) (free id : Nat) (e : Option Nat) : Bool :=
  e.all fun i =>
    decide (i < c.total) && decide (c.pageOf i ≠ free) && sectorValid (sectorAt c m i) &&
      decide (sectorFile (sectorAt c m i) = id) && !sectorTomb (sectorAt c m i)

/-- The store's invariant (R241): (a) page `FREE` is erased; (b) every entry points outside it at a
valid live sector of its own file (so, (c), distinct files have distinct entries); (d) the write
pointer is at a page boundary, or it and every later sector of its page are erased and its page is
not `FREE`. -/
structure State.StoreInv (s : State) : Prop where
  ready : s.fsc.ready = true
  freeErased : pageErased s.cfg s.fsc.flash s.fsc.free
  entriesLive : ∀ id < s.cfg.n,
    entryLive s.cfg s.fsc.flash s.fsc.free id (s.fsc.dir.getD id none) = true
  headroom : s.fsc.wp % s.cfg.spp = 0 ∨
    (s.cfg.pageOf s.fsc.wp ≠ s.fsc.free ∧
      ∀ i < s.cfg.total, s.fsc.wp ≤ i → s.cfg.pageOf i = s.cfg.pageOf s.fsc.wp →
        sectorErased s.cfg s.fsc.flash i)

/-- R47's table: every volatile element at its reset value. -/
structure State.VolatileAtReset (s : State) : Prop where
  command : s.cmd = 0 ∧ s.busy = false ∧ s.ok = false ∧ s.err.code = 0 ∧ s.res = 0
  line : s.line.ppwr = false ∧ s.line.time = 0 ∧ s.line.bound = false ∧ s.line.pin = 0 ∧
    s.line.pinState = .rel
  search : s.addr = 0 ∧ s.search.srom = 0 ∧ s.search.ld = 0 ∧ s.search.lfd = 0 ∧
    s.search.ldf = false
  buffers : s.owbuf = List.replicate s.cfg.owbufSize 0 ∧ s.dbuf = List.replicate s.cfg.sds 0
  store : s.fsc.ready = false ∧ s.fsc.dir.map dirWord = List.replicate s.cfg.n 0xFFFF ∧
    s.fsc.wp = 0 ∧ s.fsc.free = 0 ∧ s.fsc.crcerr = 0
  listing : s.fsc.listActive = false ∧ s.fsc.listId = 0 ∧ s.fsc.listPos = 0 ∧ s.fsc.listBase = 0

/-- The host loses power on this input, so that `TIME` starts again from 0 (R280). -/
def Input.losesPower : Input → Bool
  | .powerLoss | .powerLossDuring _ _ => true
  | _ => false

/-! ### The waveform of the OWM commands -/

/-- A bound pin in its idle state: the line as every command finds it (R123, R126). -/
structure OneWire.Ready (l : OneWire) : Prop where
  bound : l.bound = true
  idle : l.pinState = l.idle

/-- The bus is first seen released at `tr`, within `T_BUSY` of the start (R124). -/
structure OneWire.ReleasedAt (tm : Timing) (l : OneWire) (tr : Nat) : Prop where
  notBefore : l.time ≤ tr
  inTime : tr ≤ l.time + tm.tBusy
  high : slaveLow l.slaves tr = false
  lowBefore : ∀ x, l.time ≤ x → x < tr → slaveLow l.slaves x = true

/-- The state with another line, and nothing else changed. -/
def State.withLine (s : State) (l : OneWire) : State := { s with line := l }

/-- The line after a command that ended at `te` having made `events`: with `PPWR` the pin was released
at its start and driven high again at its end (R123). -/
def OneWire.after (te : Nat) (events : List PinEvent) (l : OneWire) : OneWire :=
  { l with
    time := te
    trace := l.trace ++ (if l.ppwr then [PinEvent.mk l.time l.pin .rel] else []) ++ events ++
      (if l.ppwr then [PinEvent.mk te l.pin .high] else []) }

/-! ### Append as seen from outside -/

/-- The sector an append programs: the write pointer, or at a page boundary the first sector of the
free page (R231, R232). -/
def appendTarget (c : Config) (f : Fsc) : Nat :=
  if f.wp % c.spp ≠ 0 then f.wp else f.free * c.spp

/-- The sectors of page `v` that are live sectors of files other than `id`, ascending (R233, R235). -/
def liveSectors (c : Config) (dir : List (Option Nat)) (id v : Nat) : List Nat :=
  ((List.range c.spp).map fun k => v * c.spp + k).filter fun i =>
    (List.range c.n).any fun j => decide (j ≠ id) && decide (dir.getD j none = some i)

/-- Those of them that `CopyForward` copies: the valid ones (R235). -/
def copiedSectors (c : Config) (f : Fsc) (id v : Nat) : List Nat :=
  (liveSectors c f.dir id v).filter fun i => sectorValid (sectorAt c f.flash i)

/-- How many of them `CopyForward` drops: the invalid ones (R235). -/
def droppedCount (c : Config) (f : Fsc) (id v : Nat) : Nat :=
  (liveSectors c f.dir id v).countP fun i => !sectorValid (sectorAt c f.flash i)

/-- What an append of a sector of file `id` makes of the FSC unit (R231, R232, R235, R237): the new
sector is programmed first, the directory follows it, a listing ends. On the direct path nothing
else changes. On the defragmentation path the victim page becomes the free page and is erased; of
the flash only the old free page and the victim change; a valid live sector of another file in the
victim is copied behind the new sector and its entry follows it, an invalid one becomes absent and
adds one, saturating, to `CRCERR`; entries outside the victim stay (a sector is the live sector of at
most one file, R235, R241 c). -/
structure Appended (c : Config) (id : Nat) (tomb : Bool) (payload : List Byte) (f g : Fsc) :
    Prop where
  entry : g.dir.getD id none = if tomb then none else some (appendTarget c f)
  programmedFirst : ∃ rest, g.log = f.log ++
    .program (c.secAddr (appendTarget c f)) (makeSector id tomb payload) :: rest
  listingEnds : g.listActive = false
  ready : g.ready = f.ready
  cursor : g.listId = f.listId ∧ g.listPos = f.listPos ∧ g.listBase = f.listBase
  decay : g.decay = f.decay
  absentStay : ∀ j < c.n, j ≠ id → f.dir.getD j none = none → g.dir.getD j none = none
  direct : f.wp % c.spp ≠ 0 →
    g.wp = (f.wp + 1) % c.total ∧ g.free = f.free ∧ g.crcerr = f.crcerr ∧
    g.dir = f.dir.set id (if tomb then none else some f.wp) ∧
    g.log = f.log ++ [.program (c.secAddr f.wp) (makeSector id tomb payload)] ∧
    ∀ a, (a < c.secAddr f.wp ∨ c.secAddr f.wp + c.ss ≤ a) →
      Memory.read g.flash a = Memory.read f.flash a
  defrag : f.wp % c.spp = 0 →
    selectVictim c f.dir f.free id = some g.free ∧ pageErased c g.flash g.free ∧
    (∀ a, (a < f.free * c.ps ∨ f.free * c.ps + c.ps ≤ a) →
      (a < g.free * c.ps ∨ g.free * c.ps + c.ps ≤ a) →
      Memory.read g.flash a = Memory.read f.flash a) ∧
    g.wp = (f.free * c.spp + 1 + (copiedSectors c f id g.free).length) % c.total ∧
    g.crcerr.toNat = min (f.crcerr.toNat + droppedCount c f id g.free) 0xFFFFFFFF ∧
    ∀ j < c.n, j ≠ id → ∀ i, f.dir.getD j none = some i →
      (∀ j' < c.n, j' ≠ id → f.dir.getD j' none = some i → j' = j) →
      g.dir.getD j none =
        if c.pageOf i ≠ g.free then some i
        else if sectorValid (sectorAt c f.flash i) then
          some (f.free * c.spp + 1 + (copiedSectors c f id g.free).countP fun x => decide (x < i))
        else none

/-! ### The scan as seen from its result -/

/-- How many free sectors a linear scan has met before sector `i` (R203). -/
def areaOf (c : Config) (m : Memory) (i : Nat) : Nat :=
  (List.range i).countP fun k => sectorFree (sectorAt c m k)

/-- Sector `i` is the most recent valid sector of file `id` (R204): the last one in the smallest area
that has one, a tombstone or not. -/
structure IsNewest (c : Config) (m : Memory) (id i : Nat) : Prop where
  inRange : i < c.total
  valid : sectorValid (sectorAt c m i) = true
  file : sectorFile (sectorAt c m i) = id
  newest : ∀ j < c.total, sectorValid (sectorAt c m j) = true → sectorFile (sectorAt c m j) = id →
    areaOf c m i < areaOf c m j ∨ (areaOf c m i = areaOf c m j ∧ j ≤ i)

/-- The directory a scan of `m` gives (R203, R204): of a file with valid sectors the most recent one, or
absent when that is a tombstone; absent for a file with none. -/
structure DirectoryOf (c : Config) (m : Memory) (dir : List (Option Nat)) : Prop where
  size : dir.length = c.n
  recorded : ∀ id < c.n, ∀ i, IsNewest c m id i →
    dir.getD id none = if sectorTomb (sectorAt c m i) then none else some i
  missing : ∀ id < c.n,
    (∀ i < c.total, sectorValid (sectorAt c m i) = true → sectorFile (sectorAt c m i) ≠ id) →
    dir.getD id none = none

/-- Page `p` holds the live sector of some file (R205's `marked`). -/
def PageMarked (c : Config) (m : Memory) (p : Nat) : Prop :=
  ∃ id < c.n, ∃ i, IsNewest c m id i ∧ sectorTomb (sectorAt c m i) = false ∧ c.pageOf i = p

/-- Where R202 and R205 put the write pointer and the free page on flash `m`. -/
structure Located (c : Config) (m : Memory) (wp free : Nat) : Prop where
  /-- with a free sector, `WP` is the first one -/
  head : ∀ h < c.total, sectorFree (sectorAt c m h) = true →
    (∀ k < h, sectorFree (sectorAt c m k) = false) → wp = h
  /-- `FREE` is the first page whose first sector is free -/
  hint : ∀ p < c.pages, sectorFree (sectorAt c m (p * c.spp)) = true →
    (∀ q < p, sectorFree (sectorAt c m (q * c.spp)) = false) → free = p
  /-- with a free sector but no such page, `FREE` is the page after the head's -/
  afterHead : (∃ h < c.total, sectorFree (sectorAt c m h) = true) →
    (∀ p < c.pages, sectorFree (sectorAt c m (p * c.spp)) = false) →
    free = (c.pageOf wp + 1) % c.pages
  /-- with no free sector at all, the lowest page without a live sector, else the last page -/
  sacrifice : (∀ k < c.total, sectorFree (sectorAt c m k) = false) →
    wp = free * c.spp ∧
    ((¬ PageMarked c m free ∧ ∀ p < free, PageMarked c m p) ∨
      (free = c.pages - 1 ∧ ∀ p < c.pages, PageMarked c m p))

/-! ### The order of a listing -/

/-- The `k`-th sector a listing visits (R216, R217). -/
def listSector (c : Config) (f : Fsc) (k : Nat) : Nat := (((f.free + 1) % c.pages) * c.spp + k) % c.total

/-! ### The CRCs as serial registers -/

/-- A CRC register of reflected polynomial `poly`, started at 0 and fed one bit at a time: the bit
shifted out, compared with the bit that arrives, decides whether the polynomial is added (R190,
R192). -/
def serialCrc (poly : Nat) (bits : List Bool) : Nat :=
  bits.foldl (fun r b => if decide (r % 2 = 1) ≠ b then (r / 2) ^^^ poly else r / 2) 0

/-! ### The answers of a search -/

/-- The direction taken at position `n` (R173), with the bit and its complement as answered. -/
def directionTaken (entry : Search) (id cmp : Nat → Bool) (n : Nat) : Bool :=
  if id n ≠ cmp n then id n
  else if n < entry.ld.toNat then romBit entry.srom n
  else decide (n = entry.ld.toNat)

/-- Position `n` is a discrepancy at which 0 was taken (R173). -/
def zeroTaken (entry : Search) (id cmp : Nat → Bool) (n : Nat) : Bool :=
  decide (id n = cmp n) && !directionTaken entry id cmp n

end Sys2Proof.Machine
end

