-- ==== Sys2Proof/Certificates/Slice0/Obligations.lean ====
section
/-! DEFINITION. The statements for the provers. Each docstring names the rules of spec/ that the
statement formalises, or says that it rests on the model's own choice. -/

open Sys2Proof Sys2Proof.Machine

/-! ### Encoding (30_encoding.md) -/

/-- R90, R92, R93, R102: decoding the word of a legal command gives the command back, with every
operand at every legal value. -/
def Obligations.DecodeEncodeLegalCommand : Prop :=
  ∀ i : Instr, i.WellFormed → decode (encode i) = .ok i

/-- R90 to R93: a word that decodes is the word of exactly one legal command, the one it decodes to. -/
def Obligations.DecodedWordReencodes : Prop :=
  ∀ (w : Word) (i : Instr), decode w = .ok i →
    i.WellFormed ∧ encode i = w ∧ ∀ j : Instr, j.WellFormed → encode j = w → j = i

/-- R93: which words are illegal, and that issuing one changes only `CMD`, `STATUS` and `RES`. -/
def Obligations.IllegalWordsFailOnly : Prop :=
  ∀ w : Word,
    ((∃ e, decode w = .error e) ↔
      (w.extractLsb' 16 16 ≠ 0 ∨
        (w.extractLsb' 0 8).toNat ∉ [0x01, 0x02, 0x03, 0x04, 0x05, 0x06, 0x07, 0x08, 0x09, 0x0A, 0x10,
          0x11, 0x12, 0x20, 0x21, 0x22, 0x40, 0x41, 0x42, 0x43, 0x44, 0x45, 0x46, 0x47] ∨
        ((w.extractLsb' 0 8).toNat ∈ [0x02, 0x04, 0x07, 0x09, 0x0A, 0x10, 0x40, 0x45, 0x47] ∧
          w.extractLsb' 8 8 ≠ 0) ∨
        ((w.extractLsb' 0 8).toNat ∈ [0x03, 0x12] ∧ 1 < (w.extractLsb' 8 8).toNat))) ∧
    ∀ (s : State), s.busy = false → (∃ e, decode w = .error e) →
      issue w s = .next { s with cmd := w, busy := false, ok := false, err := .illegal, res := 0 }

/-- R92, R102 and 95_test_vectors.md section 4: words written out from the encoding. -/
def Obligations.SpecWordsDecode : Prop :=
  decode 0x00000701 = .ok (.owBegin 7) ∧ decode 0x00000002 = .ok .owReset ∧
  decode 0x00000103 = .ok (.owWriteBit 1) ∧ decode 0x0000FF05 = .ok (.owWrite 0xFF) ∧
  decode 0x00002106 = .ok (.owWriteBytes 33) ∧ decode 0x0000000A = .ok .owSelectAll ∧
  decode 0x00002811 = .ok (.owSearchBeginFam 0x28) ∧ decode 0x00000920 = .ok (.crc8 9) ∧
  decode 0x00001F22 = .ok (.checkCrc16 31) ∧ decode 0x00000F41 = .ok (.fsWriteFile 15) ∧
  decode 0x00000047 = .ok .fsListNext

/-! ### Steps and the command interface (10_state.md section 2, R91, R290) -/

/-- R91: a step whose next input is a write to `CMD` of the word of a command runs that command, with
`CMD` holding the word and `BUSY` set. -/
def Obligations.StepRunsDecodedCommand : Prop :=
  ∀ (s : State) (w : Word) (i : Instr) (rest : List Input),
    s.inputs = .write .cmd w :: rest → s.busy = false → decode w = .ok i →
    step s = exec i { s with inputs := rest, cmd := w, busy := true }

/-- R22, R25, R27, R28, R290: while a command executes every host write is ignored, of the read-only
registers too (the model's choice, log 12); `STATUS.BUSY`, `TIME_LO` and `TIME_HI` read correctly; and,
the model's choice (log 8, R23), so do the unit flags and zero bits of `STATUS`, whatever its other bits
are. A read of `STATUS` changes nothing but what the host was given and the count of free values. -/
def Obligations.BusyHostAccess : Prop :=
  ∀ (s : State), s.busy = true →
    (∀ r v, handle (.write r v) s = .next s) ∧ (∀ a i v, handle (.writeByte a i v) s = .next s) ∧
    (∃ v k, handle (.read .status) s = .next { s with hostData := v, freeCount := k } ∧
      v.getLsbD 0 = true ∧ v.extractLsb' 2 2 = 0 ∧ v.getLsbD 8 = s.line.bound ∧
      v.getLsbD 9 = s.fsc.ready ∧ v.getLsbD 10 = s.fsc.listActive ∧ v.extractLsb' 11 21 = 0) ∧
    ∃ t u, handle (.read .timeLo) s = .next t ∧ t.hostData = BitVec.ofNat 32 s.line.time ∧
      handle (.read .timeHi) t = .next u ∧ u.hostData = BitVec.ofNat 32 (s.line.time / 2 ^ 32)

/-- R22 to R24, R28, R96: the register numbers and the error numbers; what a host reads from `CMD`, and,
when no command executes, from `STATUS`, `RES`, `FS_PTR` and `OW_CFG`; a read changes nothing but what
the host was given. -/
def Obligations.HostRegisterReads : Prop :=
  ([.cmd, .status, .res, .ctrl, .timeLo, .timeHi, .srch, .fsCrcerr, .fsPtr, .owCfg] :
    List HostReg).map HostReg.number = [0, 1, 2, 3, 4, 5, 6, 7, 8, 9] ∧
  ([.none, .busBusy, .noPresence, .searchDone, .searchNodev, .notFound, .range, .full, .crc,
    .illegal, .notReady, .listEnd] : List ErrCode).map ErrCode.code =
    [0, 1, 2, 3, 4, 5, 6, 7, 8, 9, 10, 11] ∧
  ∀ (s : State),
    handle (.read .cmd) s = .next { s with hostData := s.cmd } ∧
    (s.busy = false →
      (∃ v, handle (.read .status) s = .next { s with hostData := v } ∧
        v.getLsbD 0 = false ∧ v.getLsbD 1 = s.ok ∧ v.extractLsb' 2 2 = 0 ∧
        v.extractLsb' 4 4 = s.err.code ∧ v.getLsbD 8 = s.line.bound ∧ v.getLsbD 9 = s.fsc.ready ∧
        v.getLsbD 10 = s.fsc.listActive ∧ v.extractLsb' 11 21 = 0) ∧
      handle (.read .res) s = .next { s with hostData := s.res } ∧
      (∃ v, handle (.read .fsPtr) s = .next { s with hostData := v } ∧
        v.extractLsb' 0 16 = BitVec.ofNat 16 s.fsc.wp ∧
        v.extractLsb' 16 16 = BitVec.ofNat 16 s.fsc.free) ∧
      (∃ v, handle (.read .owCfg) s = .next { s with hostData := v } ∧
        v.extractLsb' 0 8 = s.line.pin ∧ v.extractLsb' 8 24 = 0))

/-- R27: `SRCH` is register 6; a write with `LD` and `LFD` up to 64 sets `LD`, `LFD`, `LDF` and reads
back with every other bit 0; a write beyond 64, or while a command executes, is ignored as a whole. -/
def Obligations.SearchRegister : Prop :=
  HostReg.srch.number = 6 ∧
  ∀ (s : State) (v : Word),
    (s.busy = false → (v.extractLsb' 0 7).toNat ≤ 64 → (v.extractLsb' 8 7).toNat ≤ 64 →
      ∃ t, handle (.write .srch v) s = .next t ∧
        t = { s with search := { s.search with
          ld := v.extractLsb' 0 7, lfd := v.extractLsb' 8 7, ldf := v.getLsbD 16 } } ∧
        (readReg .srch t).hostData = v &&& 0x00017F7F) ∧
    (64 < (v.extractLsb' 0 7).toNat ∨ 64 < (v.extractLsb' 8 7).toNat ∨ s.busy = true →
      handle (.write .srch v) s = .next s) ∧
    (s.busy = false → (readReg .srch s).hostData.extractLsb' 0 7 = s.search.ld ∧
      (readReg .srch s).hostData.extractLsb' 8 7 = s.search.lfd ∧
      (readReg .srch s).hostData.getLsbD 16 = s.search.ldf ∧
      (readReg .srch s).hostData &&& ~~~(0x00017F7F : Word) = 0)

/-- R25: `CTRL` is register 3; its bit 0 is `PPWR`, the other bits read 0 and ignore writes; a write
while a command executes is ignored; no command changes `PPWR`. -/
def Obligations.ControlRegister : Prop :=
  HostReg.ctrl.number = 3 ∧
  (∀ (s : State) (v : Word), s.busy = false →
    ∃ t, handle (.write .ctrl v) s = .next t ∧ t.line.ppwr = v.getLsbD 0 ∧
      (readReg .ctrl t).hostData = v &&& 1) ∧
  (∀ (s : State) (v : Word), s.busy = true → handle (.write .ctrl v) s = .next s) ∧
  ∀ (i : Instr) (s t : State), exec i s = .next t → t.line.ppwr = s.line.ppwr

/-- R123 (c): a write of `CTRL` that changes `PPWR` on a bound, idle pin takes the new idle state at
the time of the write, as one pin event; without a bound pin the pin is left alone. -/
def Obligations.PowerFlagMovesIdlePin : Prop :=
  ∀ (s : State) (v : Word), s.busy = false → v.getLsbD 0 ≠ s.line.ppwr →
    (s.line.bound = true → s.line.pinState = s.line.idle →
      handle (.write .ctrl v) s = .next { s with line := { s.line with
        ppwr := v.getLsbD 0
        pinState := if v.getLsbD 0 then .high else .rel
        trace := s.line.trace ++ [{ time := s.line.time, pin := s.line.pin,
                                    level := if v.getLsbD 0 then .high else .rel }] } }) ∧
    (s.line.bound = false →
      handle (.write .ctrl v) s = .next { s with line := { s.line with ppwr := v.getLsbD 0 } })

/-- R26: `TIME_LO` and `TIME_HI` are registers 4 and 5, read-only; a read of `TIME_LO` gives bits 31:0
of `TIME` and latches bits 63:32 for the next read of `TIME_HI`, whatever time passes between. That a
write to them changes nothing is the model's reading of 'read-only' (log 12). -/
def Obligations.TimeRegistersLatch : Prop :=
  HostReg.timeLo.number = 4 ∧ HostReg.timeHi.number = 5 ∧
  ∀ (s : State),
    (∀ v, handle (.write .timeLo v) s = .next s ∧ handle (.write .timeHi v) s = .next s) ∧
    ∃ t, handle (.read .timeLo) s = .next t ∧ t.hostData = BitVec.ofNat 32 s.line.time ∧
      ∀ n, ∃ u w, handle (.idle n) t = .next u ∧ handle (.read .timeHi) u = .next w ∧
        w.hostData = BitVec.ofNat 32 (s.line.time / 2 ^ 32) ∧ w.line.time = s.line.time + n

/-- R28: an access with an index outside the array reads 0 and ignores the write; a byte written inside
it reads back, and no other byte of any array changes. -/
def Obligations.ByteArrayAccess : Prop :=
  ∀ (s : State) (a : HostArray) (i : Nat) (v : Byte), s.busy = false →
    ∃ t, handle (.writeByte a i v) s = .next t ∧
      let size : Nat := match a with
        | .addr => 8
        | .srom => 8
        | .owbuf => s.owbuf.length
        | .dbuf => s.dbuf.length
      (i < size → (readArray a i t).hostData = v.setWidth 32) ∧
      (size ≤ i → t = s ∧ (readArray a i s).hostData = 0) ∧
      ∀ (b : HostArray) (j : Nat), b ≠ a ∨ j ≠ i →
        (readArray b j t).hostData = (readArray b j s).hostData

/-! ### Reset and power (R47, R72, R280, R281) -/

/-- R47: every volatile element has the value of R47's table at power-on and after power was lost between
two commands; the flash is what it was. -/
def Obligations.ResetValues : Prop :=
  (∀ (c : Config) (flash : Memory) (log : List FlashEvent),
    (State.powerOn c flash log).VolatileAtReset ∧ (State.powerOn c flash log).cfg = c ∧
      (State.powerOn c flash log).fsc.flash = flash) ∧
  ∀ s : State, ∃ u, handle .powerLoss s = .next u ∧ u.VolatileAtReset ∧ u.cfg = s.cfg ∧
    u.fsc.flash = s.fsc.flash

/-- R72, R47: power loss during a command leaves the flash as the flash events completed by then made it
(device calls, and decays that struck among them, log 18): none of them, all of them, or a prefix, with
every volatile element at R47's value. When it falls inside a call (U6, U7) an erase leaves every byte
outside its page alone, and a program call leaves each byte of its sector old or new and every other
byte alone, whatever the free values are. -/
def Obligations.PowerLossKeepsPrefixOfCalls : Prop :=
  ∀ (w : Word) (s t : State), issue w s = .next t →
    ∃ events, t.fsc.log = s.fsc.log ++ events ∧
      let flashAfter (n : Nat) : Memory :=
        replayFlash s.cfg s.fsc.log.length (events.take n) s.fsc.flash
      (∀ n, ∃ u, handle (.powerLossDuring w { calls := n, mid := false }) s = .next u ∧
        u.VolatileAtReset ∧ u.cfg = s.cfg ∧ u.fsc.flash = flashAfter n ∧
        u.fsc.log = s.fsc.log ++ events.take n ∧ (n = 0 → u.fsc.flash = s.fsc.flash) ∧
        (events.length ≤ n → u.fsc.flash = t.fsc.flash)) ∧
      ∀ (n : Nat) (e : FlashEvent), events[n]? = some e → Memory.wf s.fsc.flash = true →
        ∃ u, handle (.powerLossDuring w { calls := n, mid := true }) s = .next u ∧
          u.VolatileAtReset ∧ u.cfg = s.cfg ∧
          (∀ p, e = .erase p → ∀ a, (a < p * s.cfg.ps ∨ p * s.cfg.ps + s.cfg.ps ≤ a) →
            Memory.read u.fsc.flash a = Memory.read (flashAfter n) a) ∧
          ∀ lo bytes, e = .program lo bytes → ∀ a,
            Memory.read u.fsc.flash a = Memory.read (flashAfter n) a ∨
            (lo ≤ a ∧ a < lo + bytes.length ∧
              Memory.read u.fsc.flash a = Memory.read (flashAfter (n + 1)) a)

/-! ### The machine as a whole -/

/-- From every state with the invariant a step goes on, and the invariant holds after it: no fault, no
refusal, whatever the host, the slaves and the flash device do (R95, U-table: "every command ends"). -/
def Obligations.StepKeepsInvariant : Prop :=
  ∀ s : State, s.Inv → ∃ t, step s = .next t ∧ t.Inv

/-- The state after power-on has the invariant: for every configuration inside R6's constraints and every
flash content inside `0 .. ES-1`, and so for `State.reset`, whose configuration (log 1) and blank flash
(log 4) are the model's choice (R47, R281). -/
def Obligations.ResetHasInvariant : Prop :=
  (∀ (c : Config) (flash : Memory) (log : List FlashEvent), c.Valid → Memory.wf flash = true →
    Memory.below flash c.es = true → (State.powerOn c flash log).Inv) ∧
  State.reset.Inv

/-- R95: every command ends in exactly one of two ways, `done(v)` or `fail(E)`; a failure leaves
`RES = 0` but for the five commands that count (R262). -/
def Obligations.EveryCommandEndsOnce : Prop :=
  ∀ (i : Instr) (s : State), s.WellShaped →
    ∃ t, exec i s = .next t ∧ t.busy = false ∧ t.WellShaped ∧
      ((t.ok = true ∧ t.err = .none) ∨
        (t.ok = false ∧ t.err ≠ .none ∧ (t.res = 0 ∨ i.countsOnFailure = true)))

/-- R262: the codes each legal command can fail with. -/
def Obligations.FailureCodesByCommand : Prop :=
  ∀ (i : Instr) (s t : State), i.WellFormed → exec i s = .next t →
    t.err = .none ∨ t.err ∈ i.failureCodes

/-- R24, R35, R45, R195, R284 and each command's rule: what each kind of command leaves unchanged. The
units share nothing but the command interface and the clock. -/
def Obligations.UnitFrames : Prop :=
  ∀ (i : Instr) (s t : State), exec i s = .next t →
    t.cfg = s.cfg ∧ t.cmd = s.cmd ∧ t.timeHiLatch = s.timeHiLatch ∧
    t.timeHiLatched = s.timeHiLatched ∧ t.inputs = s.inputs ∧ t.hostData = s.hostData ∧
    (i.kind ≠ .store → t.fsc = s.fsc ∧ t.dbuf = s.dbuf) ∧
    (i.kind = .store ∨ i.kind = .crc →
      t.line = { s.line with time := t.line.time } ∧ t.addr = s.addr ∧ t.search = s.search ∧
      t.owbuf = s.owbuf) ∧
    (i.kind = .searchState → t.line = s.line ∧ t.addr = s.addr ∧ t.owbuf = s.owbuf) ∧
    (i.kind = .bind → t.addr = s.addr ∧ t.search = s.search ∧ t.owbuf = s.owbuf) ∧
    (i.kind = .line →
      t.line.bound = s.line.bound ∧ t.line.pin = s.line.pin ∧ t.line.slaves = s.line.slaves ∧
      ((∀ n, i ≠ .owReadBytes n) → t.owbuf = s.owbuf) ∧
      ((∀ a, i ≠ .owSearch a) → t.addr = s.addr ∧ t.search = s.search))

/-- R236, R269, R293: the flash changes by logged device events only; replaying the events a command
logged gives the flash it leaves. -/
def Obligations.FlashChangesOnlyByDeviceCalls : Prop :=
  ∀ (i : Instr) (s t : State), exec i s = .next t →
    ∃ events, t.fsc.log = s.fsc.log ++ events ∧
      t.fsc.flash = replayFlash s.cfg s.fsc.log.length events s.fsc.flash

/-- R29: `TIME` never decreases from one step to the next, unless power is lost. -/
def Obligations.TimeNeverDecreases : Prop :=
  ∀ (s t : State), step s = .next t → (∀ e ∈ s.inputs.head?, e.losesPower = false) →
    s.line.time ≤ t.line.time

/-! ### The OWM unit: bits (40_onewire_bit.md) -/

/-- R127: `OW_BEGIN pin` is word `0x01 + (pin << 8)`; it binds the pin, releases the old one, records the
release of the new one always and its idle state when `PPWR` is set; it takes no time, never fails and
changes nothing else. -/
def Obligations.BeginBindsPin : Prop :=
  ∀ (pin : Byte) (s : State),
    decode (0x01 + (pin.setWidth 32 <<< 8)) = .ok (.owBegin pin) ∧
    exec (.owBegin pin) s = .next (done 0 { s with line := { s.line with
      bound := true, pin := pin
      pinState := if s.line.ppwr then .high else .rel
      trace := s.line.trace ++
        (if s.line.bound = true ∧ s.line.pin ≠ pin ∧ s.line.pinState ≠ .rel
          then [PinEvent.mk s.line.time s.line.pin .rel] else []) ++
        [PinEvent.mk s.line.time pin .rel] ++
        (if s.line.ppwr then [PinEvent.mk s.line.time pin .high] else []) } })

/-- R126: every OWM line command issued with `OW_BOUND = 0` is `fail(NOT_READY)` with no pin event and no
time. -/
def Obligations.LineCommandsNeedPin : Prop :=
  ∀ (i : Instr) (s : State), i.kind = .line → i.WellFormed → s.line.bound = false →
    exec i s = .next (fail .notReady 0 s)

/-- R124: the bus-release wait answers the first of the `T_BUSY + 1` instants from `t0` at which the
line is high, and fails when it is low at all of them. -/
def Obligations.ReleaseWaitSamples : Prop :=
  ∀ (tm : Timing) (l : OneWire) (t0 : Nat), l.pinState = .rel →
    (∀ tr, l.waitRelease tm t0 = some tr ↔
      t0 ≤ tr ∧ tr ≤ t0 + tm.tBusy ∧ slaveLow l.slaves tr = false ∧
        ∀ x, t0 ≤ x → x < tr → slaveLow l.slaves x = true) ∧
    (l.waitRelease tm t0 = none ↔
      ∀ x, t0 ≤ x → x ≤ t0 + tm.tBusy → slaveLow l.slaves x = true)

/-- R125, R132, R150: on a line that stays low through the first bus-release wait, every line command
that needs a slot fails with `BUS_BUSY` at `t0 + T_BUSY` with nothing sent, read or changed; only a
parasitic-power pin makes its two events. -/
def Obligations.StuckLineIsBusBusy : Prop :=
  ∀ (i : Instr) (s : State), i.kind = .line → i.WellFormed → s.line.Ready →
    (∀ x, s.line.time ≤ x → x ≤ s.line.time + s.cfg.timing.tBusy → slaveLow s.line.slaves x = true) →
    (∀ n, i = .owWriteBytes n ∨ i = .owReadBytes n → n ≠ 0 ∧ n.toNat ≤ s.cfg.owbufSize) →
    (∀ a, i = .owSearch a → s.search.ldf = false) →
    exec i s = .next (fail .busBusy 0
      (s.withLine (s.line.after (s.line.time + s.cfg.timing.tBusy) [])))

/-- R129, R131: `OW_WRITE_BIT v` on a bus released at `t_r`: low from `t_r + T_LEAD` for the hold time of
`v`, then idle for its idle time, and nothing else changes. -/
def Obligations.WriteBitSlot : Prop :=
  ∀ (v : Byte) (s : State) (tr : Nat), OneBitOperand v → s.line.Ready →
    s.line.ReleasedAt s.cfg.timing tr →
    exec (.owWriteBit v) s = .next (done 0 (s.withLine
      (s.line.after (tr + s.cfg.timing.writeSpan (decide (v = 1)))
        (slotEvents s.line.pin (tr + s.cfg.timing.tLead)
          (s.cfg.timing.writeLow (decide (v = 1)))))))

/-- R130, R131: `OW_READ_BIT` on a bus released at `t_r`: `RES` is 0 when a slave holds the line low at
`T_RDL + T_RDS` after the falling edge, else 1; the slot ends `T_RDSLOT` after the falling edge. -/
def Obligations.ReadBitSlot : Prop :=
  ∀ (s : State) (tr : Nat), s.line.Ready → s.line.ReleasedAt s.cfg.timing tr →
    exec .owReadBit s = .next (done
      (if slaveLow s.line.slaves (tr + s.cfg.timing.tLead + s.cfg.timing.tRdl + s.cfg.timing.tRds)
        then 0 else 1)
      (s.withLine (s.line.after (tr + s.cfg.timing.readSpan)
        (slotEvents s.line.pin (tr + s.cfg.timing.tLead) s.cfg.timing.tRdl))))

/-- R128: `OW_RESET` on a bus released at `t_r` lasts `T_LEAD + T_RSTL + T_RSTH` whatever its result,
and succeeds exactly when a slave was low at a sampled instant of the presence window and the line was
high again at a later sampled instant no later than the deadline. -/
def Obligations.ResetDetectsPresence : Prop :=
  ∀ (s : State) (tr : Nat), s.line.Ready → s.line.ReleasedAt s.cfg.timing tr →
    let tm := s.cfg.timing
    let tu := tr + tm.tLead + tm.tRstl
    let u : State := s.withLine (s.line.after (tu + tm.tRsth)
      (slotEvents s.line.pin (tr + tm.tLead) tm.tRstl))
    let low (t : Nat) : Prop := slaveLow s.line.slaves t = true
    ((∀ tp, tu < tp → tp ≤ tu + tm.tPdw → ¬ low tp) →
      exec .owReset s = .next (fail .noPresence 0 u)) ∧
    (∀ tp, tu < tp → tp ≤ tu + tm.tPdw → low tp → (∀ x, tu < x → x < tp → ¬ low x) →
      ((∀ th, tp < th → th ≤ tu + tm.tRsth → low th) →
        exec .owReset s = .next (fail .busBusy 0 u)) ∧
      (∀ th, tp < th → th ≤ tu + tm.tRsth → ¬ low th →
        exec .owReset s = .next (done 1 u)))

/-! ### The OWM unit: bytes (41_onewire_byte.md) -/

/-- R150, R152, R153, R158, R159: the write commands on a line that is free at the start of every slot
send their bits in order, least significant bit of each byte first, and change nothing else. -/
def Obligations.WritesOnFreeLine : Prop :=
  ∀ (s : State), s.line.Ready →
    let sent (bits : List Bool) : State := s.withLine
      (s.line.after (s.cfg.timing.writeEnd s.line.time bits)
        (s.cfg.timing.writeEvents s.line.pin s.line.time bits))
    let free (bits : List Bool) : Prop :=
      ∀ x ∈ s.cfg.timing.writeStarts s.line.time bits, slaveLow s.line.slaves x = false
    (∀ b : Byte, free (byteBits b) → exec (.owWrite b) s = .next (done 0 (sent (byteBits b)))) ∧
    (free (byteBits 0xCC) → exec .owSelectAll s = .next (done 0 (sent (byteBits 0xCC)))) ∧
    (free (byteBits 0x55 ++ (romBytes s.addr).flatMap byteBits) →
      exec .owSelect s =
        .next (done 0 (sent (byteBits 0x55 ++ (romBytes s.addr).flatMap byteBits)))) ∧
    (∀ n : Byte, n ≠ 0 → n.toNat ≤ s.cfg.owbufSize →
      free ((bufTake s.owbuf n.toNat).flatMap byteBits) →
      exec (.owWriteBytes n) s =
        .next (done (n.setWidth 32) (sent ((bufTake s.owbuf n.toNat).flatMap byteBits))))

/-- R150, R152, R153, R158: when the bus stays low through the wait of slot `k`, the slots before it stay
sent, the command fails with `BUS_BUSY` `T_BUSY` after that slot's start, and `RES` counts the bits
(`OW_WRITE`, `OW_SELECT_ALL`) or the whole bytes (`OW_WRITE_BYTES`, `OW_SELECT`) sent. -/
def Obligations.WriteFailureCounts : Prop :=
  ∀ (s : State), s.line.Ready →
    let tm := s.cfg.timing
    let cutAt (bits : List Bool) (k : Nat) : Prop :=
      k < bits.length ∧
      (∀ x ∈ tm.writeStarts s.line.time (bits.take k), slaveLow s.line.slaves x = false) ∧
      (∀ x, tm.writeEnd s.line.time (bits.take k) ≤ x →
        x ≤ tm.writeEnd s.line.time (bits.take k) + tm.tBusy → slaveLow s.line.slaves x = true)
    let cut (bits : List Bool) (k : Nat) : State := s.withLine
      (s.line.after (tm.writeEnd s.line.time (bits.take k) + tm.tBusy)
        (tm.writeEvents s.line.pin s.line.time (bits.take k)))
    (∀ (b : Byte) (k : Nat), cutAt (byteBits b) k →
      exec (.owWrite b) s = .next (fail .busBusy (BitVec.ofNat 32 k) (cut (byteBits b) k))) ∧
    (∀ k : Nat, cutAt (byteBits 0xCC) k →
      exec .owSelectAll s = .next (fail .busBusy (BitVec.ofNat 32 k) (cut (byteBits 0xCC) k))) ∧
    (∀ k : Nat, cutAt (byteBits 0x55 ++ (romBytes s.addr).flatMap byteBits) k →
      exec .owSelect s = .next (fail .busBusy (BitVec.ofNat 32 (k / 8))
        (cut (byteBits 0x55 ++ (romBytes s.addr).flatMap byteBits) k))) ∧
    (∀ (n : Byte) (k : Nat), n.toNat ≤ s.cfg.owbufSize →
      cutAt ((bufTake s.owbuf n.toNat).flatMap byteBits) k →
      exec (.owWriteBytes n) s = .next (fail .busBusy (BitVec.ofNat 32 (k / 8))
        (cut ((bufTake s.owbuf n.toNat).flatMap byteBits) k)))

/-- R154: `OW_READ` on a line that is free at the start of each of its 8 slots: bit `k` of `RES` is the
sample of slot `k`, bits 31:8 are 0, and nothing else changes. -/
def Obligations.ReadByteOnFreeLine : Prop :=
  ∀ (s : State), s.line.Ready →
    (∀ k < 8, slaveLow s.line.slaves (s.line.time + k * s.cfg.timing.readSpan) = false) →
    ∃ v : Byte,
      exec .owRead s = .next (done (v.setWidth 32) (s.withLine
        (s.line.after (s.line.time + 8 * s.cfg.timing.readSpan)
          (s.cfg.timing.readEvents s.line.pin s.line.time 8)))) ∧
      ∀ k < 8, v.getLsbD k = s.cfg.timing.sampledBit s.line.slaves s.line.time k

/-- R155: `OW_READ_BYTES n` on a line that is free at the start of each slot: bit `i` of `OWBUF[k]` is
the sample of slot `8k + i`, the bytes from `n` on keep their values, `RES = n`, and nothing else
changes. -/
def Obligations.ReadBytesOnFreeLine : Prop :=
  ∀ (n : Byte) (s : State), s.line.Ready → n ≠ 0 → n.toNat ≤ s.cfg.owbufSize →
    s.owbuf.length = s.cfg.owbufSize →
    (∀ k < 8 * n.toNat,
      slaveLow s.line.slaves (s.line.time + k * s.cfg.timing.readSpan) = false) →
    ∃ buf : List Byte,
      exec (.owReadBytes n) s = .next (done (n.setWidth 32)
        ({ s with owbuf := buf }.withLine
          (s.line.after (s.line.time + 8 * n.toNat * s.cfg.timing.readSpan)
            (s.cfg.timing.readEvents s.line.pin s.line.time (8 * n.toNat))))) ∧
      buf.length = s.owbuf.length ∧
      (∀ k < n.toNat, ∀ i < 8, (buf.getD k 0).getLsbD i =
        s.cfg.timing.sampledBit s.line.slaves s.line.time (8 * k + i)) ∧
      ∀ k, n.toNat ≤ k → buf.getD k 0 = s.owbuf.getD k 0

/-- R154, R155: when the slots before slot `k` run and the wait of slot `k` fails, `OW_READ_BYTES n` ends
with `BUS_BUSY` and `RES = k / 8`, the whole bytes read; these hold their samples and the rest of `OWBUF`
is kept; `OW_READ` ends with `BUS_BUSY` and `RES = 0`; both at `T_BUSY` after that slot's start with the
pin events of the slots before it and nothing else changed. On every `BUS_BUSY` of `OW_READ_BYTES`,
fewer than `n` bytes are counted and `OWBUF[RES ..]` keep their values. -/
def Obligations.FailedReadsCountWholeBytes : Prop :=
  (∀ (n : Byte) (s t : State), exec (.owReadBytes n) s = .next t → t.err = .busBusy →
    t.ok = false ∧ t.res.toNat < n.toNat ∧ t.owbuf.length = s.owbuf.length ∧
    ∀ k, t.res.toNat ≤ k → t.owbuf.getD k 0 = s.owbuf.getD k 0) ∧
  ∀ (s : State) (k : Nat), s.line.Ready →
    let tm := s.cfg.timing
    let start (x : Nat) : Nat := s.line.time + x * tm.readSpan
    let cut (u : State) : State :=
      u.withLine (s.line.after (start k + tm.tBusy) (tm.readEvents s.line.pin s.line.time k))
    (∀ x < k, slaveLow s.line.slaves (start x) = false) →
    (∀ x, start k ≤ x → x ≤ start k + tm.tBusy → slaveLow s.line.slaves x = true) →
    (k < 8 → exec .owRead s = .next (fail .busBusy 0 (cut s))) ∧
    ∀ n : Byte, n.toNat ≤ s.cfg.owbufSize → s.owbuf.length = s.cfg.owbufSize → k < 8 * n.toNat →
      ∃ buf : List Byte,
        exec (.owReadBytes n) s =
          .next (fail .busBusy (BitVec.ofNat 32 (k / 8)) (cut { s with owbuf := buf })) ∧
        buf.length = s.owbuf.length ∧
        (∀ j < k / 8, ∀ i < 8, (buf.getD j 0).getLsbD i =
          tm.sampledBit s.line.slaves s.line.time (8 * j + i)) ∧
        ∀ j, k / 8 ≤ j → buf.getD j 0 = s.owbuf.getD j 0

/-- R159: `OW_SELECT_ALL` is word `0x0000000A` and exactly `OW_WRITE 0xCC`. -/
def Obligations.SelectAllIsWriteSkipRom : Prop :=
  decode 0x0000000A = .ok .owSelectAll ∧
  ∀ s : State, exec .owSelectAll s = exec (.owWrite 0xCC) s

/-- R151: a count beyond `OWBUF_SIZE` is `fail(RANGE)`, a count of 0 is `done(0)`, both with no pin event
and no time. -/
def Obligations.ByteCountRange : Prop :=
  ∀ (n : Byte) (s : State), s.line.Ready →
    (s.cfg.owbufSize < n.toNat →
      exec (.owWriteBytes n) s = .next (fail .range 0 s) ∧
      exec (.owReadBytes n) s = .next (fail .range 0 s)) ∧
    exec (.owWriteBytes 0) s = .next (done 0 s) ∧ exec (.owReadBytes 0) s = .next (done 0 s)

/-! ### The OWM unit: ROM search (42_onewire_search.md) -/

/-- R171: `OW_SEARCH_BEGIN` is word `0x00000010`; it clears the search state, takes no time, needs no
pin, never fails and changes nothing else. -/
def Obligations.SearchBeginClears : Prop :=
  decode 0x00000010 = .ok .owSearchBegin ∧
  ∀ s : State, exec .owSearchBegin s =
    .next (done 0 { s with search := { srom := 0, ld := 0, lfd := 0, ldf := false } })

/-- R172: `OW_SEARCH_BEGIN_FAM` seeds `SROM[0]` with the family, the other bytes with 0, `LD` with 64,
`LFD` and `LDF` with 0, and changes nothing else. -/
def Obligations.SearchBeginFamilySeeds : Prop :=
  ∀ (family : Byte) (s : State),
    ∃ q : Search, exec (.owSearchBeginFam family) s = .next (done 0 { s with search := q }) ∧
      romByte q.srom 0 = family ∧ (∀ k, 1 ≤ k → k < 8 → romByte q.srom k = 0) ∧
      q.ld.toNat = 64 ∧ q.lfd.toNat = 0 ∧ q.ldf = false

/-- R173: `OW_SEARCH` with `LDF = 1` on entry is `fail(SEARCH_DONE)` with no pin activity, no time and the
state unchanged; on every failure the search state and `ADDR` are unchanged, and on every success `ADDR`
is the ROM committed to `SROM`. -/
def Obligations.SearchCommitsOnSuccessOnly : Prop :=
  ∀ (a : Byte) (s : State),
    (OneBitOperand a → s.line.bound = true → s.search.ldf = true →
      exec (.owSearch a) s = .next (fail .searchDone 0 s)) ∧
    ∀ t, exec (.owSearch a) s = .next t →
      (t.ok = false → t.search = s.search ∧ t.addr = s.addr) ∧
      (t.ok = true → t.res = 1 ∧ t.addr = t.search.srom ∧ s.search.ldf = false)

/-- R173, R300: `OW_SEARCH` with the default timing on a line that is free at the start of every slot,
answered by a presence pulse and, at every position, by at least one 0 of the bit and its complement:
it succeeds after 15690 µs; it sends the reset, the command byte (0xF0, or 0xEC for `A = 1`) and at each
position two read slots and the direction of R173 step 3; it commits the ROM found, the last position where 0 was taken, the last such position below 9 if any, and whether none
was taken. -/
def Obligations.SearchOnFreeLine : Prop :=
  ∀ (a : Byte) (s : State), OneBitOperand a → s.line.Ready → s.cfg.timing = {} →
    s.search.ldf = false →
    let t0 := s.line.time
    let low (t : Nat) : Bool := slaveLow s.line.slaves t
    let start (n : Nat) : Nat := t0 + 1610 + 220 * (n - 1)
    let id (n : Nat) : Bool := !low (start n + 25)
    let cmp (n : Nat) : Bool := !low (start n + 95)
    low t0 = false →
    (∃ tp th, t0 + 490 < tp ∧ tp ≤ t0 + 560 ∧ low tp = true ∧ tp < th ∧ th ≤ t0 + 970 ∧
      low th = false) →
    (∀ k < 8, low (t0 + 970 + 80 * k) = false) →
    (∀ n, 1 ≤ n → n ≤ 64 → low (start n) = false ∧ low (start n + 70) = false ∧
      low (start n + 140) = false) →
    (∀ n, 1 ≤ n → n ≤ 64 → (id n = false ∨ cmp n = false)) →
    let events : List PinEvent :=
      slotEvents s.line.pin (t0 + 10) 480 ++
      s.cfg.timing.writeEvents s.line.pin (t0 + 970) (byteBits (if a = 0 then 0xF0 else 0xEC)) ++
      (List.range 64).flatMap fun k =>
        slotEvents s.line.pin (start (k + 1) + 10) 6 ++ slotEvents s.line.pin (start (k + 1) + 80) 6 ++
        slotEvents s.line.pin (start (k + 1) + 150)
          (if directionTaken s.search id cmp (k + 1) then 6 else 60)
    ∃ (rom : RomCode) (q : Search),
      exec (.owSearch a) s = .next (done 1
        ({ s with addr := rom, search := q }.withLine (s.line.after (t0 + 15690) events))) ∧
      q.srom = rom ∧ (∀ n, 1 ≤ n → n ≤ 64 → romBit rom n = directionTaken s.search id cmp n) ∧
      (q.ldf = true ↔ q.ld.toNat = 0) ∧
      (∀ n, 1 ≤ n → n ≤ 64 → zeroTaken s.search id cmp n = true → n ≤ q.ld.toNat) ∧
      (q.ld.toNat = 0 ∨ (1 ≤ q.ld.toNat ∧ q.ld.toNat ≤ 64 ∧
        zeroTaken s.search id cmp q.ld.toNat = true)) ∧
      ((∀ n, 1 ≤ n → n < 9 → zeroTaken s.search id cmp n = false) → q.lfd = s.search.lfd) ∧
      (∀ n, 1 ≤ n → n < 9 → zeroTaken s.search id cmp n = true →
        (∀ m, n < m → m < 9 → zeroTaken s.search id cmp m = false) → q.lfd.toNat = n)

/-! ### The CRC unit (43_crc.md) -/

/-- R191, R195: `CRC8 n` is word `0x20 + (n << 8)`; `RES` is the CRC-8 of `OWBUF[0 .. n-1]`, 0 for
`n = 0`; a count beyond the buffer is `fail(RANGE)`. Beside these only the clock moves (R301, log 5). -/
def Obligations.Crc8Command : Prop :=
  ∀ (n : Byte) (s : State),
    decode (0x20 + (n.setWidth 32 <<< 8)) = .ok (.crc8 n) ∧
    (n.toNat ≤ s.cfg.owbufSize →
      exec (.crc8 n) s = .next (done ((crc8 (bufTake s.owbuf n.toNat)).setWidth 32) (spend s))) ∧
    exec (.crc8 0) s = .next (done 0 (spend s)) ∧
    (s.cfg.owbufSize < n.toNat → exec (.crc8 n) s = .next (fail .range 0 (spend s)))

/-- R193, R195: `CRC16 n` is word `0x21 + (n << 8)`; `RES` is the CRC-16 of `OWBUF[0 .. n-1]`; a count
beyond the buffer is `fail(RANGE)`. Beside these only the clock moves (R301, log 5). -/
def Obligations.Crc16Command : Prop :=
  ∀ (n : Byte) (s : State),
    decode (0x21 + (n.setWidth 32 <<< 8)) = .ok (.crc16 n) ∧
    (n.toNat ≤ s.cfg.owbufSize →
      exec (.crc16 n) s =
        .next (done ((crc16 (bufTake s.owbuf n.toNat)).setWidth 32) (spend s))) ∧
    (s.cfg.owbufSize < n.toNat → exec (.crc16 n) s = .next (fail .range 0 (spend s)))

/-- R194, R195: `CHECK_CRC16 n` is word `0x22 + (n << 8)`; it succeeds whether or not the check passes,
and `RES` is 1 exactly when the complement of the CRC-16 of `OWBUF[0 .. n-1]` equals
`OWBUF[n] + 256 * OWBUF[n+1]`; a count with `n + 2` beyond the buffer is `fail(RANGE)`. Beside these
only the clock moves (R301, log 5). -/
def Obligations.CheckCrc16Command : Prop :=
  ∀ (n : Byte) (s : State),
    decode (0x22 + (n.setWidth 32 <<< 8)) = .ok (.checkCrc16 n) ∧
    (n.toNat + 2 ≤ s.cfg.owbufSize →
      ∃ v : Word, exec (.checkCrc16 n) s = .next (done v (spend s)) ∧
        v = if (~~~(crc16 (bufTake s.owbuf n.toNat))).toNat =
            (bufRead s.owbuf n.toNat).toNat + 256 * (bufRead s.owbuf (n.toNat + 1)).toNat
          then 1 else 0) ∧
    (s.cfg.owbufSize < n.toNat + 2 →
      exec (.checkCrc16 n) s = .next (fail .range 0 (spend s)))

/-- R190, R192: both functions are the serial register of their polynomial (0x8C, 0xA001), started at 0
and fed each byte bit 0 first, and give the rules' example values. R196: the CRC-8 of a sequence with its
own CRC appended is 0; the CRC-16 of a sequence with its own CRC appended low byte first is 0, and with
the complement appended it is `0xB001`. -/
def Obligations.CrcRoundTrips : Prop :=
  (crc8 [] = 0 ∧ crc8 [0x01] = 0x5E ∧ crc8 [0x02, 0x1C, 0xB8, 0x01, 0x00, 0x00, 0x00] = 0xA2 ∧
    crc8 [0x31, 0x32, 0x33, 0x34, 0x35, 0x36, 0x37, 0x38, 0x39] = 0xA1) ∧
  (crc16 [] = 0 ∧ crc16 [0x01] = 0xC0C1 ∧ crc16 [0xFF] = 0x4040 ∧
    crc16 [0x31, 0x32, 0x33, 0x34, 0x35, 0x36, 0x37, 0x38, 0x39] = 0xBB3D) ∧
  ∀ m : List Byte,
    (crc8 m).toNat = serialCrc 0x8C (m.flatMap byteBits) ∧
    (crc16 m).toNat = serialCrc 0xA001 (m.flatMap byteBits) ∧
    crc8 (m ++ [crc8 m]) = 0 ∧
    crc16 (m ++ [(crc16 m).extractLsb' 0 8, (crc16 m).extractLsb' 8 8]) = 0 ∧
    crc16 (m ++ [~~~((crc16 m).extractLsb' 0 8), ~~~((crc16 m).extractLsb' 8 8)]) = 0xB001

/-! ### The FSC unit: scan and read path (44_flash_scan.md) -/

/-- An FSC command with a configuration outside R6's constraints is refused by name: the model's choice
(log 16), where R284 promises no rule and U8 names the treatment. With a valid configuration (R38, R94, R97) every FSC command but `FS_BEGIN` is `fail(NOT_READY)` before
`FS_BEGIN`, and a file number `>= N` is `fail(RANGE)` after it, with no device call. -/
def Obligations.StoreCommandGuards : Prop :=
  ∀ (i : Instr) (s : State), i.kind = .store →
    (¬ s.cfg.Valid → exec i s = .refused .geometry) ∧
    (s.cfg.Valid → i ≠ .fsBegin → s.fsc.ready = false →
      exec i s = .next (fail .notReady 0 (spend s))) ∧
    (s.cfg.Valid → s.fsc.ready = true → ∀ id : Byte, s.cfg.n ≤ id.toNat →
      i = .fsWriteFile id ∨ i = .fsUpdateFile id ∨ i = .fsEraseFile id ∨ i = .fsReadFile id ∨
        i = .fsListFirst id →
      exec i s = .next (fail .range 0 (spend s)))

/-- R200 to R208: after `FS_BEGIN` on any flash, `WP` and `FREE` are those R205 finds on the flash as it
was, page `FREE` is erased, and nothing else of the flash changed; the directory is the one R203 and R204
give of the flash after the erase: the last valid sector of each file in the smallest area that has one,
absent when that is a tombstone or when there is none; every entry points outside page `FREE` at a valid
live sector of its file; `CRCERR` is the number of bad sectors; the store is ready and no listing is
active; beside the FSC unit only the clock moved. -/
def Obligations.BeginRebuildsDirectory : Prop :=
  ∀ (s : State), s.cfg.Valid → Memory.wf s.fsc.flash = true →
    ∃ f : Fsc, exec .fsBegin s = .next (done 0 { spend s with fsc := f }) ∧
      f.ready = true ∧ f.listActive = false ∧ f.listId = s.fsc.listId ∧
      f.listPos = s.fsc.listPos ∧ f.listBase = s.fsc.listBase ∧ f.decay = s.fsc.decay ∧
      f.free < s.cfg.pages ∧ f.wp < s.cfg.total ∧ Located s.cfg s.fsc.flash f.wp f.free ∧
      DirectoryOf s.cfg f.flash f.dir ∧ pageErased s.cfg f.flash f.free ∧
      (∀ id < s.cfg.n, entryLive s.cfg f.flash f.free id (f.dir.getD id none) = true) ∧
      f.crcerr = BitVec.ofNat 32 ((List.range s.cfg.total).countP
        fun i => sectorBad (sectorAt s.cfg f.flash i)) ∧
      f.log = s.fsc.log ++ [.erase f.free] ∧
      ∀ a, (a < f.free * s.cfg.ps ∨ f.free * s.cfg.ps + s.cfg.ps ≤ a) →
        Memory.read f.flash a = Memory.read s.fsc.flash a

/-- R281: on an all-0xFF flash `FS_BEGIN` leaves `DIR` all absent, `WP = 0`, `FREE = 0`, `CRCERR = 0`
and has erased page 0; the store's invariant holds. -/
def Obligations.BeginOnBlankFlash : Prop :=
  ∀ (s : State), s.cfg.Valid → s.fsc.flash = [] →
    ∃ t, exec .fsBegin s = .next t ∧ t.fsc.dir = List.replicate s.cfg.n none ∧ t.fsc.wp = 0 ∧
      t.fsc.free = 0 ∧ t.fsc.crcerr = 0 ∧ t.fsc.log = s.fsc.log ++ [.erase 0] ∧ t.StoreInv

/-- R211, R212: reading a file whose entry points at a valid sector gives its payload in `DBUF` and its
sector in `RES`, reading an absent file is `fail(NOT_FOUND)`; neither touches the store. -/
def Obligations.ReadFileOfGoodEntry : Prop :=
  ∀ (id : Byte) (s : State), s.cfg.Valid → s.fsc.ready = true → id.toNat < s.cfg.n →
    (∀ i, s.fsc.dir.getD id.toNat none = some i → i < s.cfg.total →
      sectorValid (sectorAt s.cfg s.fsc.flash i) = true →
      exec (.fsReadFile id) s = .next (done (BitVec.ofNat 32 i)
        { spend s with dbuf := flashRead s.fsc.flash (s.cfg.secAddr i + 2) s.cfg.sds })) ∧
    (s.fsc.dir.getD id.toNat none = none →
      exec (.fsReadFile id) s = .next (fail .notFound 0 (spend s)))

/-- R211: a file whose sector has gone bad is rescanned for, with one erase; with a flash that changes
only through the block the retry never ends in `CRC`: the file is found again in an older sector or is
not found. -/
def Obligations.BadSectorIsRescanned : Prop :=
  ∀ (id : Byte) (s : State) (i : Nat), s.WellShaped → s.fsc.ready = true → id.toNat < s.cfg.n →
    s.fsc.decay = [] → s.fsc.dir.getD id.toNat none = some i →
    sectorValid (sectorAt s.cfg s.fsc.flash i) = false →
    ∃ t, exec (.fsReadFile id) s = .next t ∧
      t.fsc.log = s.fsc.log ++ [.erase t.fsc.free] ∧ t.fsc.listActive = false ∧
      ((t.ok = true ∧ t.err = .none ∧ t.fsc.dir.getD id.toNat none = some t.res.toNat ∧
          t.dbuf = flashRead t.fsc.flash (s.cfg.secAddr t.res.toNat + 2) s.cfg.sds) ∨
        (t.ok = false ∧ t.err = .notFound ∧ t.res = 0 ∧ t.fsc.dir.getD id.toNat none = none ∧
          t.dbuf = s.dbuf))

/-- R215: `FS_CRCERR` is word `0x00000045`; it gives `CRCERR`, which register 7 also reads, or fails
before `FS_BEGIN`. -/
def Obligations.CrcErrorCounterRead : Prop :=
  decode 0x00000045 = .ok .fsCrcerr ∧ HostReg.fsCrcerr.number = 7 ∧
  ∀ (s : State), s.cfg.Valid →
    (s.fsc.ready = false → exec .fsCrcerr s = .next (fail .notReady 0 (spend s))) ∧
    (s.fsc.ready = true → exec .fsCrcerr s = .next (done s.fsc.crcerr (spend s))) ∧
    (s.busy = false → (readReg .fsCrcerr s).hostData = s.fsc.crcerr)

/-- R216, R217: `FS_LIST_FIRST id` yields the first sector in visiting order, all `T` of them from the first sector of the
page after `FREE` and wrapping, that holds a valid live revision of file `id`; the cursor stands behind
it. With no such sector it is `fail(LIST_END)` and the listing ends. Flash and directory do not
change. -/
def Obligations.ListFirstYieldsFirstVisited : Prop :=
  ∀ (id : Byte) (s : State), s.WellShaped → s.fsc.ready = true → id.toNat < s.cfg.n →
    let listed (k : Nat) : Bool :=
      sectorListed id.toNat (sectorAt s.cfg s.fsc.flash (listSector s.cfg s.fsc k))
    let cursor (k : Nat) (active : Bool) : Fsc := { s.fsc with
      listId := id.setWidth 7, listBase := ((s.fsc.free + 1) % s.cfg.pages) * s.cfg.spp
      listPos := k, listActive := active }
    (∀ k < s.cfg.total, listed k = true → (∀ x < k, listed x = false) →
      exec (.fsListFirst id) s = .next (done (BitVec.ofNat 32 (listSector s.cfg s.fsc k))
        { spend s with
          fsc := cursor (k + 1) true
          dbuf := flashRead s.fsc.flash (s.cfg.secAddr (listSector s.cfg s.fsc k) + 2) s.cfg.sds })) ∧
    ((∀ k < s.cfg.total, listed k = false) →
      exec (.fsListFirst id) s =
        .next (fail .listEnd 0 { spend s with fsc := cursor s.cfg.total false }))

/-- R217: `FS_LIST_NEXT` goes on from the cursor of the active listing in the same way; with no listing
active it is `fail(LIST_END)`. -/
def Obligations.ListNextContinues : Prop :=
  ∀ (s : State), s.WellShaped → s.fsc.ready = true →
    let at' (k : Nat) : Nat := (s.fsc.listBase + k) % s.cfg.total
    let listed (k : Nat) : Bool :=
      sectorListed s.fsc.listId.toNat (sectorAt s.cfg s.fsc.flash (at' k))
    (s.fsc.listActive = false → exec .fsListNext s = .next (fail .listEnd 0 (spend s))) ∧
    (s.fsc.listActive = true →
      (∀ k, s.fsc.listPos ≤ k → k < s.cfg.total → listed k = true →
        (∀ x, s.fsc.listPos ≤ x → x < k → listed x = false) →
        exec .fsListNext s = .next (done (BitVec.ofNat 32 (at' k)) { spend s with
          fsc := { s.fsc with listPos := k + 1 }
          dbuf := flashRead s.fsc.flash (s.cfg.secAddr (at' k) + 2) s.cfg.sds })) ∧
      ((∀ k, s.fsc.listPos ≤ k → k < s.cfg.total → listed k = false) →
        exec .fsListNext s = .next (fail .listEnd 0 { spend s with
          fsc := { s.fsc with listPos := s.cfg.total, listActive := false } })))

/-! ### The FSC unit: append and write commands (45_flash_write.md) -/

/-- R230: the sector built for a file: header, CRC of header and payload, payload; the header is never
0xFF, so the sector is valid and names its file and flag. -/
def Obligations.MadeSectorIsValid : Prop :=
  ∀ (id : Nat) (tomb : Bool) (payload : List Byte), id < 127 →
    let sec := makeSector id tomb payload
    sec.length = payload.length + 2 ∧
    (sec.getD 0 0).toNat = (if tomb then 128 else 0) + id ∧
    sec.getD 1 0 = crc8 (sec.getD 0 0 :: payload) ∧ sec.drop 2 = payload ∧
    sec.getD 0 0 ≠ 0xFF ∧ sectorValid sec = true ∧ sectorFile sec = id ∧ sectorTomb sec = tomb

/-- R233: the victim search takes the first page after `FREE`, wrapping, with fewer than `SPP` live
sectors of other files; under R6's headroom it never fails, and with `N <= SPP` it takes the page right
after `FREE`. -/
def Obligations.VictimPageIsFound : Prop :=
  ∀ (c : Config) (dir : List (Option Nat)) (free id : Nat), c.Valid → free < c.pages → id < c.n →
    ∃ k, 1 ≤ k ∧ k < c.pages ∧ selectVictim c dir free id = some ((free + k) % c.pages) ∧
      liveCount c dir id ((free + k) % c.pages) < c.spp ∧
      (∀ x, 1 ≤ x → x < k → c.spp ≤ liveCount c dir id ((free + x) % c.pages)) ∧
      (c.n ≤ c.spp → k = 1)

/-- R231, R232, R235, R237, R238: `FS_WRITE_FILE id` writes one sector of `DBUF` and completes, on the
direct and on the defragmentation path; `RES` is the sector written. On the latter a valid live sector
of another file in the victim is copied, an invalid one becomes absent and counts in `CRCERR`. -/
def Obligations.WriteFileAppends : Prop :=
  ∀ (id : Byte) (s : State), s.WellShaped → s.fsc.ready = true → id.toNat < s.cfg.n →
    ∃ f : Fsc, exec (.fsWriteFile id) s =
        .next (done (BitVec.ofNat 32 (appendTarget s.cfg s.fsc)) { spend s with fsc := f }) ∧
      Appended s.cfg id.toNat false s.dbuf s.fsc f

/-- R240, R212: `FS_ERASE_FILE id` appends a tombstone with payload all 0xFF, whether or not the file
exists, and completes; `RES` is the sector written, the entry is absent, and `FS_READ_FILE id` then
reports `NOT_FOUND`. -/
def Obligations.EraseFileAppendsTombstone : Prop :=
  ∀ (id : Byte) (s : State), s.WellShaped → s.fsc.ready = true → id.toNat < s.cfg.n →
    ∃ f : Fsc, exec (.fsEraseFile id) s =
        .next (done (BitVec.ofNat 32 (appendTarget s.cfg s.fsc)) { spend s with fsc := f }) ∧
      Appended s.cfg id.toNat true (List.replicate s.cfg.sds 0xFF) s.fsc f ∧
      ∀ t, t = done (BitVec.ofNat 32 (appendTarget s.cfg s.fsc)) { spend s with fsc := f } →
        exec (.fsReadFile id) t = .next (fail .notFound 0 (spend t))

/-- R239: `FS_UPDATE_FILE id` on a store that has the invariant: `RES = 0` and nothing written when the
file already holds `DBUF`; else the sector is appended and `RES = 1`. -/
def Obligations.UpdateFileWritesOnlyChanges : Prop :=
  ∀ (id : Byte) (s : State), s.WellShaped → s.StoreInv → id.toNat < s.cfg.n →
    (∀ i, s.fsc.dir.getD id.toNat none = some i →
      flashRead s.fsc.flash (s.cfg.secAddr i + 2) s.cfg.sds = s.dbuf →
      exec (.fsUpdateFile id) s = .next (done 0 (spend s))) ∧
    ((∀ i, s.fsc.dir.getD id.toNat none = some i →
        flashRead s.fsc.flash (s.cfg.secAddr i + 2) s.cfg.sds ≠ s.dbuf) →
      ∃ f : Fsc, exec (.fsUpdateFile id) s = .next (done 1 { spend s with fsc := f }) ∧
        Appended s.cfg id.toNat false s.dbuf s.fsc f)

/-- R236, R235: the block-device calls of one append, in order: on the direct path one program; on the
defragmentation path the new sector, then one program per valid live sector of another file in the
victim, its bytes unchanged, in ascending order of its source, then one erase of the victim; the write
pointer ends behind the last sector programmed, and each invalid live sector adds one, saturating, to
`CRCERR`. -/
def Obligations.AppendCallOrder : Prop :=
  ∀ (c : Config) (id : Nat) (tomb : Bool) (payload : List Byte) (f g : Fsc) (w : Nat), c.Valid →
    payload.length = c.sds → f.append c id tomb payload = .written w g →
    w = appendTarget c f ∧
    (f.wp % c.spp ≠ 0 → g.crcerr = f.crcerr ∧
      g.log = f.log ++ [.program (c.secAddr f.wp) (makeSector id tomb payload)]) ∧
    (f.wp % c.spp = 0 →
      let copies := copiedSectors c f id g.free
      g.log = f.log ++ .program (c.secAddr (f.free * c.spp)) (makeSector id tomb payload) ::
        (copies.zipIdx.map fun p =>
          FlashEvent.program (c.secAddr (f.free * c.spp + 1 + p.2)) (sectorAt c f.flash p.1)) ++
        [.erase g.free] ∧
      g.wp = (f.free * c.spp + 1 + copies.length) % c.total ∧
      g.crcerr.toNat = min (f.crcerr.toNat + droppedCount c f id g.free) 0xFFFFFFFF ∧
      copies.length < c.spp ∧ copies.Pairwise (· < ·) ∧ ∀ i ∈ copies, c.pageOf i = g.free)

/-- R241: every command but `FS_BEGIN` keeps the store's invariant. -/
def Obligations.CommandsKeepStoreInvariant : Prop :=
  ∀ (i : Instr) (s t : State), s.WellShaped → s.StoreInv → i ≠ .fsBegin → exec i s = .next t →
    t.StoreInv

/-- R212, R238 (D0 §8, write and read round trip; wear levelling leaves other files alone): after
`FS_WRITE_FILE id`, `FS_READ_FILE id` gives back exactly what was written, and every other file still
reads as it did. -/
def Obligations.WriteThenReadRoundTrip : Prop :=
  ∀ (id : Byte) (s : State), s.WellShaped → s.StoreInv → id.toNat < s.cfg.n →
    ∃ t u, exec (.fsWriteFile id) s = .next t ∧ exec (.fsReadFile id) t = .next u ∧
      u.ok = true ∧ u.dbuf = s.dbuf ∧ u.res = t.res ∧
      ∀ j : Byte, j ≠ id → j.toNat < s.cfg.n →
        ∃ u₀ u₁, exec (.fsReadFile j) s = .next u₀ ∧ exec (.fsReadFile j) t = .next u₁ ∧
          u₁.ok = u₀.ok ∧ u₁.err = u₀.err ∧ (u₀.ok = true → u₁.dbuf = u₀.dbuf)

/-- R239 (D0 §8, update no-op): calling `FS_UPDATE_FILE id` twice with the same `DBUF` makes no device
call the second time. -/
def Obligations.SecondUpdateWritesNothing : Prop :=
  ∀ (id : Byte) (s : State), s.WellShaped → s.StoreInv → id.toNat < s.cfg.n →
    ∃ t, exec (.fsUpdateFile id) s = .next t ∧ t.ok = true ∧
      exec (.fsUpdateFile id) t = .next (done 0 (spend t))
end

