-- ==== Sys2Proof/Laws/State.lean ====
section
/-! SUPPORT. One lemma per field of `State` for each named update of it (how a command ends, the free
passage of time, the acceptance of a command word, an answer to the host), and the same for the
updates of the OWM line and of the FSC unit, so that no later proof unfolds a record update. -/

namespace Sys2Proof.Machine

/-! ### `done` -/

@[simp] theorem done_cfg (v : Word) (s : State) : (done v s).cfg = s.cfg := rfl
@[simp] theorem done_cmd (v : Word) (s : State) : (done v s).cmd = s.cmd := rfl
@[simp] theorem done_busy (v : Word) (s : State) : (done v s).busy = false := rfl
@[simp] theorem done_ok (v : Word) (s : State) : (done v s).ok = true := rfl
@[simp] theorem done_err (v : Word) (s : State) : (done v s).err = .none := rfl
@[simp] theorem done_res (v : Word) (s : State) : (done v s).res = v := rfl
@[simp] theorem done_timeHiLatch (v : Word) (s : State) : (done v s).timeHiLatch = s.timeHiLatch := rfl
@[simp] theorem done_timeHiLatched (v : Word) (s : State) : (done v s).timeHiLatched = s.timeHiLatched := rfl
@[simp] theorem done_line (v : Word) (s : State) : (done v s).line = s.line := rfl
@[simp] theorem done_addr (v : Word) (s : State) : (done v s).addr = s.addr := rfl
@[simp] theorem done_search (v : Word) (s : State) : (done v s).search = s.search := rfl
@[simp] theorem done_owbuf (v : Word) (s : State) : (done v s).owbuf = s.owbuf := rfl
@[simp] theorem done_fsc (v : Word) (s : State) : (done v s).fsc = s.fsc := rfl
@[simp] theorem done_dbuf (v : Word) (s : State) : (done v s).dbuf = s.dbuf := rfl
@[simp] theorem done_inputs (v : Word) (s : State) : (done v s).inputs = s.inputs := rfl
@[simp] theorem done_hostData (v : Word) (s : State) : (done v s).hostData = s.hostData := rfl
@[simp] theorem done_freeCount (v : Word) (s : State) : (done v s).freeCount = s.freeCount := rfl

/-! ### `fail` -/

@[simp] theorem fail_cfg (e : ErrCode) (v : Word) (s : State) : (fail e v s).cfg = s.cfg := rfl
@[simp] theorem fail_cmd (e : ErrCode) (v : Word) (s : State) : (fail e v s).cmd = s.cmd := rfl
@[simp] theorem fail_busy (e : ErrCode) (v : Word) (s : State) : (fail e v s).busy = false := rfl
@[simp] theorem fail_ok (e : ErrCode) (v : Word) (s : State) : (fail e v s).ok = false := rfl
@[simp] theorem fail_err (e : ErrCode) (v : Word) (s : State) : (fail e v s).err = e := rfl
@[simp] theorem fail_res (e : ErrCode) (v : Word) (s : State) : (fail e v s).res = v := rfl
@[simp] theorem fail_timeHiLatch (e : ErrCode) (v : Word) (s : State) :
    (fail e v s).timeHiLatch = s.timeHiLatch := rfl
@[simp] theorem fail_timeHiLatched (e : ErrCode) (v : Word) (s : State) :
    (fail e v s).timeHiLatched = s.timeHiLatched := rfl
@[simp] theorem fail_line (e : ErrCode) (v : Word) (s : State) : (fail e v s).line = s.line := rfl
@[simp] theorem fail_addr (e : ErrCode) (v : Word) (s : State) : (fail e v s).addr = s.addr := rfl
@[simp] theorem fail_search (e : ErrCode) (v : Word) (s : State) : (fail e v s).search = s.search := rfl
@[simp] theorem fail_owbuf (e : ErrCode) (v : Word) (s : State) : (fail e v s).owbuf = s.owbuf := rfl
@[simp] theorem fail_fsc (e : ErrCode) (v : Word) (s : State) : (fail e v s).fsc = s.fsc := rfl
@[simp] theorem fail_dbuf (e : ErrCode) (v : Word) (s : State) : (fail e v s).dbuf = s.dbuf := rfl
@[simp] theorem fail_inputs (e : ErrCode) (v : Word) (s : State) : (fail e v s).inputs = s.inputs := rfl
@[simp] theorem fail_hostData (e : ErrCode) (v : Word) (s : State) :
    (fail e v s).hostData = s.hostData := rfl
@[simp] theorem fail_freeCount (e : ErrCode) (v : Word) (s : State) :
    (fail e v s).freeCount = s.freeCount := rfl

/-! ### `spend` -/

@[simp] theorem spend_cfg (s : State) : (spend s).cfg = s.cfg := rfl
@[simp] theorem spend_cmd (s : State) : (spend s).cmd = s.cmd := rfl
@[simp] theorem spend_busy (s : State) : (spend s).busy = s.busy := rfl
@[simp] theorem spend_ok (s : State) : (spend s).ok = s.ok := rfl
@[simp] theorem spend_err (s : State) : (spend s).err = s.err := rfl
@[simp] theorem spend_res (s : State) : (spend s).res = s.res := rfl
@[simp] theorem spend_timeHiLatch (s : State) : (spend s).timeHiLatch = s.timeHiLatch := rfl
@[simp] theorem spend_timeHiLatched (s : State) : (spend s).timeHiLatched = s.timeHiLatched := rfl
@[simp] theorem spend_line (s : State) :
    (spend s).line = { s.line with time := s.line.time + Config.commandTime s.freeCount } := rfl
@[simp] theorem spend_addr (s : State) : (spend s).addr = s.addr := rfl
@[simp] theorem spend_search (s : State) : (spend s).search = s.search := rfl
@[simp] theorem spend_owbuf (s : State) : (spend s).owbuf = s.owbuf := rfl
@[simp] theorem spend_fsc (s : State) : (spend s).fsc = s.fsc := rfl
@[simp] theorem spend_dbuf (s : State) : (spend s).dbuf = s.dbuf := rfl
@[simp] theorem spend_inputs (s : State) : (spend s).inputs = s.inputs := rfl
@[simp] theorem spend_hostData (s : State) : (spend s).hostData = s.hostData := rfl
@[simp] theorem spend_freeCount (s : State) : (spend s).freeCount = s.freeCount + 1 := rfl

/-! ### `accept` -/

@[simp] theorem accept_cfg (w : Word) (s : State) : (accept w s).cfg = s.cfg := rfl
@[simp] theorem accept_cmd (w : Word) (s : State) : (accept w s).cmd = w := rfl
@[simp] theorem accept_busy (w : Word) (s : State) : (accept w s).busy = true := rfl
@[simp] theorem accept_ok (w : Word) (s : State) : (accept w s).ok = s.ok := rfl
@[simp] theorem accept_err (w : Word) (s : State) : (accept w s).err = s.err := rfl
@[simp] theorem accept_res (w : Word) (s : State) : (accept w s).res = s.res := rfl
@[simp] theorem accept_timeHiLatch (w : Word) (s : State) : (accept w s).timeHiLatch = s.timeHiLatch := rfl
@[simp] theorem accept_timeHiLatched (w : Word) (s : State) :
    (accept w s).timeHiLatched = s.timeHiLatched := rfl
@[simp] theorem accept_line (w : Word) (s : State) : (accept w s).line = s.line := rfl
@[simp] theorem accept_addr (w : Word) (s : State) : (accept w s).addr = s.addr := rfl
@[simp] theorem accept_search (w : Word) (s : State) : (accept w s).search = s.search := rfl
@[simp] theorem accept_owbuf (w : Word) (s : State) : (accept w s).owbuf = s.owbuf := rfl
@[simp] theorem accept_fsc (w : Word) (s : State) : (accept w s).fsc = s.fsc := rfl
@[simp] theorem accept_dbuf (w : Word) (s : State) : (accept w s).dbuf = s.dbuf := rfl
@[simp] theorem accept_inputs (w : Word) (s : State) : (accept w s).inputs = s.inputs := rfl
@[simp] theorem accept_hostData (w : Word) (s : State) : (accept w s).hostData = s.hostData := rfl
@[simp] theorem accept_freeCount (w : Word) (s : State) : (accept w s).freeCount = s.freeCount := rfl

/-! ### `answer` -/

@[simp] theorem answer_cfg (v : Word) (s : State) : (answer v s).cfg = s.cfg := rfl
@[simp] theorem answer_cmd (v : Word) (s : State) : (answer v s).cmd = s.cmd := rfl
@[simp] theorem answer_busy (v : Word) (s : State) : (answer v s).busy = s.busy := rfl
@[simp] theorem answer_ok (v : Word) (s : State) : (answer v s).ok = s.ok := rfl
@[simp] theorem answer_err (v : Word) (s : State) : (answer v s).err = s.err := rfl
@[simp] theorem answer_res (v : Word) (s : State) : (answer v s).res = s.res := rfl
@[simp] theorem answer_timeHiLatch (v : Word) (s : State) : (answer v s).timeHiLatch = s.timeHiLatch := rfl
@[simp] theorem answer_timeHiLatched (v : Word) (s : State) :
    (answer v s).timeHiLatched = s.timeHiLatched := rfl
@[simp] theorem answer_line (v : Word) (s : State) : (answer v s).line = s.line := rfl
@[simp] theorem answer_addr (v : Word) (s : State) : (answer v s).addr = s.addr := rfl
@[simp] theorem answer_search (v : Word) (s : State) : (answer v s).search = s.search := rfl
@[simp] theorem answer_owbuf (v : Word) (s : State) : (answer v s).owbuf = s.owbuf := rfl
@[simp] theorem answer_fsc (v : Word) (s : State) : (answer v s).fsc = s.fsc := rfl
@[simp] theorem answer_dbuf (v : Word) (s : State) : (answer v s).dbuf = s.dbuf := rfl
@[simp] theorem answer_inputs (v : Word) (s : State) : (answer v s).inputs = s.inputs := rfl
@[simp] theorem answer_hostData (v : Word) (s : State) : (answer v s).hostData = v := rfl
@[simp] theorem answer_freeCount (v : Word) (s : State) : (answer v s).freeCount = s.freeCount := rfl

/-! ### `passTime` -/

@[simp] theorem passTime_cfg (n : Nat) (s : State) : (passTime n s).cfg = s.cfg := rfl
@[simp] theorem passTime_cmd (n : Nat) (s : State) : (passTime n s).cmd = s.cmd := rfl
@[simp] theorem passTime_busy (n : Nat) (s : State) : (passTime n s).busy = s.busy := rfl
@[simp] theorem passTime_ok (n : Nat) (s : State) : (passTime n s).ok = s.ok := rfl
@[simp] theorem passTime_err (n : Nat) (s : State) : (passTime n s).err = s.err := rfl
@[simp] theorem passTime_res (n : Nat) (s : State) : (passTime n s).res = s.res := rfl
@[simp] theorem passTime_timeHiLatch (n : Nat) (s : State) :
    (passTime n s).timeHiLatch = s.timeHiLatch := rfl
@[simp] theorem passTime_timeHiLatched (n : Nat) (s : State) :
    (passTime n s).timeHiLatched = s.timeHiLatched := rfl
@[simp] theorem passTime_line (n : Nat) (s : State) :
    (passTime n s).line = { s.line with time := s.line.time + n } := rfl
@[simp] theorem passTime_addr (n : Nat) (s : State) : (passTime n s).addr = s.addr := rfl
@[simp] theorem passTime_search (n : Nat) (s : State) : (passTime n s).search = s.search := rfl
@[simp] theorem passTime_owbuf (n : Nat) (s : State) : (passTime n s).owbuf = s.owbuf := rfl
@[simp] theorem passTime_fsc (n : Nat) (s : State) : (passTime n s).fsc = s.fsc := rfl
@[simp] theorem passTime_dbuf (n : Nat) (s : State) : (passTime n s).dbuf = s.dbuf := rfl
@[simp] theorem passTime_inputs (n : Nat) (s : State) : (passTime n s).inputs = s.inputs := rfl
@[simp] theorem passTime_hostData (n : Nat) (s : State) : (passTime n s).hostData = s.hostData := rfl
@[simp] theorem passTime_freeCount (n : Nat) (s : State) : (passTime n s).freeCount = s.freeCount := rfl

/-! ### `Fsc.device` -/

@[simp] theorem device_ready (c : Config) (e : FlashEvent) (f : Fsc) :
    (f.device c e).ready = f.ready := rfl
@[simp] theorem device_dir (c : Config) (e : FlashEvent) (f : Fsc) :
    (f.device c e).dir = f.dir := rfl
@[simp] theorem device_wp (c : Config) (e : FlashEvent) (f : Fsc) :
    (f.device c e).wp = f.wp := rfl
@[simp] theorem device_free (c : Config) (e : FlashEvent) (f : Fsc) :
    (f.device c e).free = f.free := rfl
@[simp] theorem device_crcerr (c : Config) (e : FlashEvent) (f : Fsc) :
    (f.device c e).crcerr = f.crcerr := rfl
@[simp] theorem device_listActive (c : Config) (e : FlashEvent) (f : Fsc) :
    (f.device c e).listActive = f.listActive := rfl
@[simp] theorem device_listId (c : Config) (e : FlashEvent) (f : Fsc) :
    (f.device c e).listId = f.listId := rfl
@[simp] theorem device_listPos (c : Config) (e : FlashEvent) (f : Fsc) :
    (f.device c e).listPos = f.listPos := rfl
@[simp] theorem device_listBase (c : Config) (e : FlashEvent) (f : Fsc) :
    (f.device c e).listBase = f.listBase := rfl
@[simp] theorem device_flash (c : Config) (e : FlashEvent) (f : Fsc) :
    (f.device c e).flash = applyFlashEvent c f.log.length e f.flash := rfl
@[simp] theorem device_log (c : Config) (e : FlashEvent) (f : Fsc) :
    (f.device c e).log = f.log ++ [e] := rfl
@[simp] theorem device_decay (c : Config) (e : FlashEvent) (f : Fsc) :
    (f.device c e).decay = f.decay := rfl

/-! ### `OneWire.pinAt` and `OneWire.finish` -/

@[simp] theorem pinAt_ppwr (x : PinState) (t : Nat) (l : OneWire) :
    (l.pinAt x t).ppwr = l.ppwr := by
  unfold OneWire.pinAt; split <;> rfl
@[simp] theorem pinAt_time (x : PinState) (t : Nat) (l : OneWire) :
    (l.pinAt x t).time = l.time := by
  unfold OneWire.pinAt; split <;> rfl
@[simp] theorem pinAt_bound (x : PinState) (t : Nat) (l : OneWire) :
    (l.pinAt x t).bound = l.bound := by
  unfold OneWire.pinAt; split <;> rfl
@[simp] theorem pinAt_pin (x : PinState) (t : Nat) (l : OneWire) :
    (l.pinAt x t).pin = l.pin := by
  unfold OneWire.pinAt; split <;> rfl
@[simp] theorem pinAt_slaves (x : PinState) (t : Nat) (l : OneWire) :
    (l.pinAt x t).slaves = l.slaves := by
  unfold OneWire.pinAt; split <;> rfl
@[simp] theorem pinAt_pinState (x : PinState) (t : Nat) (l : OneWire) :
    (l.pinAt x t).pinState = x := by
  unfold OneWire.pinAt; split <;> simp_all
theorem pinAt_same (x : PinState) (t : Nat) (l : OneWire) (h : l.pinState = x) :
    l.pinAt x t = l := by
  simp [OneWire.pinAt, h]
/-- A change of the pin appends exactly one event to the trace (R121). -/
theorem pinAt_trace_of_ne (x : PinState) (t : Nat) (l : OneWire) (h : l.pinState ≠ x) :
    (l.pinAt x t).trace = l.trace ++ [{ time := t, pin := l.pin, level := x }] := by
  simp [OneWire.pinAt, h]
@[simp] theorem finish_ppwr (l : OneWire) : l.finish.ppwr = l.ppwr := by
  simp [OneWire.finish]
@[simp] theorem finish_time (l : OneWire) : l.finish.time = l.time := by
  simp [OneWire.finish]
@[simp] theorem finish_bound (l : OneWire) : l.finish.bound = l.bound := by
  simp [OneWire.finish]
@[simp] theorem finish_pin (l : OneWire) : l.finish.pin = l.pin := by
  simp [OneWire.finish]
@[simp] theorem finish_slaves (l : OneWire) : l.finish.slaves = l.slaves := by
  simp [OneWire.finish]
/-- A line command leaves the pin in its idle state (R123). -/
@[simp] theorem finish_pinState (l : OneWire) : l.finish.pinState = l.idle := by
  simp [OneWire.finish]

end Sys2Proof.Machine
end

