-- ==== Sys2Proof/Laws/Guards.lean ====
section
/-! SUPPORT. What each check on operands and readiness can answer, said once (R93, R94, R97, R126, R151,
R195, R284): later proofs cite these and never unfold the checks. -/

namespace Sys2Proof.Machine

/-- `.next` is injective, with the sides turned round. -/
theorem next_eq_next (s t : State) : ((.next s : Result) = .next t) ↔ t = s := by
  simp only [Host.Outcome.next.injEq]
  exact eq_comm

theorem withBitOperand_next (a : Byte) (s t : State) (body : Bool → Result) :
    withBitOperand a s body = .next t ↔
      (OneBitOperand a ∧ body (a.getLsbD 0) = .next t) ∨
        (¬ OneBitOperand a ∧ t = fail .illegal 0 s) := by
  unfold withBitOperand
  split
  · next h => simp [h]
  · next h => simp only [h, not_false_eq_true, false_and, true_and, false_or, next_eq_next]

theorem withPin_next (s t : State) (body : Result) :
    withPin s body = .next t ↔
      (s.line.bound = true ∧ body = .next t) ∨
        (s.line.bound = false ∧ t = fail .notReady 0 s) := by
  unfold withPin
  cases s.line.bound with
  | true => simp
  | false => simp [next_eq_next, -Host.Outcome.next.injEq]

theorem withCount_next (need : Nat) (s t : State) (body : Result) :
    withCount need s body = .next t ↔
      (need ≤ s.cfg.owbufSize ∧ body = .next t) ∨
        (s.cfg.owbufSize < need ∧ t = fail .range 0 s) := by
  unfold withCount
  split
  · next h => simp [h, Nat.not_lt.mpr h]
  · next h => simp [h, Nat.lt_of_not_le h, next_eq_next, -Host.Outcome.next.injEq]

theorem withGeometry_next (s t : State) (body : State → Result) :
    withGeometry s body = .next t ↔ s.cfg.Valid ∧ body (spend s) = .next t := by
  unfold withGeometry
  split
  · next h => exact ⟨fun e => ⟨h, e⟩, And.right⟩
  · next h => exact ⟨fun e => (nomatch e), fun e => absurd e.1 h⟩

theorem withStore_next (s t : State) (body : State → Result) :
    withStore s body = .next t ↔
      s.cfg.Valid ∧
        ((s.fsc.ready = true ∧ body (spend s) = .next t) ∨
          (s.fsc.ready = false ∧ t = fail .notReady 0 (spend s))) := by
  rw [withStore, withGeometry_next]
  refine and_congr_right fun _ => ?_
  rw [spend_fsc]
  cases s.fsc.ready with
  | true => simp
  | false => simp [next_eq_next, -Host.Outcome.next.injEq]

theorem withFile_next (id : Byte) (s t : State) (body : State → Result) :
    withFile id s body = .next t ↔
      s.cfg.Valid ∧
        ((s.fsc.ready = true ∧
            ((id.toNat < s.cfg.n ∧ body (spend s) = .next t) ∨
              (s.cfg.n ≤ id.toNat ∧ t = fail .range 0 (spend s)))) ∨
          (s.fsc.ready = false ∧ t = fail .notReady 0 (spend s))) := by
  rw [withFile, withStore_next]
  refine and_congr_right fun _ => ?_
  rw [spend_cfg]
  split
  · next h => simp [h, Nat.not_le.mpr h]
  · next h => simp [h, Nat.le_of_not_lt h, next_eq_next, -Host.Outcome.next.injEq]

/-- The body of an FSC command on a file runs, on valid operands. -/
theorem withFile_runs (id : Byte) (s : State) (body : State → Result) (hc : s.cfg.Valid)
    (hr : s.fsc.ready = true) (hid : id.toNat < s.cfg.n) :
    withFile id s body = body (spend s) := by
  simp [withFile, withStore, withGeometry, hc, hr, hid]

/-- The body of an FSC command runs once the store is open. -/
theorem withStore_runs (s : State) (body : State → Result) (hc : s.cfg.Valid)
    (hr : s.fsc.ready = true) : withStore s body = body (spend s) := by
  simp [withStore, withGeometry, hc, hr]

end Sys2Proof.Machine
end

