-- ==== Sys2Proof/Laws/Memory.lean ====
section
/-! SUPPORT. The flash as a memory: every operation keeps the canonical form and the bound on listed
addresses, a read after a write gives the value written, and every other address is left alone. -/

namespace Sys2Proof.Machine

theorem wf_cons (k : Nat) (v : Byte) (m : Memory) :
    Memory.wf ((k, v) :: m) = true ↔ v ≠ erasedByte ∧ (∀ x ∈ m, k < x.1) ∧ Memory.wf m = true := by
  simp [Memory.wf, and_assoc]

/-- An address below every listed one reads as erased. -/
theorem read_of_below (m : Memory) (a : Nat) (h : ∀ x ∈ m, a < x.1) :
    Memory.read m a = erasedByte := by
  induction m with
  | nil => rfl
  | cons c rest ih =>
    obtain ⟨k, v⟩ := c
    have hk : a < k := h (k, v) (by simp)
    simp only [Memory.read, if_neg (Nat.ne_of_gt hk)]
    exact ih fun x hx => h x (by simp [hx])

/-- A written address is either listed before or the one written. -/
theorem mem_write (m : Memory) (a : Nat) (b : Byte) (x : Host.Cell) (h : x ∈ Memory.write m a b) :
    x ∈ m ∨ x = (a, b) := by
  induction m with
  | nil =>
    simp only [Memory.write] at h
    split at h <;> simp_all
  | cons c rest ih =>
    obtain ⟨k, v⟩ := c
    simp only [Memory.write] at h
    split at h
    · rcases List.mem_cons.mp h with h | h
      · simp [h]
      · rcases ih h with h | h <;> simp [h]
    · split at h
      · split at h
        · simp [h]
        · rcases List.mem_cons.mp h with h | h <;> simp [h]
      · split at h
        · exact .inl h
        · rcases List.mem_cons.mp h with h | h
          · exact .inr h
          · exact .inl h

/-- A write keeps the canonical form. -/
theorem wf_write (m : Memory) (a : Nat) (b : Byte) (h : Memory.wf m = true) :
    Memory.wf (Memory.write m a b) = true := by
  induction m with
  | nil =>
    simp only [Memory.write]
    split
    · rfl
    · next hb => simp [Memory.wf, hb]
  | cons c rest ih =>
    obtain ⟨k, v⟩ := c
    obtain ⟨hv, hlt, hrest⟩ := (wf_cons k v rest).mp h
    simp only [Memory.write]
    split
    · next hka =>
      refine (wf_cons _ _ _).mpr ⟨hv, fun x hx => ?_, ih hrest⟩
      rcases mem_write rest a b x hx with hx | hx
      · exact hlt x hx
      · simpa [hx] using hka
    · split
      · next hk =>
        split
        · exact hrest
        · next hb => exact (wf_cons _ _ _).mpr ⟨hb, fun x hx => hk ▸ hlt x hx, hrest⟩
      · split
        · exact h
        · next hb =>
          refine (wf_cons _ _ _).mpr ⟨hb, fun x hx => ?_, h⟩
          rcases List.mem_cons.mp hx with hx | hx
          · subst hx; simp only; omega
          · have := hlt x hx; omega

/-- A read at the written address gives the byte written. -/
theorem read_write_same (m : Memory) (a : Nat) (b : Byte) (h : Memory.wf m = true) :
    Memory.read (Memory.write m a b) a = b := by
  induction m with
  | nil =>
    simp only [Memory.write]
    split <;> simp_all [Memory.read]
  | cons c rest ih =>
    obtain ⟨k, v⟩ := c
    obtain ⟨-, hlt, hrest⟩ := (wf_cons k v rest).mp h
    simp only [Memory.write]
    split
    · next hka => simp only [Memory.read, if_neg (Nat.ne_of_lt hka)]; exact ih hrest
    · split
      · next hk =>
        split
        · next hb => rw [hb]; exact read_of_below rest a fun x hx => hk ▸ hlt x hx
        · simp [Memory.read]
      · next hka hk =>
        split
        · next hb =>
          rw [hb]
          refine read_of_below _ a fun x hx => ?_
          rcases List.mem_cons.mp hx with hx | hx
          · subst hx; simp only; omega
          · have := hlt x hx; omega
        · simp [Memory.read]

/-- A write leaves every other address alone. -/
theorem read_write_other (m : Memory) (a x : Nat) (b : Byte) (hx : x ≠ a) :
    Memory.read (Memory.write m a b) x = Memory.read m x := by
  induction m with
  | nil =>
    simp only [Memory.write]
    split <;> simp [Memory.read, hx.symm]
  | cons c rest ih =>
    obtain ⟨k, v⟩ := c
    simp only [Memory.write]
    split
    · simp [Memory.read, ih]
    · split
      · next hk =>
        subst hk
        split <;> simp [Memory.read, hx.symm]
      · split <;> simp [Memory.read, hx.symm]

theorem below_write (m : Memory) (a limit : Nat) (b : Byte) (h : Memory.below m limit = true)
    (ha : a < limit) : Memory.below (Memory.write m a b) limit = true := by
  simp only [Memory.below, List.all_eq_true, decide_eq_true_eq] at *
  intro x hx
  rcases mem_write m a b x hx with hx | hx
  · exact h x hx
  · simpa [hx] using ha

/-! ### Erasing a range -/

theorem wf_filter (m : Memory) (p : Host.Cell → Bool) (h : Memory.wf m = true) :
    Memory.wf (m.filter p) = true := by
  induction m with
  | nil => rfl
  | cons c rest ih =>
    obtain ⟨k, v⟩ := c
    obtain ⟨hv, hlt, hrest⟩ := (wf_cons k v rest).mp h
    simp only [List.filter_cons]
    split
    · exact (wf_cons _ _ _).mpr ⟨hv, fun x hx => hlt x (List.mem_of_mem_filter hx), ih hrest⟩
    · exact ih hrest

/-- Erasing keeps the canonical form. -/
theorem wf_eraseRange (m : Memory) (lo n : Nat) (h : Memory.wf m = true) :
    Memory.wf (Memory.eraseRange m lo n) = true := wf_filter m _ h

theorem below_eraseRange (m : Memory) (lo n limit : Nat) (h : Memory.below m limit = true) :
    Memory.below (Memory.eraseRange m lo n) limit = true := by
  simp only [Memory.below, Memory.eraseRange, List.all_eq_true, decide_eq_true_eq] at *
  exact fun x hx => h x (List.mem_of_mem_filter hx)

/-- What erasing a range does to one byte: 0xFF inside it, unchanged outside (R64). -/
theorem read_eraseRange (m : Memory) (lo n a : Nat) :
    Memory.read (Memory.eraseRange m lo n) a
      = if lo ≤ a ∧ a < lo + n then erasedByte else Memory.read m a := by
  induction m with
  | nil => simp [Memory.eraseRange, Memory.read]
  | cons c rest ih =>
    obtain ⟨k, v⟩ := c
    simp only [Memory.eraseRange, List.filter_cons] at ih ⊢
    split
    · next hk =>
      simp only [Memory.read]
      split
      · next hka =>
        subst hka
        rw [if_neg]
        simp only [Bool.or_eq_true, decide_eq_true_eq] at hk
        omega
      · exact ih
    · next hk =>
      rw [ih]
      simp only [Bool.or_eq_true, decide_eq_true_eq] at hk
      split
      · rfl
      · next ha =>
        rw [Memory.read, if_neg]
        intro hka
        omega

/-! ### Runs of bytes -/

theorem wf_writeBytes (bs : List Byte) : ∀ (m : Memory) (a : Nat), Memory.wf m = true →
    Memory.wf (Memory.writeBytes m a bs) = true := by
  induction bs with
  | nil => exact fun _ _ h => h
  | cons b rest ih => exact fun m a h => ih _ _ (wf_write m a b h)

theorem below_writeBytes (bs : List Byte) : ∀ (m : Memory) (a limit : Nat),
    Memory.below m limit = true → a + bs.length ≤ limit →
    Memory.below (Memory.writeBytes m a bs) limit = true := by
  induction bs with
  | nil => exact fun _ _ _ h _ => h
  | cons b rest ih =>
    intro m a limit h ha
    simp only [List.length_cons] at ha
    exact ih _ _ _ (below_write m a limit b h (by omega)) (by omega)

theorem wf_programBytes (event : Nat) (bs : List Byte) : ∀ (m : Memory) (a : Nat),
    Memory.wf m = true → Memory.wf (programBytes event m a bs) = true := by
  induction bs with
  | nil => exact fun _ _ h => h
  | cons b rest ih => exact fun m a h => ih _ _ (wf_write m a _ h)

theorem below_programBytes (event : Nat) (bs : List Byte) : ∀ (m : Memory) (a limit : Nat),
    Memory.below m limit = true → a + bs.length ≤ limit →
    Memory.below (programBytes event m a bs) limit = true := by
  induction bs with
  | nil => exact fun _ _ _ h _ => h
  | cons b rest ih =>
    intro m a limit h ha
    simp only [List.length_cons] at ha
    exact ih _ _ _ (below_write m a limit _ h (by omega)) (by omega)

theorem wf_programCutBytes (event : Nat) (bs : List Byte) : ∀ (m : Memory) (a : Nat),
    Memory.wf m = true → Memory.wf (programCutBytes event m a bs) = true := by
  induction bs with
  | nil => exact fun _ _ h => h
  | cons b rest ih => exact fun m a h => ih _ _ (wf_write m a _ h)

theorem below_programCutBytes (event : Nat) (bs : List Byte) : ∀ (m : Memory) (a limit : Nat),
    Memory.below m limit = true → a + bs.length ≤ limit →
    Memory.below (programCutBytes event m a bs) limit = true := by
  induction bs with
  | nil => exact fun _ _ _ h _ => h
  | cons b rest ih =>
    intro m a limit h ha
    simp only [List.length_cons] at ha
    exact ih _ _ _ (below_write m a limit _ h (by omega)) (by omega)

/-- A program call leaves every byte outside `a .. a+len-1` alone (R63). -/
theorem read_programBytes_other (event : Nat) (bs : List Byte) : ∀ (m : Memory) (a x : Nat),
    x < a ∨ a + bs.length ≤ x →
    Memory.read (programBytes event m a bs) x = Memory.read m x := by
  induction bs with
  | nil => exact fun _ _ _ _ => rfl
  | cons b rest ih =>
    intro m a x hx
    simp only [List.length_cons] at hx
    rw [programBytes, ih _ _ _ (by omega), read_write_other _ _ _ _ (by omega)]

/-- A program call over an erased byte stores the byte given (R63). -/
theorem read_programBytes_erased (event : Nat) (bs : List Byte) : ∀ (m : Memory) (a k : Nat),
    Memory.wf m = true → k < bs.length → Memory.read m (a + k) = erasedByte →
    Memory.read (programBytes event m a bs) (a + k) = bs.getD k erasedByte := by
  induction bs with
  | nil => intro m a k _ hk; simp at hk
  | cons b rest ih =>
    intro m a k hwf hk herased
    rw [programBytes]
    cases k with
    | zero =>
      rw [read_programBytes_other _ _ _ _ _ (by omega)]
      simp only [Nat.add_zero] at herased ⊢
      rw [read_write_same _ _ _ hwf]
      simp [programByte, herased]
    | succ k =>
      simp only [List.length_cons, Nat.add_lt_add_iff_right] at hk
      have hk' : a + (k + 1) = a + 1 + k := by omega
      rw [hk', ih _ _ _ (wf_write _ _ _ hwf) hk]
      · simp
      · rw [read_write_other _ _ _ _ (by omega), ← hk', herased]

/-- Every flash event keeps the canonical form. -/
theorem wf_applyFlashEvent (c : Config) (event : Nat) (e : FlashEvent) (m : Memory)
    (h : Memory.wf m = true) : Memory.wf (applyFlashEvent c event e m) = true := by
  cases e with
  | program a bytes => exact wf_programBytes _ _ _ _ h
  | erase p => exact wf_eraseRange _ _ _ h
  | programCut a bytes => exact wf_programCutBytes _ _ _ _ h
  | eraseCut p => exact wf_writeBytes _ _ _ h
  | upset a v =>
    simp only [applyFlashEvent]
    split
    · exact wf_write _ _ _ h
    · exact h

/-- Any sequence of flash events keeps the canonical form. -/
theorem wf_replayFlash (c : Config) (es : List FlashEvent) : ∀ (event : Nat) (m : Memory),
    Memory.wf m = true → Memory.wf (replayFlash c event es m) = true := by
  induction es with
  | nil => exact fun _ _ h => h
  | cons e rest ih => exact fun event m h => ih _ _ (wf_applyFlashEvent c event e m h)

/-- The flash after reset has the canonical form. -/
theorem wf_reset : Memory.wf State.reset.fsc.flash = true := rfl

/-! ### Reading sectors -/

@[simp] theorem flashRead_length (m : Memory) (a n : Nat) : (flashRead m a n).length = n := by
  simp [flashRead]

@[simp] theorem sectorAt_length (c : Config) (m : Memory) (i : Nat) :
    (sectorAt c m i).length = c.ss := by
  simp [sectorAt]

theorem flashRead_getD (m : Memory) (a n k : Nat) (d : Byte) (h : k < n) :
    (flashRead m a n).getD k d = Memory.read m (a + k) := by
  simp [flashRead, List.getD_eq_getElem?_getD, h]

/-- Reading a range depends only on the bytes in it. -/
theorem flashRead_congr (m m' : Memory) (a n : Nat)
    (h : ∀ k < n, Memory.read m (a + k) = Memory.read m' (a + k)) :
    flashRead m a n = flashRead m' a n := by
  simp only [flashRead]
  exact List.map_congr_left fun k hk => h k (List.mem_range.mp hk)

end Sys2Proof.Machine
end

