-- ==== Sys2Proof/Laws/Flash.lean ====
section
/-! SUPPORT. What each procedure of the FSC unit can do, said once (R201, R211, R217, R231, R232), and
the first facts about the scan. -/

namespace Sys2Proof.Machine

/-! ### Fields a procedure leaves alone -/

@[simp] theorem rescan_ready (c : Config) (f : Fsc) : (f.rescan c).ready = true := rfl
@[simp] theorem rescan_listActive (c : Config) (f : Fsc) : (f.rescan c).listActive = false := rfl
@[simp] theorem rescan_listId (c : Config) (f : Fsc) : (f.rescan c).listId = f.listId := rfl
@[simp] theorem rescan_listPos (c : Config) (f : Fsc) : (f.rescan c).listPos = f.listPos := rfl
@[simp] theorem rescan_listBase (c : Config) (f : Fsc) : (f.rescan c).listBase = f.listBase := rfl
@[simp] theorem rescan_decay (c : Config) (f : Fsc) : (f.rescan c).decay = f.decay := rfl

/-- A rescan makes exactly one block-device call, the erase of the page it names free (R206). -/
@[simp] theorem rescan_log (c : Config) (f : Fsc) :
    (f.rescan c).log = f.log ++ [.erase (f.rescan c).free] := rfl

/-- A rescan's only change of the flash is the erase of the page it names free (R206). -/
theorem rescan_flash (c : Config) (f : Fsc) :
    (f.rescan c).flash = Memory.eraseRange f.flash ((f.rescan c).free * c.ps) c.ps := rfl

/-- The directory and the error count of a rescan are those of the flash after its erase (R207). -/
theorem rescan_second_pass (c : Config) (f : Fsc) :
    (f.rescan c).dir = (scan c (f.rescan c).flash).dir ∧
      (f.rescan c).crcerr = (scan c (f.rescan c).flash).err := ⟨rfl, rfl⟩

/-- With no decay pending, nothing strikes between a rescan and the retried read. -/
theorem strike_of_no_decay (c : Config) (f : Fsc) (h : f.decay = []) : f.strike c = f := by
  obtain ⟨⟩ := f
  simp_all [Fsc.strike]

/-! ### The scan -/

@[simp] theorem scanSector_dir_length (c : Config) (i : Nat) (sec : List Byte) (a : Scan) :
    (a.sector c i sec).dir.length = a.dir.length := by
  unfold Scan.sector
  split
  · rfl
  · split
    · rfl
    · split <;> simp

@[simp] theorem scanUpTo_dir_length (c : Config) (m : Memory) (k : Nat) :
    (scanUpTo c m k).dir.length = c.n := by
  induction k with
  | zero => simp [scanUpTo, Scan.init]
  | succ k ih => simp [scanUpTo, ih]

@[simp] theorem rescan_dir_length (c : Config) (f : Fsc) : (f.rescan c).dir.length = c.n :=
  scanUpTo_dir_length c _ _

/-! ### The read path (R211) -/

/-- How a read can end: at the first look, or after one rescan (and what decays then). -/
theorem readProc_cases (c : Config) (id : Nat) (f : Fsc) :
    (f.lookup c id = .absent ∧ f.readProc c id = .notFound f) ∨
    (∃ i p, f.lookup c id = .valid i p ∧ f.readProc c id = .found i p f) ∨
    (f.lookup c id = .outside ∧ f.readProc c id = .outside) ∨
    (f.lookup c id = .invalid ∧
      ((((f.rescan c).strike c).lookup c id = .absent ∧
          f.readProc c id = .notFound ((f.rescan c).strike c)) ∨
        (∃ i p, ((f.rescan c).strike c).lookup c id = .valid i p ∧
          f.readProc c id = .found i p ((f.rescan c).strike c)) ∨
        (((f.rescan c).strike c).lookup c id = .outside ∧ f.readProc c id = .outside) ∨
        (((f.rescan c).strike c).lookup c id = .invalid ∧
          f.readProc c id = .crcFail ((f.rescan c).strike c)))) := by
  unfold Fsc.readProc
  cases h : f.lookup c id with
  | absent => simp
  | valid i p => simp
  | outside => simp
  | invalid =>
    cases h' : ((f.rescan c).strike c).lookup c id <;> simp [h']

/-- A directory entry inside the flash whose sector is valid is read as it stands (R211). -/
theorem lookup_valid (c : Config) (id i : Nat) (f : Fsc) (hd : f.dir.getD id none = some i)
    (hi : i < c.total) (hv : sectorValid (sectorAt c f.flash i) = true) :
    f.lookup c id = .valid i (sectorPayload (sectorAt c f.flash i)) := by
  simp only [Fsc.lookup, hd, if_pos hi, hv, if_true]

theorem lookup_absent (c : Config) (id : Nat) (f : Fsc) (hd : f.dir.getD id none = none) :
    f.lookup c id = .absent := by
  simp only [Fsc.lookup, hd]

/-! ### Append (R231, R232) -/

/-- How an append can end. -/
theorem append_cases (c : Config) (id : Nat) (tomb : Bool) (payload : List Byte) (f : Fsc) :
    (f.wp % c.spp ≠ 0 ∧ f.wp < c.total ∧
      f.append c id tomb payload = .written f.wp (f.appendDirect c id tomb payload)) ∨
    (∃ v, f.wp % c.spp = 0 ∧ f.free < c.pages ∧ selectVictim c f.dir f.free id = some v ∧
      f.append c id tomb payload =
        .written (f.free * c.spp) (f.appendDefrag c id tomb payload v)) ∨
    (f.wp % c.spp = 0 ∧ f.free < c.pages ∧ selectVictim c f.dir f.free id = none ∧
      f.append c id tomb payload = .full) ∨
    (((f.wp % c.spp ≠ 0 ∧ c.total ≤ f.wp) ∨ (f.wp % c.spp = 0 ∧ c.pages ≤ f.free)) ∧
      f.append c id tomb payload = .outside) := by
  by_cases h : f.wp % c.spp = 0
  · by_cases hf : f.free < c.pages
    · cases hv : selectVictim c f.dir f.free id with
      | none => exact .inr (.inr (.inl ⟨h, hf, rfl, by simp [Fsc.append, h, hf, hv]⟩))
      | some v => exact .inr (.inl ⟨v, h, hf, rfl, by simp [Fsc.append, h, hf, hv]⟩)
    · exact .inr (.inr (.inr ⟨.inr ⟨h, by omega⟩, by simp [Fsc.append, h, hf]⟩))
  · by_cases hw : f.wp < c.total
    · exact .inl ⟨h, hw, by simp [Fsc.append, h, hw]⟩
    · exact .inr (.inr (.inr ⟨.inl ⟨h, by omega⟩, by simp [Fsc.append, h, hw]⟩))

/-- A victim page is one of the pages other than the free page, with fewer than `SPP` live sectors of
other files (R233). -/
theorem selectVictim_some (c : Config) (dir : List (Option Nat)) (free id v : Nat)
    (h : selectVictim c dir free id = some v) :
    (∃ k, 1 ≤ k ∧ k < c.pages ∧ v = (free + k) % c.pages) ∧ liveCount c dir id v < c.spp := by
  unfold selectVictim at h
  refine ⟨?_, by simpa using List.find?_some h⟩
  obtain ⟨k, hk, rfl⟩ := List.mem_map.mp (List.mem_of_find?_eq_some h)
  exact ⟨k + 1, by omega, by have := List.mem_range.mp hk; omega, rfl⟩

/-- Copying one sector either changes nothing, or copies it to the write pointer, or drops it
(R235). -/
theorem copySector_cases (c : Config) (id i : Nat) (f : Fsc) :
    (liveOwner c f.dir id i = none ∧ f.copySector c id i = f) ∨
    (∃ j, liveOwner c f.dir id i = some j ∧ sectorValid (sectorAt c f.flash i) = true ∧
      f.copySector c id i =
        { f.device c (.program (c.secAddr f.wp) (sectorAt c f.flash i)) with
          dir := f.dir.set j (some f.wp), wp := f.wp + 1 }) ∨
    (∃ j, liveOwner c f.dir id i = some j ∧ sectorValid (sectorAt c f.flash i) = false ∧
      f.copySector c id i = { f with crcerr := satInc f.crcerr, dir := f.dir.set j none }) := by
  unfold Fsc.copySector
  cases h : liveOwner c f.dir id i with
  | none => simp
  | some j => cases hv : sectorValid (sectorAt c f.flash i) <;> simp [hv]

/-! ### Listing (R217) -/

/-- What copying a sector leaves alone (R235). -/
theorem copySector_keeps (c : Config) (id i : Nat) (f : Fsc) :
    (f.copySector c id i).ready = f.ready ∧ (f.copySector c id i).free = f.free ∧
      (f.copySector c id i).listActive = f.listActive ∧ (f.copySector c id i).listId = f.listId ∧
      (f.copySector c id i).listPos = f.listPos ∧ (f.copySector c id i).listBase = f.listBase ∧
      (f.copySector c id i).decay = f.decay ∧ (f.copySector c id i).dir.length = f.dir.length := by
  obtain ⟨-, h⟩ | ⟨j, -, -, h⟩ | ⟨j, -, -, h⟩ := copySector_cases c id i f <;> simp [h, Fsc.device]

/-- What copying a page forward leaves alone (R235). -/
theorem copyForward_keeps (c : Config) (v id k : Nat) (f : Fsc) :
    (f.copyForward c v id k).ready = f.ready ∧ (f.copyForward c v id k).free = f.free ∧
      (f.copyForward c v id k).listActive = f.listActive ∧
      (f.copyForward c v id k).listId = f.listId ∧ (f.copyForward c v id k).listPos = f.listPos ∧
      (f.copyForward c v id k).listBase = f.listBase ∧ (f.copyForward c v id k).decay = f.decay ∧
      (f.copyForward c v id k).dir.length = f.dir.length := by
  induction k with
  | zero => simp [Fsc.copyForward]
  | succ k ih =>
    have h := copySector_keeps c id (v * c.spp + k) (f.copyForward c v id k)
    simp only [Fsc.copyForward]
    simp_all

/-- One step of a listing visits no sector that it yields but the last. -/
theorem listStep_some (c : Config) (count : Nat) : ∀ (f g : Fsc) (i : Nat),
    f.listStep c count = (some i, g) →
      ∃ k < count, i = (f.listBase + (f.listPos + k)) % c.total ∧
        sectorListed f.listId.toNat (sectorAt c f.flash i) = true ∧
        (∀ x < k, sectorListed f.listId.toNat
          (sectorAt c f.flash ((f.listBase + (f.listPos + x)) % c.total)) = false) ∧
        g = { f with listPos := f.listPos + k + 1 } := by
  induction count with
  | zero => intro f g i h; simp [Fsc.listStep] at h
  | succ count ih =>
    intro f g i h
    simp only [Fsc.listStep] at h
    split at h
    · next hl =>
      simp only [Prod.mk.injEq, Option.some.injEq] at h
      obtain ⟨rfl, rfl⟩ := h
      exact ⟨0, by omega, by simp, by simpa using hl, fun x hx => by omega, rfl⟩
    · next hl =>
      obtain ⟨k, hk, hi, hlist, hskip, hg⟩ := ih _ _ _ h
      refine ⟨k + 1, by omega, ?_, hlist, fun x hx => ?_, ?_⟩
      · rw [hi]; congr 1; simp only; omega
      · cases x with
        | zero => simpa using hl
        | succ x =>
          have := hskip x (by omega)
          simpa [Nat.add_assoc, Nat.add_comm, Nat.add_left_comm] using this
      · rw [hg]; simp only [Fsc.mk.injEq, and_true, true_and]; omega

/-- A listing that ends has met no further sector of its file, and is no longer active. -/
theorem listStep_none (c : Config) (count : Nat) : ∀ (f g : Fsc),
    f.listStep c count = (none, g) →
      (∀ x < count, sectorListed f.listId.toNat
        (sectorAt c f.flash ((f.listBase + (f.listPos + x)) % c.total)) = false) ∧
      g = { f with listPos := f.listPos + count, listActive := false } := by
  induction count with
  | zero =>
    intro f g h
    simp only [Fsc.listStep, Prod.mk.injEq, true_and] at h
    exact ⟨fun x hx => by omega, by rw [← h]; rfl⟩
  | succ count ih =>
    intro f g h
    simp only [Fsc.listStep] at h
    split at h
    · simp at h
    · next hl =>
      obtain ⟨hskip, hg⟩ := ih _ _ h
      refine ⟨fun x hx => ?_, ?_⟩
      · cases x with
        | zero => simpa using hl
        | succ x =>
          have := hskip x (by omega)
          simpa [Nat.add_assoc, Nat.add_comm, Nat.add_left_comm] using this
      · rw [hg]; simp only [Fsc.mk.injEq, and_true, true_and]; omega

/-! ### Replaying the flash -/

theorem replayFlash_append (c : Config) (es₁ es₂ : List FlashEvent) : ∀ (event : Nat) (m : Memory),
    replayFlash c event (es₁ ++ es₂) m
      = replayFlash c (event + es₁.length) es₂ (replayFlash c event es₁ m) := by
  induction es₁ with
  | nil => intro event m; rfl
  | cons e rest ih =>
    intro event m
    simp only [List.cons_append, replayFlash, List.length_cons, ih]
    congr 1
    omega

end Sys2Proof.Machine
end

