-- ==== Sys2Proof/Laws/Line.lean ====
section
/-! SUPPORT. What each procedure on the 1-Wire line can do, said once: the sampling loop, the
preamble, one write slot, one read slot and the reset (R121 to R130). -/

namespace Sys2Proof.Machine

/-! ### Sampling -/

/-- The line sampled at the first of `count` instants from `t` on that shows the level wanted. -/
theorem firstAt_some (want : Bool) (l : OneWire) (count : Nat) : ∀ (t r : Nat),
    l.firstAt want t count = some r ↔
      t ≤ r ∧ r < t + count ∧ l.level r = want ∧ ∀ x, t ≤ x → x < r → l.level x ≠ want := by
  induction count with
  | zero => intro t r; simp [OneWire.firstAt]; omega
  | succ count ih =>
    intro t r
    simp only [OneWire.firstAt]
    split
    · next h =>
      constructor
      · intro e
        cases e
        exact ⟨Nat.le_refl _, by omega, h, fun x h1 h2 => by omega⟩
      · rintro ⟨h1, -, -, h4⟩
        by_contra hne
        have htr : t < r := by
          rcases Nat.lt_or_ge t r with hl | hl
          · exact hl
          · exact absurd (congrArg some (Nat.le_antisymm h1 hl)) hne
        exact h4 t (Nat.le_refl _) htr h
    · next h =>
      rw [ih]
      constructor
      · rintro ⟨h1, h2, h3, h4⟩
        refine ⟨by omega, by omega, h3, fun x hx1 hx2 => ?_⟩
        rcases Nat.eq_or_lt_of_le hx1 with hx | hx
        · exact hx ▸ h
        · exact h4 x hx hx2
      · rintro ⟨h1, h2, h3, h4⟩
        have htr : t ≠ r := fun e => h (e ▸ h3)
        exact ⟨by omega, by omega, h3, fun x hx1 hx2 => h4 x (by omega) hx2⟩

/-- No instant of the window shows the level wanted. -/
theorem firstAt_none (want : Bool) (l : OneWire) (count : Nat) : ∀ t : Nat,
    l.firstAt want t count = none ↔ ∀ x, t ≤ x → x < t + count → l.level x ≠ want := by
  induction count with
  | zero => intro t; simp [OneWire.firstAt]; omega
  | succ count ih =>
    intro t
    simp only [OneWire.firstAt]
    split
    · next h =>
      refine ⟨fun e => (nomatch e), fun hx => absurd h (hx t (Nat.le_refl _) (by omega))⟩
    · next h =>
      rw [ih]
      constructor
      · intro hx x h1 h2
        rcases Nat.eq_or_lt_of_le h1 with he | hl
        · exact he ▸ h
        · exact hx x hl (by omega)
      · exact fun hx x h1 h2 => hx x (by omega) (by omega)

/-- A released line shows what the slaves leave of it (R122). -/
theorem level_released (l : OneWire) (t : Nat) (h : l.pinState = .rel) :
    l.level t = !slaveLow l.slaves t := by
  simp [OneWire.level, h]

theorem level_driven_low (l : OneWire) (t : Nat) (h : l.pinState = .low) : l.level t = false := by
  simp [OneWire.level, h]

/-! ### Releasing the pin (R123 a) -/

@[simp] theorem release_ppwr (l : OneWire) : l.release.ppwr = l.ppwr := by
  unfold OneWire.release; split <;> simp
@[simp] theorem release_time (l : OneWire) : l.release.time = l.time := by
  unfold OneWire.release; split <;> simp
@[simp] theorem release_bound (l : OneWire) : l.release.bound = l.bound := by
  unfold OneWire.release; split <;> simp
@[simp] theorem release_pin (l : OneWire) : l.release.pin = l.pin := by
  unfold OneWire.release; split <;> simp
@[simp] theorem release_slaves (l : OneWire) : l.release.slaves = l.slaves := by
  unfold OneWire.release; split <;> simp

theorem release_of_rel (l : OneWire) (h : l.pinState = .rel) : l.release = l := by
  simp [OneWire.release, h]

/-- A pin in its idle state is released by the first act of a line command (R123). -/
theorem release_pinState_of_idle (l : OneWire) (h : l.pinState = l.idle) :
    l.release.pinState = .rel := by
  unfold OneWire.release
  split
  · simp
  · next hh =>
    rw [h] at hh ⊢
    unfold OneWire.idle at hh ⊢
    split at hh <;> simp_all

/-! ### The preamble (R125) and the slots (R128 to R130) -/

/-- The preamble either fails `T_BUSY` after its start, the line never high at a sampled instant, or
drives the pin low `T_LEAD` after the first high sample. -/
theorem preamble_cases (tm : Timing) (l : OneWire) :
    (l.preamble tm = .busBusy { l.release with time := l.time + tm.tBusy } ∧
      ∀ x, l.time ≤ x → x ≤ l.time + tm.tBusy → l.release.level x = false) ∨
    (∃ tr, l.time ≤ tr ∧ tr ≤ l.time + tm.tBusy ∧ l.release.level tr = true ∧
      (∀ x, l.time ≤ x → x < tr → l.release.level x = false) ∧
      l.preamble tm = .ran (tr + tm.tLead) (l.release.pinAt .low (tr + tm.tLead))) := by
  unfold OneWire.preamble OneWire.waitRelease
  cases h : l.release.firstAt true l.time (tm.tBusy + 1) with
  | none =>
    refine .inl ⟨rfl, fun x h1 h2 => ?_⟩
    simpa using (firstAt_none _ _ _ _).mp h x h1 (by omega)
  | some tr =>
    obtain ⟨h1, h2, h3, h4⟩ := (firstAt_some _ _ _ _ _).mp h
    exact .inr ⟨tr, h1, by omega, h3, fun x hx1 hx2 => by simpa using h4 x hx1 hx2, rfl⟩

/-- On a line that is released and free at the start, the preamble's falling edge is `T_LEAD` later. -/
theorem preamble_free (tm : Timing) (l : OneWire) (hidle : l.release.pinState = .rel)
    (hfree : slaveLow l.slaves l.time = false) :
    l.preamble tm = .ran (l.time + tm.tLead) (l.release.pinAt .low (l.time + tm.tLead)) := by
  unfold OneWire.preamble OneWire.waitRelease
  simp [OneWire.firstAt, level_released _ _ hidle, hfree]

/-- What one write slot does, given its preamble (R129). -/
theorem writeSlot_of_preamble (tm : Timing) (v : Bool) (l l₁ : OneWire) (tf : Nat)
    (h : l.preamble tm = .ran tf l₁) :
    l.writeSlot tm v =
      .ran () { l₁.pinAt .rel (tf + if v then tm.tW1l else tm.tW0l) with
        time := tf + (if v then tm.tW1l else tm.tW0l) + if v then tm.tW1h else tm.tW0h } := by
  simp [OneWire.writeSlot, h]

/-- A slot whose preamble fails ends there (R150). -/
theorem writeSlot_of_busy (tm : Timing) (v : Bool) (l l₁ : OneWire)
    (h : l.preamble tm = .busBusy l₁) : l.writeSlot tm v = .busBusy l₁ := by
  simp [OneWire.writeSlot, h]

/-- What one read slot does, given its preamble (R130). -/
theorem readSlot_of_preamble (tm : Timing) (l l₁ : OneWire) (tf : Nat)
    (h : l.preamble tm = .ran tf l₁) :
    l.readSlot tm =
      .ran (!slaveLow l₁.slaves (tf + tm.tRdl + tm.tRds))
        { l₁.pinAt .rel (tf + tm.tRdl) with time := tf + tm.tRdslot } := by
  simp [OneWire.readSlot, h, level_released]

/-- A slot whose preamble fails ends there (R150). -/
theorem readSlot_of_busy (tm : Timing) (l l₁ : OneWire) (h : l.preamble tm = .busBusy l₁) :
    l.readSlot tm = .busBusy l₁ := by
  simp [OneWire.readSlot, h]

/-- What a reset does, given its preamble (R128). -/
theorem resetBody_of_preamble (tm : Timing) (l l₁ : OneWire) (tf : Nat)
    (h : l.preamble tm = .ran tf l₁) :
    (l.resetBody tm).2 =
        { l₁.pinAt .rel (tf + tm.tRstl) with time := tf + tm.tRstl + tm.tRsth } ∧
      ((l.resetBody tm).1 = .none ∨ (l.resetBody tm).1 = .noPresence ∨
        (l.resetBody tm).1 = .busBusy) := by
  simp only [OneWire.resetBody, h]
  split
  · exact ⟨rfl, .inr (.inl rfl)⟩
  · split
    · exact ⟨rfl, .inr (.inr rfl)⟩
    · exact ⟨rfl, .inl rfl⟩

end Sys2Proof.Machine
end

