-- ==== Sys2Proof/Laws/PerInstr.lean ====
section
/-! SUPPORT. Facts about every instruction, one lemma per constructor. The family `EncodedFields` says
where the encoder puts the opcode and the operand and that the reserved bits are zero (R90). -/

namespace Sys2Proof.Laws

/-- The three fields of a command word made from an opcode and an operand (R90, R102). -/
theorem word_fields (opc a : Byte) :
    wordOpc (opc.setWidth 32 + (a.setWidth 32 <<< 8)) = opc ∧
      wordOperand (opc.setWidth 32 + (a.setWidth 32 <<< 8)) = a ∧
      wordReserved (opc.setWidth 32 + (a.setWidth 32 <<< 8)) = 0 := by
  have hopc := opc.isLt
  have ha := a.isLt
  refine ⟨?_, ?_, ?_⟩ <;> apply BitVec.eq_of_toNat_eq <;>
    simp [wordOpc, wordOperand, wordReserved, BitVec.toNat_add, Nat.shiftRight_eq_div_pow,
      Nat.shiftLeft_eq] <;> omega

/-- The encoded word has the instruction's opcode in bits 7:0, its operand in bits 15:8 and zeros
above. -/
def EncodedFields.Statement (i : Instr) : Prop :=
  wordOpc (encode i) = i.opcode ∧ wordOperand (encode i) = i.operand ∧ wordReserved (encode i) = 0

theorem EncodedFields.owBegin (pin : Byte) : EncodedFields.Statement (.owBegin pin) := word_fields _ _
theorem EncodedFields.owReset : EncodedFields.Statement .owReset := word_fields _ _
theorem EncodedFields.owWriteBit (v : Byte) : EncodedFields.Statement (.owWriteBit v) := word_fields _ _
theorem EncodedFields.owReadBit : EncodedFields.Statement .owReadBit := word_fields _ _
theorem EncodedFields.owWrite (b : Byte) : EncodedFields.Statement (.owWrite b) := word_fields _ _
theorem EncodedFields.owWriteBytes (n : Byte) : EncodedFields.Statement (.owWriteBytes n) :=
  word_fields _ _
theorem EncodedFields.owRead : EncodedFields.Statement .owRead := word_fields _ _
theorem EncodedFields.owReadBytes (n : Byte) : EncodedFields.Statement (.owReadBytes n) :=
  word_fields _ _
theorem EncodedFields.owSelect : EncodedFields.Statement .owSelect := word_fields _ _
theorem EncodedFields.owSelectAll : EncodedFields.Statement .owSelectAll := word_fields _ _
theorem EncodedFields.owSearchBegin : EncodedFields.Statement .owSearchBegin := word_fields _ _
theorem EncodedFields.owSearchBeginFam (family : Byte) :
    EncodedFields.Statement (.owSearchBeginFam family) := word_fields _ _
theorem EncodedFields.owSearch (alertOnly : Byte) : EncodedFields.Statement (.owSearch alertOnly) :=
  word_fields _ _
theorem EncodedFields.crc8 (n : Byte) : EncodedFields.Statement (.crc8 n) := word_fields _ _
theorem EncodedFields.crc16 (n : Byte) : EncodedFields.Statement (.crc16 n) := word_fields _ _
theorem EncodedFields.checkCrc16 (n : Byte) : EncodedFields.Statement (.checkCrc16 n) :=
  word_fields _ _
theorem EncodedFields.fsBegin : EncodedFields.Statement .fsBegin := word_fields _ _
theorem EncodedFields.fsWriteFile (id : Byte) : EncodedFields.Statement (.fsWriteFile id) :=
  word_fields _ _
theorem EncodedFields.fsUpdateFile (id : Byte) : EncodedFields.Statement (.fsUpdateFile id) :=
  word_fields _ _
theorem EncodedFields.fsEraseFile (id : Byte) : EncodedFields.Statement (.fsEraseFile id) :=
  word_fields _ _
theorem EncodedFields.fsReadFile (id : Byte) : EncodedFields.Statement (.fsReadFile id) :=
  word_fields _ _
theorem EncodedFields.fsCrcerr : EncodedFields.Statement .fsCrcerr := word_fields _ _
theorem EncodedFields.fsListFirst (id : Byte) : EncodedFields.Statement (.fsListFirst id) :=
  word_fields _ _
theorem EncodedFields.fsListNext : EncodedFields.Statement .fsListNext := word_fields _ _

end Sys2Proof.Laws
end

