-- ==== Sys2Proof/Laws/Step.lean ====
section
/-! SUPPORT. What issuing a command and one step can do, said once (R22, R91, R93). -/

namespace Sys2Proof.Machine

/-- A word written to `CMD` is ignored while a command executes, runs as the command it decodes to, or
is illegal. -/
theorem issue_cases (w : Word) (s : State) :
    (s.busy = true ∧ issue w s = .next s) ∨
    (∃ i, s.busy = false ∧ decode w = .ok i ∧ issue w s = exec i (accept w s)) ∨
    (∃ e, s.busy = false ∧ decode w = .error e ∧
      issue w s = .next (fail .illegal 0 (accept w s))) := by
  unfold issue
  cases hb : s.busy with
  | true => simp
  | false => cases hd : decode w <;> simp

/-- A step is one input, or one idle microsecond when there is none. -/
theorem step_cases (s : State) :
    (s.inputs = [] ∧ step s = .next (passTime 1 s)) ∨
    (∃ e rest, s.inputs = e :: rest ∧ step s = handle e { s with inputs := rest }) := by
  unfold step
  cases h : s.inputs <;> simp

/-- Losing power during a command gives a next state exactly when the command does: everything volatile
is reset over the cut sequence of flash events (R72). -/
theorem issueCut_next (w : Word) (cut : PowerCut) (s u : State) :
    issueCut w cut s = .next u ↔
      ∃ t, issue w s = .next t ∧
        u = powerCycle
          (replayFlash s.cfg s.fsc.log.length
            (cutEvents cut (t.fsc.log.drop s.fsc.log.length)) s.fsc.flash)
          (s.fsc.log ++ cutEvents cut (t.fsc.log.drop s.fsc.log.length))
          { s with freeCount := t.freeCount, fsc := { s.fsc with decay := t.fsc.decay } } := by
  unfold issueCut
  cases issue w s <;> simp [eq_comm]

end Sys2Proof.Machine
end

