-- ==== Sys2Proof/Tests/Slice0.lean ====
section
/-! SUPPORT. The author's own checks: ill-formed terms refused, decoding of words written out from
R90 and R92, one-step instances of the spec's vectors (95_test_vectors.md, cited as V1 to V46) and, for
every obligation with hypotheses, a witness that meets them. -/

set_option Elab.async false

namespace Sys2Proof.Tests

open Sys2Proof Sys2Proof.Machine

/-! ### Small states -/

/-- The state an outcome goes on to. -/
def next (o : Result) : State :=
  match o with
  | .next t => t
  | .fault _ => State.reset
  | .refused _ => State.reset

/-- The state after command `i`. -/
def after (i : Instr) (s : State) : State := next (exec i s)

/-- Pin 4 bound at time 0, with a slave low in the given intervals. -/
def wired (slaves : List (Nat × Nat)) : State :=
  { State.reset with
    line := { OneWire.reset with bound := true, pin := 4, slaves := slaves } }

/-- The same with parasitic power: the pin rests driven high. -/
def powered (slaves : List (Nat × Nat)) : State :=
  { State.reset with
    line := { OneWire.reset with
      bound := true, pin := 4, slaves := slaves, ppwr := true, pinState := .high } }

/-- `OWBUF` holding the given bytes. -/
def buffered (bytes : List Byte) : State :=
  { State.reset with owbuf := bytes ++ List.replicate (32 - bytes.length) 0 }

/-- The small configuration of V40: 4 pages of 4 sectors of 4 bytes. -/
def small : Config := { sds := 2, n := 2, ps := 16, es := 64, eraseSize := 16 }

/-- The small configuration at power-on over blank flash. -/
def blank : State := State.powerOn small [] []

/-- The small store over sectors of files 0 and 1 in page 0 (V40 step 2). -/
def stored : State :=
  { blank with
    fsc := { blank.fsc with
      flash := [⟨0, 0x00⟩, ⟨1, 0xB0⟩, ⟨2, 0xA0⟩, ⟨3, 0x01⟩, ⟨4, 0x01⟩, ⟨5, 0xF7⟩, ⟨6, 0xB0⟩, ⟨7, 0x01⟩]
      ready := true, dir := [some 0, some 1], wp := 2, free := 1 }
    dbuf := [0xA0, 0x02] }

/-- The same store with its write pointer at a page boundary and page 0 the next victim. -/
def boundary : State := { stored with fsc := { stored.fsc with wp := 4, free := 3 } }

/-- The same store with file 0 deleted. -/
def absent0 : State := { stored with fsc := { stored.fsc with dir := [none, some 1] } }

/-- The same store with a decayed payload byte in file 1's sector. -/
def decayed : State :=
  { stored with fsc := { stored.fsc with flash :=
      [⟨0, 0x00⟩, ⟨1, 0xB0⟩, ⟨2, 0xA0⟩, ⟨3, 0x01⟩, ⟨4, 0x01⟩, ⟨5, 0xF7⟩, ⟨6, 0xB1⟩, ⟨7, 0x01⟩] } }

/-- The boundary store with file 1's sector decayed, so that defragmentation drops it. -/
def dropping : State := { decayed with fsc := { decayed.fsc with wp := 4, free := 3 } }

/-- Flash with a sector in the first place of every page of `small` and free sectors behind. -/
def headless : Memory := [⟨0, 0⟩, ⟨16, 0⟩, ⟨32, 0⟩, ⟨48, 0⟩]

/-- Three pages of one sector, and flash with no free sector for it. -/
def tiny : Config := { sds := 1, n := 1, ps := 3, es := 9, eraseSize := 3 }

/-- Three valid sectors of file 0. -/
def full : Memory :=
  [⟨0, 0⟩, ⟨1, 0⟩, ⟨2, 0⟩, ⟨3, 0⟩, ⟨4, 0⟩, ⟨5, 0⟩, ⟨6, 0⟩, ⟨7, 0⟩, ⟨8, 0⟩]

/-- A line that answers a reset and then every search position with 0 (`both`: with 0 0). -/
def answering (both : Bool) : State :=
  wired ((520, 640) :: (List.range 64).flatMap fun k =>
    (1610 + 220 * k + 20, 1610 + 220 * k + 30) ::
      (if both then [(1610 + 220 * k + 90, 1610 + 220 * k + 100)] else []))

/-- The outcome goes on. -/
def goesOn (o : Result) : Bool :=
  match o with
  | .next _ => true
  | .fault _ => false
  | .refused _ => false

theorem eq_next_of_goesOn (o : Result) (h : goesOn o = true) : o = .next (next o) := by
  cases o with
  | next t => rfl
  | fault f => cases h
  | refused r => cases h

/-! ### Well-formedness -/

theorem test_write_bit_two_is_ill_formed : ¬ (Instr.owWriteBit 2).WellFormed := by decide
theorem test_search_two_is_ill_formed : ¬ (Instr.owSearch 2).WellFormed := by decide
theorem test_write_bit_one_is_well_formed : (Instr.owWriteBit 1).WellFormed := by decide

/-! ### Decoding: words written out bit by bit from R90 and R92 (zero, `A`, `OPC`) -/

theorem test_decode_ow_begin : decode 0b0000000000000000_00000111_00000001 = .ok (.owBegin 7) := by
  decide
theorem test_decode_ow_reset : decode 0b0000000000000000_00000000_00000010 = .ok .owReset := by decide
theorem test_decode_ow_write_bit :
    decode 0b0000000000000000_00000001_00000011 = .ok (.owWriteBit 1) := by decide
theorem test_decode_ow_read_bit :
    decode 0b0000000000000000_00000000_00000100 = .ok .owReadBit := by decide
theorem test_decode_ow_write : decode 0b0000000000000000_11110000_00000101 = .ok (.owWrite 0xF0) := by
  decide
theorem test_decode_ow_write_bytes :
    decode 0b0000000000000000_00100001_00000110 = .ok (.owWriteBytes 33) := by decide
theorem test_decode_ow_read : decode 0b0000000000000000_00000000_00000111 = .ok .owRead := by decide
theorem test_decode_ow_read_bytes :
    decode 0b0000000000000000_00001001_00001000 = .ok (.owReadBytes 9) := by decide
theorem test_decode_ow_select : decode 0b0000000000000000_00000000_00001001 = .ok .owSelect := by decide
theorem test_decode_ow_select_all :
    decode 0b0000000000000000_00000000_00001010 = .ok .owSelectAll := by decide
theorem test_decode_ow_search_begin :
    decode 0b0000000000000000_00000000_00010000 = .ok .owSearchBegin := by decide
theorem test_decode_ow_search_begin_fam :
    decode 0b0000000000000000_00101000_00010001 = .ok (.owSearchBeginFam 0x28) := by decide
theorem test_decode_ow_search :
    decode 0b0000000000000000_00000001_00010010 = .ok (.owSearch 1) := by decide
theorem test_decode_crc8 : decode 0b0000000000000000_00001001_00100000 = .ok (.crc8 9) := by decide
theorem test_decode_crc16 : decode 0b0000000000000000_00001001_00100001 = .ok (.crc16 9) := by decide
theorem test_decode_check_crc16 :
    decode 0b0000000000000000_00011111_00100010 = .ok (.checkCrc16 31) := by decide
theorem test_decode_fs_begin : decode 0b0000000000000000_00000000_01000000 = .ok .fsBegin := by decide
theorem test_decode_fs_write_file :
    decode 0b0000000000000000_00001111_01000001 = .ok (.fsWriteFile 15) := by decide
theorem test_decode_fs_update_file :
    decode 0b0000000000000000_00000010_01000010 = .ok (.fsUpdateFile 2) := by decide
theorem test_decode_fs_erase_file :
    decode 0b0000000000000000_00000010_01000011 = .ok (.fsEraseFile 2) := by decide
theorem test_decode_fs_read_file :
    decode 0b0000000000000000_00000001_01000100 = .ok (.fsReadFile 1) := by decide
theorem test_decode_fs_crcerr : decode 0b0000000000000000_00000000_01000101 = .ok .fsCrcerr := by decide
theorem test_decode_fs_list_first :
    decode 0b0000000000000000_00000001_01000110 = .ok (.fsListFirst 1) := by decide
theorem test_decode_fs_list_next :
    decode 0b0000000000000000_00000000_01000111 = .ok .fsListNext := by decide

/-- R93: reserved bits set, opcode 0, opcode in a gap, operand of format N, one-bit operand of 2. -/
theorem test_decode_illegal :
    decode 0x00010005 = .error .reservedBits ∧ decode 0 = .error (.reservedOpcode 0) ∧
    decode 0x0000000B = .error (.reservedOpcode 0x0B) ∧
    decode 0x00000140 = .error (.operandNotZero 0x40 1) ∧
    decode 0x00000203 = .error (.operandTooLarge 3 2) := by decide
/-- The table word of `OW_BEGIN` runs as the first command after reset. -/
theorem test_fetch_word :
    decodeTableWord 32 0x701 = some (.owBegin 7) ∧
    (next (step (State.reset.withFetchWord 32 0x701))).line.pin = 7 := by decide

/-! ### One command each (expected values from R127 to R240 and section 2 of the vectors) -/

/-- R127's example. -/
theorem test_ow_begin :
    (after (.owBegin 7) State.reset).line.trace = [⟨0, 7, .rel⟩] ∧
    (after (.owBegin 7) State.reset).line.bound = true := by decide
/-- V6 and V8. -/
theorem test_ow_reset_presence :
    (after .owReset (wired [(520, 640)])).res = 1 ∧
    (after .owReset (wired [(520, 640)])).line.time = 970 ∧
    (after .owReset (wired [(561, 700)])).err = .noPresence := by decide +kernel
/-- V9 and V10: the deadline. -/
theorem test_ow_reset_deadline :
    (after .owReset (wired [(520, 970)])).ok = true ∧
    (after .owReset (wired [(520, 971)])).err = .busBusy := by decide +kernel
/-- V3 and V4. -/
theorem test_ow_write_bit :
    (after (.owWriteBit 1) (wired [])).line.trace = [⟨10, 4, .low⟩, ⟨16, 4, .rel⟩] ∧
    (after (.owWriteBit 0) (wired [])).line.trace = [⟨10, 4, .low⟩, ⟨70, 4, .rel⟩] := by
  decide +kernel
/-- V14 and V15: the last poll of the bus-release wait. -/
theorem test_ow_write_bit_wait :
    (after (.owWriteBit 0) (wired [(0, 500)])).line.time = 580 ∧
    (after (.owWriteBit 0) (wired [(0, 501)])).err = .busBusy := by decide +kernel
/-- V16 and V17: the sample is at 25. -/
theorem test_ow_read_bit :
    (after .owReadBit (wired [(10, 25)])).res = 1 ∧ (after .owReadBit (wired [(10, 26)])).res = 0 ∧
    (after .owReadBit (wired [(10, 26)])).line.time = 70 := by decide +kernel
/-- V1 and V26. -/
theorem test_ow_write :
    (after (.owWrite 0xF0) (wired [])).line.trace.map PinEvent.time =
      [10, 70, 90, 150, 170, 230, 250, 310, 330, 336, 410, 416, 490, 496, 570, 576] ∧
    (after (.owWrite 0xF0) (wired [(250, 10000)])).res = 4 := by decide +kernel
/-- V28. -/
theorem test_ow_write_bytes_range : (after (.owWriteBytes 33) (wired [])).err = .range := by decide
/-- V25. -/
theorem test_ow_read :
    (after .owRead (wired [(80, 100), (220, 240), (290, 310)])).res = 0xE5 := by decide +kernel
/-- V27. -/
theorem test_ow_read_bytes :
    (after (.owReadBytes 2) (wired [(600, 10000)])).res = 1 ∧
    (after (.owReadBytes 2) (wired [(600, 10000)])).owbuf.take 2 = [0xFF, 0] ∧
    (after (.owReadBytes 2) (wired [(600, 10000)])).line.time = 1130 := by decide +kernel
/-- V30. -/
theorem test_ow_select :
    (after .owSelect (wired [])).line.time = 5760 ∧
    ((after .owSelect (wired [])).line.trace.take 4).map PinEvent.time = [10, 16, 90, 150] := by
  decide +kernel
/-- Section 2.2, `OW_SELECT_ALL`: the falls and releases of 0xCC. -/
theorem test_ow_select_all :
    (after .owSelectAll (wired [])).line.trace.map PinEvent.time =
      [10, 70, 90, 150, 170, 176, 250, 256, 330, 390, 410, 470, 490, 496, 570, 576] := by
  decide +kernel
/-- R171 from a state a family search left. -/
theorem test_ow_search_begin :
    (after .owSearchBegin (after (.owSearchBeginFam 0x28) State.reset)).search = Search.reset := by
  decide
/-- V23's seed. -/
theorem test_ow_search_begin_fam :
    (after (.owSearchBeginFam 0x28) State.reset).search.srom = 0x28 ∧
    (after (.owSearchBeginFam 0x28) State.reset).search.ld = 64 := by decide
/-- R173 with one device whose ROM is all zero: no discrepancy, the last device. -/
theorem test_ow_search_one_device :
    (after (.owSearch 0) (answering false)).search = ⟨0, 0, 0, true⟩ ∧
    (after (.owSearch 0) (answering false)).line.time = 15690 := by decide +kernel
/-- Section 2.3: presence but no device in alert, `SEARCH_NODEV` at 1750. -/
theorem test_ow_search_nodev :
    (after (.owSearch 1) (wired [(520, 640)])).err = .searchNodev ∧
    (after (.owSearch 1) (wired [(520, 640)])).line.time = 1750 := by decide +kernel
/-- V31 and V32. -/
theorem test_crc8 :
    (after (.crc8 7) (buffered [0x02, 0x1C, 0xB8, 0x01, 0, 0, 0, 0xA2])).res = 0xA2 ∧
    (after (.crc8 8) (buffered [0x02, 0x1C, 0xB8, 0x01, 0, 0, 0, 0xA2])).res = 0 := by decide +kernel
/-- V37. -/
theorem test_crc16 :
    (after (.crc16 9)
      (buffered [0x31, 0x32, 0x33, 0x34, 0x35, 0x36, 0x37, 0x38, 0x39])).res = 0xBB3D := by
  decide +kernel
/-- V39 and V39b. -/
theorem test_check_crc16 :
    (after (.checkCrc16 9)
      (buffered [0x31, 0x32, 0x33, 0x34, 0x35, 0x36, 0x37, 0x38, 0x39, 0xC2, 0x44])).res = 1 ∧
    (after (.checkCrc16 9)
      (buffered [0x31, 0x32, 0x33, 0x34, 0x35, 0x36, 0x37, 0x38, 0x39, 0x3D, 0xBB])).res = 0 := by
  decide +kernel
/-- V40 step 0. -/
theorem test_fs_begin :
    (after .fsBegin blank).fsc.log = [.erase 0] ∧ (after .fsBegin blank).fsc.wp = 0 ∧
    (after .fsBegin blank).fsc.ready = true := by decide +kernel
/-- V40 step 3: the direct path. -/
theorem test_fs_write_file :
    (after (.fsWriteFile 0) stored).fsc.log = [.program 8 [0x00, 0x52, 0xA0, 0x02]] ∧
    (after (.fsWriteFile 0) stored).fsc.dir = [some 2, some 1] := by decide +kernel
/-- V45: the new sector, the copy of file 1 unchanged, the erase of the victim; R235: a bad live sector
is dropped and counted. -/
theorem test_fs_write_file_defrag :
    (after (.fsWriteFile 0) boundary).fsc.log =
      [.program 48 [0x00, 0x52, 0xA0, 0x02], .program 52 [0x01, 0xF7, 0xB0, 0x01], .erase 0] ∧
    (after (.fsWriteFile 0) boundary).fsc.wp = 14 ∧
    (after (.fsWriteFile 0) dropping).fsc.dir = [some 12, none] ∧
    (after (.fsWriteFile 0) dropping).fsc.crcerr = 1 := by decide +kernel
/-- V40 steps 6 and 7: nothing written for the same content. -/
theorem test_fs_update_file :
    (after (.fsUpdateFile 0) { stored with dbuf := [0xA0, 0x01] }).res = 0 ∧
    (after (.fsUpdateFile 0) stored).res = 1 := by decide +kernel
/-- V40 step 9: a tombstone of file 0. -/
theorem test_fs_erase_file :
    (after (.fsEraseFile 0) stored).fsc.log = [.program 8 [0x80, 0xD6, 0xFF, 0xFF]] ∧
    (after (.fsEraseFile 0) stored).fsc.dir = [none, some 1] := by decide +kernel
/-- V40 step 11. -/
theorem test_fs_read_file :
    (after (.fsReadFile 1) stored).dbuf = [0xB0, 0x01] ∧ (after (.fsReadFile 1) stored).res = 1 := by
  decide +kernel
/-- V44: a decayed sector is rescanned for and not found. -/
theorem test_fs_read_file_decayed :
    (after (.fsReadFile 1) decayed).err = .notFound ∧
    (after (.fsReadFile 1) decayed).fsc.crcerr = 1 := by decide +kernel
/-- V40 step 13. -/
theorem test_fs_crcerr : (after .fsCrcerr stored).ok = true ∧ (after .fsCrcerr stored).res = 0 := by
  decide
/-- V40's listing of file 1, and the error before `FS_BEGIN` (V46). -/
theorem test_fs_list_first :
    (after (.fsListFirst 1) stored).res = 1 ∧ (after (.fsListFirst 1) stored).dbuf = [0xB0, 0x01] ∧
    (after (.fsListFirst 0) blank).err = .notReady := by decide +kernel
/-- V40: the listing of file 1 ends. -/
theorem test_fs_list_next :
    (after .fsListNext (after (.fsListFirst 1) stored)).err = .listEnd := by decide +kernel

/-! ### Witnesses: states and operands that meet every hypothesis of an obligation -/

theorem wired_ready (slaves : List (Nat × Nat)) : (wired slaves).line.Ready := ⟨rfl, rfl⟩
theorem powered_ready (slaves : List (Nat × Nat)) : (powered slaves).line.Ready := ⟨rfl, rfl⟩
theorem stored_shaped : stored.WellShaped :=
  ⟨by decide, rfl, rfl, by decide, by decide, rfl, rfl, by decide, by decide, by decide, by decide,
    by decide, by decide, by decide⟩
theorem boundary_shaped : boundary.WellShaped :=
  ⟨by decide, rfl, rfl, by decide, by decide, rfl, rfl, by decide, by decide, by decide, by decide,
    by decide, by decide, by decide⟩
theorem decayed_shaped : decayed.WellShaped :=
  ⟨by decide, rfl, rfl, by decide, by decide, rfl, rfl, by decide, by decide, by decide, by decide,
    by decide, by decide, by decide⟩
theorem absent0_shaped : absent0.WellShaped :=
  ⟨by decide, rfl, rfl, by decide, by decide, rfl, rfl, by decide, by decide, by decide, by decide,
    by decide, by decide, by decide⟩
theorem stored_store : stored.StoreInv :=
  ⟨rfl, by decide +kernel, by decide +kernel, by decide +kernel⟩
theorem boundary_store : boundary.StoreInv :=
  ⟨rfl, by decide +kernel, by decide +kernel, by decide +kernel⟩
theorem absent0_store : absent0.StoreInv :=
  ⟨rfl, by decide +kernel, by decide +kernel, by decide +kernel⟩

/-- A bus that frees at the last instant of the wait. -/
theorem released_last : OneWire.ReleasedAt (wired [(0, 500)]).cfg.timing (wired [(0, 500)]).line 500 :=
  ⟨by decide, by decide, by decide, fun x _ h => by
    show ([(0, 500)] : List (Nat × Nat)).any (fun iv => decide (iv.1 ≤ x) && decide (x < iv.2)) = true
    simp [h]⟩
/-- A bus that is free at once. -/
theorem released_first (slaves : List (Nat × Nat)) (h : slaveLow slaves 0 = false) :
    OneWire.ReleasedAt (wired slaves).cfg.timing (wired slaves).line 0 :=
  ⟨Nat.le_refl 0, Nat.zero_le _, h, fun x _ h => absurd h (Nat.not_lt_zero x)⟩
/-- A slave low in `[a, b)` is low at every instant between. -/
theorem low_between (a b x : Nat) (h₁ : a ≤ x) (h₂ : x < b) : slaveLow [(a, b)] x = true := by
  simp [slaveLow, h₁, h₂]

theorem witness_DecodeEncodeLegalCommand :
    (Instr.owWriteBit 1).WellFormed ∧ (Instr.owSearch 0).WellFormed ∧
    (Instr.owBegin 0xFF).WellFormed := by decide
theorem witness_DecodedWordReencodes : decode 0x00000103 = .ok (.owWriteBit 1) := by decide
theorem witness_IllegalWordsFailOnly :
    State.reset.busy = false ∧ ∃ e, decode 0x00010001 = .error e := ⟨rfl, _, rfl⟩
theorem witness_StepRunsDecodedCommand :
    ({ State.reset with inputs := [.write .cmd 2, .idle 1] } : State).inputs =
      .write .cmd 2 :: [.idle 1] ∧
    State.reset.busy = false ∧ decode 2 = .ok .owReset := by decide
theorem witness_BusyHostAccess : ({ State.reset with busy := true } : State).busy = true := rfl
theorem witness_HostRegisterReads : State.reset.busy = false := rfl
theorem witness_SearchRegister :
    State.reset.busy = false ∧ ((0x00014040 : Word).extractLsb' 0 7).toNat ≤ 64 ∧
    ((0x00014040 : Word).extractLsb' 8 7).toNat ≤ 64 ∧
    64 < ((0x00000041 : Word).extractLsb' 0 7).toNat := by decide
theorem witness_ControlRegister :
    State.reset.busy = false ∧ ({ State.reset with busy := true } : State).busy = true ∧
    ∃ t, exec .owReset (wired []) = .next t := ⟨rfl, rfl, _, rfl⟩
theorem witness_PowerFlagMovesIdlePin :
    (wired []).busy = false ∧ (1 : Word).getLsbD 0 ≠ (wired []).line.ppwr ∧
    (wired []).line.bound = true ∧ (wired []).line.pinState = (wired []).line.idle ∧
    (1 : Word).getLsbD 0 ≠ State.reset.line.ppwr ∧ State.reset.line.bound = false := by decide
theorem witness_ByteArrayAccess :
    State.reset.busy = false ∧ 7 < 8 ∧ 31 < State.reset.owbuf.length ∧
    State.reset.dbuf.length ≤ 20 := by decide
/-- A cut inside the one call of `FS_BEGIN`, an erase, and inside the one call of a direct append, a
program. -/
theorem witness_PowerLossKeepsPrefixOfCalls :
    (∃ t, issue 0x00000040 blank = .next t ∧ t.fsc.log = blank.fsc.log ++ [.erase 0]) ∧
    (∃ t, issue 0x00000041 stored = .next t ∧
      t.fsc.log = stored.fsc.log ++ [.program 8 [0x00, 0x52, 0xA0, 0x02]]) ∧
    ([.erase 0] : List FlashEvent)[0]? = some (.erase 0) ∧ Memory.wf blank.fsc.flash = true ∧
    Memory.wf stored.fsc.flash = true :=
  ⟨⟨next (issue 0x00000040 blank), eq_next_of_goesOn _ (by decide +kernel), by decide +kernel⟩,
    ⟨next (issue 0x00000041 stored), eq_next_of_goesOn _ (by decide +kernel), by decide +kernel⟩,
    rfl, rfl, by decide⟩
theorem witness_ResetHasInvariant :
    small.Valid ∧ Memory.wf stored.fsc.flash = true ∧ Memory.below stored.fsc.flash small.es = true := by
  decide
theorem witness_StepKeepsInvariant :
    ({ stored with inputs := [.write .cmd 0x141] } : State).Inv :=
  ⟨⟨by decide, rfl, rfl, by decide, by decide, rfl, rfl, by decide, by decide, by decide, by decide,
    by decide, by decide, by decide⟩, rfl⟩
theorem witness_EveryCommandEndsOnce : stored.WellShaped := stored_shaped
theorem witness_FailureCodesByCommand :
    Instr.owReset.WellFormed ∧ ∃ t, exec .owReset (wired []) = .next t := ⟨by decide, _, rfl⟩
theorem witness_UnitFrames :
    (∃ t, exec (.owBegin 7) State.reset = .next t) ∧ (∃ t, exec .owReset (wired []) = .next t) ∧
    (∃ t, exec .owSearchBegin State.reset = .next t) ∧
    (∃ t, exec (.crc8 1) State.reset = .next t) ∧ ∃ t, exec .fsBegin blank = .next t :=
  ⟨⟨_, rfl⟩, ⟨_, rfl⟩, ⟨_, rfl⟩, ⟨_, rfl⟩, _, rfl⟩
theorem witness_FlashChangesOnlyByDeviceCalls : ∃ t, exec (.fsWriteFile 0) stored = .next t :=
  ⟨_, rfl⟩
theorem witness_TimeNeverDecreases :
    (∃ t, step { State.reset with inputs := [.idle 3] } = .next t) ∧
    ∀ e ∈ ([Input.idle 3] : List Input).head?, e.losesPower = false :=
  ⟨⟨_, rfl⟩, by decide⟩
theorem witness_LineCommandsNeedPin :
    Instr.owReset.kind = .line ∧ Instr.owReset.WellFormed ∧ State.reset.line.bound = false := by
  decide
theorem witness_ReleaseWaitSamples : (wired [(0, 500)]).line.pinState = .rel := rfl
theorem witness_StuckLineIsBusBusy :
    (Instr.owWriteBytes 32).kind = .line ∧ (Instr.owWriteBytes 32).WellFormed ∧
    (powered [(0, 501)]).line.Ready ∧
    (∀ x, 0 ≤ x → x ≤ 0 + (powered [(0, 501)]).cfg.timing.tBusy → slaveLow [(0, 501)] x = true) ∧
    (32 : Byte) ≠ 0 ∧ (32 : Byte).toNat ≤ (powered []).cfg.owbufSize ∧
    (powered []).search.ldf = false :=
  ⟨rfl, rfl, powered_ready _, fun x h₁ h₂ => low_between 0 501 x h₁ (Nat.lt_succ_of_le h₂),
    by decide, by decide, rfl⟩
theorem witness_WriteBitSlot :
    OneBitOperand (1 : Byte) ∧ (wired [(0, 500)]).line.Ready ∧
    OneWire.ReleasedAt (wired [(0, 500)]).cfg.timing (wired [(0, 500)]).line 500 :=
  ⟨by decide, wired_ready _, released_last⟩
theorem witness_ReadBitSlot :
    (wired [(0, 500)]).line.Ready ∧
    OneWire.ReleasedAt (wired [(0, 500)]).cfg.timing (wired [(0, 500)]).line 500 :=
  ⟨wired_ready _, released_last⟩
/-- No presence: low from 561 on. Presence at 560, the last instant of the window, and high again at
970, the deadline, or not. -/
theorem witness_ResetDetectsPresence :
    (OneWire.ReleasedAt (wired [(561, 700)]).cfg.timing (wired [(561, 700)]).line 0 ∧
      ∀ tp < 561, 490 < tp → ¬ slaveLow [(561, 700)] tp = true) ∧
    (OneWire.ReleasedAt (wired [(560, 970)]).cfg.timing (wired [(560, 970)]).line 0 ∧
      slaveLow [(560, 970)] 560 = true ∧ (∀ x < 560, 490 < x → ¬ slaveLow [(560, 970)] x = true) ∧
      ¬ slaveLow [(560, 970)] 970 = true) ∧
    ∀ th < 971, 560 < th → slaveLow [(560, 971)] th = true :=
  ⟨⟨released_first _ (by decide), by decide +kernel⟩,
    ⟨released_first _ (by decide), by decide, by decide +kernel, by decide⟩, by decide +kernel⟩
theorem witness_WritesOnFreeLine :
    (powered [(1, 2)]).line.Ready ∧ (32 : Byte) ≠ 0 ∧ (32 : Byte).toNat ≤ State.reset.cfg.owbufSize ∧
    (∀ x ∈ ({} : Timing).writeStarts 0 (byteBits 0xB7), slaveLow [(1, 2)] x = false) ∧
    (∀ x ∈ ({} : Timing).writeStarts 0 (byteBits 0xCC), slaveLow [(1, 2)] x = false) ∧
    (∀ x ∈ ({} : Timing).writeStarts 0 (byteBits 0x55 ++ (romBytes 0x28).flatMap byteBits),
      slaveLow [(1, 2)] x = false) ∧
    ∀ x ∈ ({} : Timing).writeStarts 0 ((bufTake State.reset.owbuf 32).flatMap byteBits),
      slaveLow [(1, 2)] x = false :=
  ⟨powered_ready _, by decide, by decide, by decide +kernel, by decide +kernel, by decide +kernel,
    by decide +kernel⟩
/-- The wait of the last slot fails: slot 7 of a byte, slot 71 of `OW_SELECT`. -/
theorem witness_WriteFailureCounts :
    (wired [(560, 1061)]).line.Ready ∧ 7 < (byteBits 0xF0).length ∧
    (∀ x ∈ ({} : Timing).writeStarts 0 ((byteBits 0xF0).take 7), slaveLow [(560, 1061)] x = false) ∧
    ({} : Timing).writeEnd 0 ((byteBits 0xF0).take 7) = 560 ∧
    (∀ x, 560 ≤ x → x ≤ 560 + 500 → slaveLow [(560, 1061)] x = true) ∧
    71 < (byteBits 0x55 ++ (romBytes 0x28).flatMap byteBits).length ∧
    (∀ x ∈ ({} : Timing).writeStarts 0 ((byteBits 0x55 ++ (romBytes 0x28).flatMap byteBits).take 71),
      slaveLow [(5680, 6181)] x = false) ∧
    ({} : Timing).writeEnd 0 ((byteBits 0x55 ++ (romBytes 0x28).flatMap byteBits).take 71) = 5680 ∧
    ∀ x, 5680 ≤ x → x ≤ 5680 + 500 → slaveLow [(5680, 6181)] x = true :=
  ⟨wired_ready _, by decide, by decide +kernel, by decide +kernel,
    fun x h₁ h₂ => low_between 560 1061 x h₁ (Nat.lt_succ_of_le h₂), by decide, by decide +kernel,
    by decide +kernel, fun x h₁ h₂ => low_between 5680 6181 x h₁ (Nat.lt_succ_of_le h₂)⟩
theorem witness_ReadByteOnFreeLine :
    (wired [(80, 100)]).line.Ready ∧
    ∀ k < 8, slaveLow [(80, 100)] (0 + k * (wired []).cfg.timing.readSpan) = false :=
  ⟨wired_ready _, by decide +kernel⟩
theorem witness_ReadBytesOnFreeLine :
    (wired [(80, 100)]).line.Ready ∧ (32 : Byte) ≠ 0 ∧ (32 : Byte).toNat ≤ (wired []).cfg.owbufSize ∧
    (wired []).owbuf.length = (wired []).cfg.owbufSize ∧
    ∀ k < 8 * (32 : Byte).toNat, slaveLow [(80, 100)] (0 + k * (wired []).cfg.timing.readSpan) = false :=
  ⟨wired_ready _, by decide, by decide, rfl, by decide +kernel⟩
/-- The wait of slot 9 fails, and, for `OW_READ`, that of slot 7. -/
theorem witness_FailedReadsCountWholeBytes :
    (∃ t, exec (.owReadBytes 2) (wired [(600, 10000)]) = .next t ∧ t.err = .busBusy) ∧
    (wired [(630, 1131)]).line.Ready ∧ 9 < 8 * (2 : Byte).toNat ∧
    (2 : Byte).toNat ≤ (wired []).cfg.owbufSize ∧ (wired []).owbuf.length = (wired []).cfg.owbufSize ∧
    (∀ x < 9, slaveLow [(630, 1131)] (0 + x * (wired []).cfg.timing.readSpan) = false) ∧
    (∀ x, 630 ≤ x → x ≤ 630 + 500 → slaveLow [(630, 1131)] x = true) ∧
    0 + 9 * (wired []).cfg.timing.readSpan = 630 ∧
    (∀ x < 7, slaveLow [(490, 991)] (0 + x * (wired []).cfg.timing.readSpan) = false) ∧
    (∀ x, 490 ≤ x → x ≤ 490 + 500 → slaveLow [(490, 991)] x = true) ∧
    0 + 7 * (wired []).cfg.timing.readSpan = 490 :=
  ⟨⟨after (.owReadBytes 2) (wired [(600, 10000)]), eq_next_of_goesOn _ (by decide +kernel),
    by decide +kernel⟩, wired_ready _, by decide, by decide, rfl, by decide +kernel,
    fun x h₁ h₂ => low_between 630 1131 x h₁ (Nat.lt_succ_of_le h₂), by decide, by decide +kernel,
    fun x h₁ h₂ => low_between 490 991 x h₁ (Nat.lt_succ_of_le h₂), by decide⟩
theorem witness_ByteCountRange :
    (wired []).line.Ready ∧ (wired []).cfg.owbufSize < (33 : Byte).toNat :=
  ⟨wired_ready _, by decide⟩
theorem witness_SearchCommitsOnSuccessOnly :
    (OneBitOperand (1 : Byte) ∧ (wired []).line.bound = true ∧
      ({ wired [] with search := ⟨0, 0, 0, true⟩ } : State).search.ldf = true) ∧
    (∃ t, exec (.owSearch 0) (wired []) = .next t ∧ t.ok = false) ∧
    ∃ t, exec (.owSearch 0) (answering false) = .next t ∧ t.ok = true :=
  ⟨by decide, ⟨after (.owSearch 0) (wired []), eq_next_of_goesOn _ (by decide +kernel), by decide +kernel⟩,
    after (.owSearch 0) (answering false), eq_next_of_goesOn _ (by decide +kernel), by decide +kernel⟩
/-- A search all of whose positions answer 0 and 1, and one that meets a discrepancy everywhere. -/
theorem witness_SearchOnFreeLine (both : Bool) :
    OneBitOperand (1 : Byte) ∧ (answering both).line.Ready ∧ (answering both).cfg.timing = {} ∧
    (answering both).search.ldf = false ∧ slaveLow (answering both).line.slaves 0 = false ∧
    slaveLow (answering both).line.slaves 560 = true ∧
    slaveLow (answering both).line.slaves 970 = false ∧
    (∀ k < 8, slaveLow (answering both).line.slaves (970 + 80 * k) = false) ∧
    ∀ n < 64, slaveLow (answering both).line.slaves (1610 + 220 * n) = false ∧
      slaveLow (answering both).line.slaves (1610 + 220 * n + 70) = false ∧
      slaveLow (answering both).line.slaves (1610 + 220 * n + 140) = false ∧
      slaveLow (answering both).line.slaves (1610 + 220 * n + 25) = true ∧
      slaveLow (answering both).line.slaves (1610 + 220 * n + 95) = both := by
  refine ⟨by decide, wired_ready _, rfl, rfl, ?_, ?_, ?_, ?_, ?_⟩ <;> cases both <;> decide +kernel
/-- Both cases of the family discrepancy: no 0 taken below 9, and 0 taken at 8 last. -/
theorem witness_SearchOnFreeLine_family :
    (∀ n < 9, 1 ≤ n → zeroTaken Search.reset (fun _ => false) (fun _ => true) n = false) ∧
    zeroTaken Search.reset (fun _ => false) (fun _ => false) 8 = true ∧
    ∀ m < 9, 8 < m → zeroTaken Search.reset (fun _ => false) (fun _ => false) m = false := by decide
theorem witness_Crc8Command :
    (32 : Byte).toNat ≤ State.reset.cfg.owbufSize ∧ State.reset.cfg.owbufSize < (33 : Byte).toNat := by
  decide
theorem witness_Crc16Command :
    (32 : Byte).toNat ≤ State.reset.cfg.owbufSize ∧ State.reset.cfg.owbufSize < (33 : Byte).toNat := by
  decide
theorem witness_CheckCrc16Command :
    (30 : Byte).toNat + 2 ≤ State.reset.cfg.owbufSize ∧
    State.reset.cfg.owbufSize < (31 : Byte).toNat + 2 := by decide
theorem witness_StoreCommandGuards :
    (Instr.fsReadFile 2).kind = .store ∧ ¬ ({ small with n := 9 } : Config).Valid ∧
    stored.cfg.Valid ∧ Instr.fsReadFile 2 ≠ .fsBegin ∧ blank.fsc.ready = false ∧
    stored.fsc.ready = true ∧ stored.cfg.n ≤ (2 : Byte).toNat := by decide
theorem witness_BeginRebuildsDirectory :
    decayed.cfg.Valid ∧ Memory.wf decayed.fsc.flash = true ∧ small.Valid ∧ Memory.wf headless = true ∧
    tiny.Valid ∧ Memory.wf full = true := by decide +kernel
/-- A file with a most recent sector, and one with no valid sector. -/
theorem witness_DirectoryOf :
    IsNewest small decayed.fsc.flash 0 0 ∧
    ∀ i < small.total, sectorValid (sectorAt small decayed.fsc.flash i) = true →
      sectorFile (sectorAt small decayed.fsc.flash i) ≠ 1 :=
  ⟨⟨by decide, by decide +kernel, by decide +kernel, by decide +kernel⟩, by decide +kernel⟩
/-- A head and a hint; a head and no hint; neither. -/
theorem witness_Located :
    (sectorFree (sectorAt small stored.fsc.flash 2) = true ∧
      (∀ k < 2, sectorFree (sectorAt small stored.fsc.flash k) = false) ∧
      sectorFree (sectorAt small stored.fsc.flash (1 * small.spp)) = true ∧
      ∀ q < 1, sectorFree (sectorAt small stored.fsc.flash (q * small.spp)) = false) ∧
    ((∃ h < small.total, sectorFree (sectorAt small headless h) = true) ∧
      ∀ p < small.pages, sectorFree (sectorAt small headless (p * small.spp)) = false) ∧
    ∀ k < tiny.total, sectorFree (sectorAt tiny full k) = false := by decide +kernel
theorem witness_BeginOnBlankFlash : blank.cfg.Valid ∧ blank.fsc.flash = [] := by decide
theorem witness_ReadFileOfGoodEntry :
    stored.cfg.Valid ∧ stored.fsc.ready = true ∧ (1 : Byte).toNat < stored.cfg.n ∧
    stored.fsc.dir.getD 1 none = some 1 ∧ 1 < stored.cfg.total ∧
    sectorValid (sectorAt stored.cfg stored.fsc.flash 1) = true ∧
    absent0.fsc.dir.getD 0 none = none := by decide +kernel
theorem witness_BadSectorIsRescanned :
    decayed.WellShaped ∧ decayed.fsc.ready = true ∧ (1 : Byte).toNat < decayed.cfg.n ∧
    decayed.fsc.decay = [] ∧ decayed.fsc.dir.getD 1 none = some 1 ∧
    sectorValid (sectorAt decayed.cfg decayed.fsc.flash 1) = false :=
  ⟨decayed_shaped, rfl, by decide +kernel, rfl, rfl, by decide +kernel⟩
theorem witness_CrcErrorCounterRead :
    stored.cfg.Valid ∧ stored.fsc.ready = true ∧ blank.cfg.Valid ∧ blank.fsc.ready = false ∧
    stored.busy = false := by decide
/-- File 0's only sector is visited as number 8 from page 2 on; of file 1 without its sector, none. -/
theorem witness_ListFirstYieldsFirstVisited :
    stored.WellShaped ∧ stored.fsc.ready = true ∧ (0 : Byte).toNat < stored.cfg.n ∧
    8 < stored.cfg.total ∧
    sectorListed 0 (sectorAt stored.cfg stored.fsc.flash (listSector stored.cfg stored.fsc 8)) = true ∧
    (∀ x < 8, sectorListed 0
      (sectorAt stored.cfg stored.fsc.flash (listSector stored.cfg stored.fsc x)) = false) ∧
    ∀ k < decayed.cfg.total, sectorListed 1
      (sectorAt decayed.cfg decayed.fsc.flash (listSector decayed.cfg decayed.fsc k)) = false :=
  ⟨stored_shaped, rfl, by decide, by decide, by decide +kernel, by decide +kernel, by decide +kernel⟩
/-- A listing with its cursor on the sector it yields, one with its cursor behind the last sector, and
no listing. -/
theorem witness_ListNextContinues :
    let s : State := { stored with fsc := { stored.fsc with
      listActive := true, listId := 0, listBase := 8, listPos := 8 } }
    let e : State := { s with fsc := { s.fsc with listPos := 16 } }
    s.WellShaped ∧ s.fsc.ready = true ∧ s.fsc.listActive = true ∧ 8 < s.cfg.total ∧
    sectorListed 0 (sectorAt s.cfg s.fsc.flash ((8 + 8) % s.cfg.total)) = true ∧
    e.WellShaped ∧ e.fsc.listActive = true ∧ e.fsc.listPos = e.cfg.total ∧
    stored.fsc.listActive = false :=
  ⟨⟨by decide, rfl, rfl, by decide, by decide, rfl, rfl, by decide, by decide, by decide, by decide,
    by decide, by decide, by decide⟩, rfl, rfl, by decide, by decide +kernel,
   ⟨by decide, rfl, rfl, by decide, by decide, rfl, rfl, by decide, by decide, by decide, by decide,
    by decide, by decide, by decide⟩, rfl, by decide, rfl⟩
theorem witness_MadeSectorIsValid : 126 < 127 := by decide
theorem witness_VictimPageIsFound :
    small.Valid ∧ 3 < small.pages ∧ 1 < small.n ∧ small.n ≤ small.spp := by decide
/-- The paths of an append: the direct one, one that copies file 1 and one that drops it. -/
theorem witness_WriteFileAppends :
    stored.WellShaped ∧ stored.fsc.ready = true ∧ (1 : Byte).toNat < stored.cfg.n ∧
    stored.fsc.wp % stored.cfg.spp ≠ 0 ∧ boundary.WellShaped ∧ boundary.fsc.ready = true ∧
    boundary.fsc.wp % boundary.cfg.spp = 0 ∧ copiedSectors small boundary.fsc 0 0 = [1] ∧
    dropping.WellShaped ∧ dropping.fsc.ready = true ∧ dropping.fsc.wp % dropping.cfg.spp = 0 ∧
    droppedCount small dropping.fsc 0 0 = 1 :=
  ⟨stored_shaped, rfl, by decide, by decide, boundary_shaped, rfl, by decide, by decide +kernel,
    ⟨by decide, rfl, rfl, by decide, by decide, rfl, rfl, by decide, by decide, by decide, by decide,
      by decide, by decide, by decide⟩, rfl, by decide, by decide +kernel⟩
theorem witness_EraseFileAppendsTombstone :
    stored.WellShaped ∧ stored.fsc.ready = true ∧ (1 : Byte).toNat < stored.cfg.n ∧
    boundary.WellShaped ∧ boundary.fsc.ready = true :=
  ⟨stored_shaped, rfl, by decide, boundary_shaped, rfl⟩
theorem witness_UpdateFileWritesOnlyChanges :
    stored.WellShaped ∧ stored.StoreInv ∧ (0 : Byte).toNat < stored.cfg.n ∧
    stored.fsc.dir.getD 0 none = some 0 ∧
    flashRead stored.fsc.flash (stored.cfg.secAddr 0 + 2) stored.cfg.sds = [0xA0, 0x01] ∧
    flashRead stored.fsc.flash (stored.cfg.secAddr 0 + 2) stored.cfg.sds ≠ stored.dbuf ∧
    absent0.WellShaped ∧ absent0.StoreInv ∧ absent0.fsc.dir.getD 0 none = none :=
  ⟨stored_shaped, stored_store, by decide +kernel, rfl, by decide +kernel, by decide +kernel, absent0_shaped, absent0_store,
    rfl⟩
theorem witness_UpdateFileWritesOnlyChanges_same :
    let s : State := { stored with dbuf := [0xA0, 0x01] }
    s.WellShaped ∧ s.StoreInv ∧
    flashRead s.fsc.flash (s.cfg.secAddr 0 + 2) s.cfg.sds = s.dbuf :=
  ⟨⟨by decide +kernel, rfl, rfl, by decide +kernel, by decide +kernel, rfl, rfl, by decide +kernel, by decide +kernel, by decide +kernel, by decide +kernel,
    by decide +kernel, by decide +kernel, by decide +kernel⟩, ⟨rfl, by decide +kernel, by decide +kernel, by decide +kernel⟩, by decide +kernel⟩
theorem witness_AppendCallOrder :
    small.Valid ∧ ([0xA0, 0x02] : List Byte).length = small.sds ∧
    (∃ w g, stored.fsc.append small 0 false [0xA0, 0x02] = .written w g) ∧
    (∃ w g, boundary.fsc.append small 0 false [0xA0, 0x02] = .written w g) ∧
    stored.fsc.wp % small.spp ≠ 0 ∧ boundary.fsc.wp % small.spp = 0 :=
  ⟨by decide, rfl, ⟨_, _, rfl⟩, ⟨_, _, rfl⟩, by decide, by decide⟩
theorem witness_CommandsKeepStoreInvariant :
    boundary.WellShaped ∧ boundary.StoreInv ∧ Instr.fsWriteFile 0 ≠ .fsBegin ∧
    ∃ t, exec (.fsWriteFile 0) boundary = .next t :=
  ⟨boundary_shaped, boundary_store, by decide, _, rfl⟩
theorem witness_WriteThenReadRoundTrip :
    boundary.WellShaped ∧ boundary.StoreInv ∧ (0 : Byte).toNat < boundary.cfg.n ∧
    (1 : Byte) ≠ 0 ∧ (1 : Byte).toNat < boundary.cfg.n :=
  ⟨boundary_shaped, boundary_store, by decide, by decide, by decide⟩
theorem witness_SecondUpdateWritesNothing :
    stored.WellShaped ∧ stored.StoreInv ∧ (1 : Byte).toNat < stored.cfg.n :=
  ⟨stored_shaped, stored_store, by decide⟩

end Sys2Proof.Tests
end

section
/-! PROOFS. The state after power-on has the invariant (R6, R47, R281), and the victim search of R233 finds
a page: a pigeonhole over the pages it visits. -/

namespace Sys2Proof

/-! ### What R6's constraints give -/

/-- A page holds at least one sector, because `SS ≤ PS`. -/
theorem Config.Valid.spp_pos {c : Config} (h : c.Valid) : 0 < c.spp := by
  obtain ⟨-, -, -, -, hss, -⟩ := h
  exact Nat.div_pos hss (Nat.succ_pos _)

/-- The headroom of R6 and `N ≥ 1` leave a sector index. -/
theorem Config.Valid.total_pos {c : Config} (h : c.Valid) : 0 < c.total := by
  obtain ⟨-, hn, hroom, -⟩ := h
  omega

/-- Sectors need a page to lie in. -/
theorem Config.Valid.pages_pos {c : Config} (h : c.Valid) : 0 < c.pages :=
  Nat.pos_of_mul_pos_right h.total_pos

/-- R6's headroom as the pigeonhole needs it: the files other than one are fewer than the sectors outside
one page. -/
theorem Config.Valid.others_lt_sectors {c : Config} (h : c.Valid) :
    c.n - 1 < (c.pages - 1) * c.spp := by
  have hspp := h.spp_pos
  obtain ⟨-, hn, hroom, -⟩ := h
  rw [Nat.sub_one_mul]
  simp only [Config.total] at hroom
  omega

end Sys2Proof

namespace Sys2Proof.Machine

/-! ### Power-on -/

/-- R47's values are in the ranges of R33, R36, R37, R39, R40, R42, R43, whatever the flash holds. -/
theorem powerOn_wellShaped (c : Config) (flash : Memory) (log : List FlashEvent) (hc : c.Valid)
    (hwf : Memory.wf flash = true) (hbelow : Memory.below flash c.es = true) :
    (State.powerOn c flash log).WellShaped where
  cfgValid := hc
  owbufSize := List.length_replicate
  dbufSize := List.length_replicate
  ldRange := Nat.zero_le _
  lfdRange := Nat.zero_le _
  pinIdle := rfl
  dirSize := List.length_replicate
  dirRange := by
    intro e he
    rw [List.eq_of_mem_replicate he]
    rfl
  wpRange := hc.total_pos
  freeRange := hc.pages_pos
  listPosRange := Nat.zero_le _
  listBaseRange := hc.total_pos
  flashForm := hwf
  flashRange := hbelow

/-- Power-on leaves no command half-way either, so the whole invariant holds. -/
theorem powerOn_inv (c : Config) (flash : Memory) (log : List FlashEvent) (hc : c.Valid)
    (hwf : Memory.wf flash = true) (hbelow : Memory.below flash c.es = true) :
    (State.powerOn c flash log).Inv :=
  ⟨powerOn_wellShaped c flash log hc hwf hbelow, rfl⟩

/-- The configuration of the reset state (log 1) is inside R6's constraints. -/
theorem reference_valid : Config.reference.Valid := by decide

/-- Settles O16: power-on gives the invariant for any valid configuration and flash, and reset is a
power-on of the reference configuration over a blank flash. -/
theorem resetHasInvariant : Obligations.ResetHasInvariant :=
  ⟨powerOn_inv, powerOn_inv Config.reference [] [] reference_valid wf_reset rfl⟩

/-! ### The victim search (R233) -/

/-- The page of file `j`'s live sector, if it has one (R37, R66). -/
def livePage (c : Config) (dir : List (Option Nat)) (j : Nat) : Option Nat :=
  (dir.getD j none).map c.pageOf

/-- `live(v)` counts the other files whose live sector lies in page `v`: a fibre of `livePage`. -/
theorem liveCount_eq_card (c : Config) (dir : List (Option Nat)) (id v : Nat) :
    liveCount c dir id v =
      (((Finset.range c.n).erase id).filter fun j => livePage c dir j = some v).card := by
  have hcount : liveCount c dir id v =
      Nat.count (fun j => j ≠ id ∧ livePage c dir j = some v) c.n := by
    refine congrArg (List.countP · _) (funext fun j => ?_)
    cases hj : dir.getD j none <;> simp [livePage, -List.getD_eq_getElem?_getD, hj]
  rw [hcount, Nat.count_eq_card_filter_range, ← Finset.filter_filter, Finset.filter_ne']

/-- File `id` itself is never counted, so no page has `N` live sectors of other files. -/
theorem liveCount_lt (c : Config) (dir : List (Option Nat)) (id v : Nat) (hid : id < c.n) :
    liveCount c dir id v < c.n :=
  calc liveCount c dir id v
    _ ≤ ((Finset.range c.n).erase id).card := by
      rw [liveCount_eq_card]
      exact Finset.card_filter_le _ _
    _ = c.n - 1 := by rw [Finset.card_erase_of_mem (Finset.mem_range.mpr hid), Finset.card_range]
    _ < c.n := by omega

/-- The pages the search visits, `P - 1` steps from `FREE` on, are all different. -/
theorem visited_injOn (c : Config) (free : Nat) :
    Set.InjOn (fun k => some ((free + k) % c.pages)) (Finset.Ico 1 c.pages) := by
  intro x hx y hy hxy
  obtain ⟨-, hxlt⟩ := Finset.mem_Ico.mp hx
  obtain ⟨-, hylt⟩ := Finset.mem_Ico.mp hy
  have hmod : free + x ≡ free + y [MOD c.pages] := Option.some.inj hxy
  exact (Nat.ModEq.add_left_cancel' free hmod).eq_of_lt_of_lt hxlt hylt

/-- The pigeonhole behind R233: with at least `SPP` live sectors of other files in each of the `P - 1` pages
visited, there would be more other files than R6 admits. -/
theorem exists_eligible (c : Config) (dir : List (Option Nat)) (free id : Nat) (hc : c.Valid)
    (hid : id < c.n) :
    ∃ k, (1 ≤ k ∧ k < c.pages) ∧ liveCount c dir id ((free + k) % c.pages) < c.spp := by
  have hfew : ((Finset.range c.n).erase id).card <
      ((Finset.Ico 1 c.pages).image fun k => some ((free + k) % c.pages)).card * c.spp := by
    rw [Finset.card_erase_of_mem (Finset.mem_range.mpr hid), Finset.card_range,
      Finset.card_image_of_injOn (visited_injOn c free), Nat.card_Ico]
    exact hc.others_lt_sectors
  obtain ⟨_, hpage, hlt⟩ :=
    @Finset.exists_card_fiber_lt_of_card_lt_mul _ _ _ _ _ (livePage c dir) _ hfew
  obtain ⟨k, hk, rfl⟩ := Finset.mem_image.mp hpage
  exact ⟨k, Finset.mem_Ico.mp hk, by rwa [liveCount_eq_card]⟩

/-- The other direction of `selectVictim_some`: the search answers the first eligible page (R233). -/
theorem selectVictim_eq_some (c : Config) (dir : List (Option Nat)) (free id k : Nat) (hk : 1 ≤ k)
    (hlt : k < c.pages) (helig : liveCount c dir id ((free + k) % c.pages) < c.spp)
    (hfirst : ∀ x, 1 ≤ x → x < k → c.spp ≤ liveCount c dir id ((free + x) % c.pages)) :
    selectVictim c dir free id = some ((free + k) % c.pages) := by
  obtain ⟨m, rfl⟩ := Nat.exists_eq_add_of_le' hk
  rw [selectVictim, List.find?_map, Option.map_eq_some_iff]
  refine ⟨m, List.find?_range_eq_some.mpr ⟨?_, ?_, ?_⟩, rfl⟩
  · simpa using helig
  · exact List.mem_range.mpr (by omega)
  · intro j hj
    simpa using hfirst (j + 1) (by omega) (by omega)

/-- Settles O53: of the eligible pages, which `exists_eligible` shows to exist, the least offset is the one
the search answers; with `N ≤ SPP` offset 1 is eligible already, by `liveCount_lt`. -/
theorem victimPageIsFound : Obligations.VictimPageIsFound := by
  intro c dir free id hc _ hid
  have hex := exists_eligible c dir free id hc hid
  obtain ⟨⟨hone, hlt⟩, helig⟩ := Nat.find_spec hex
  have hfirst : ∀ x, 1 ≤ x → x < Nat.find hex →
      c.spp ≤ liveCount c dir id ((free + x) % c.pages) := fun x hx hxk =>
    Nat.le_of_not_lt fun hl => Nat.find_min hex hxk ⟨⟨hx, hxk.trans hlt⟩, hl⟩
  refine ⟨Nat.find hex, hone, hlt, selectVictim_eq_some c dir free id _ hone hlt helig hfirst,
    helig, hfirst, fun hsmall => ?_⟩
  by_contra hne
  have hfull := hfirst 1 le_rfl (by omega)
  have hbound := liveCount_lt c dir id ((free + 1) % c.pages) hid
  omega

end Sys2Proof.Machine
end

section
/-! PROOFS. What a procedure on the 1-Wire line leaves alone, whatever its outcome: the pin's binding and
number, `PPWR`, the slaves; and it never turns the clock back (R25, R29, R121). -/

namespace Sys2Proof.Machine

/-- What holds between the line before and after any run of pin changes, samples and waits. -/
structure OneWire.Advances (l m : OneWire) : Prop where
  ppwr : m.ppwr = l.ppwr
  bound : m.bound = l.bound
  pin : m.pin = l.pin
  slaves : m.slaves = l.slaves
  time : l.time ≤ m.time

namespace OneWire.Advances

theorem refl (l : OneWire) : l.Advances l := ⟨rfl, rfl, rfl, rfl, le_rfl⟩

theorem trans {l m k : OneWire} (h : l.Advances m) (h' : m.Advances k) : l.Advances k :=
  ⟨h'.ppwr.trans h.ppwr, h'.bound.trans h.bound, h'.pin.trans h.pin, h'.slaves.trans h.slaves,
    h.time.trans h'.time⟩

/-- A change of the pin takes no time. -/
theorem pinAt {l m : OneWire} (h : l.Advances m) (x : PinState) (t : Nat) :
    l.Advances (m.pinAt x t) :=
  h.trans ⟨by simp, by simp, by simp, by simp, by simp⟩

theorem finish {l m : OneWire} (h : l.Advances m) : l.Advances m.finish := h.pinAt _ _

theorem release (l : OneWire) : l.Advances l.release := ⟨by simp, by simp, by simp, by simp, by simp⟩

/-- Setting the clock forward advances the line. -/
theorem setTime {l m : OneWire} (h : l.Advances m) {t : Nat} (ht : l.time ≤ t) :
    l.Advances { m with time := t } := ⟨h.ppwr, h.bound, h.pin, h.slaves, ht⟩

end OneWire.Advances

/-! ### The line a procedure leaves -/

/-- The line at the end of a slot or byte, whichever way it ended. -/
def Slot.line {α : Type} : Slot α → OneWire
  | .ran _ l => l
  | .busBusy l => l

/-- The line at the end of a run of write slots. -/
def WriteRun.line : WriteRun → OneWire
  | .ran l => l
  | .stopped _ l => l

/-- The line at the end of a run of byte reads. -/
def ReadRun.line : ReadRun → OneWire
  | .ran _ l => l
  | .stopped _ _ l => l

/-- The buffer at the end of a run of byte reads. -/
def ReadRun.buf : ReadRun → List Byte
  | .ran b _ => b
  | .stopped _ b _ => b

/-- The line at the end of a search. -/
def SearchRun.line : SearchRun → OneWire
  | .found _ l => l
  | .failed _ l => l

section
variable (tm : Timing) (l : OneWire)

/-- The preamble ends `T_BUSY` after its start, or at the falling edge, which is not before it (R125). -/
theorem preamble_advances : l.Advances (l.preamble tm).line ∧
    ∀ tf m, l.preamble tm = .ran tf m → l.time ≤ tf := by
  obtain ⟨h, -⟩ | ⟨tr, htr, -, -, -, h⟩ := preamble_cases tm l <;> rw [h]
  · exact ⟨(OneWire.Advances.release l).setTime (Nat.le_add_right _ _), nofun⟩
  · refine ⟨(OneWire.Advances.release l).pinAt _ _, fun tf m he => ?_⟩
    obtain ⟨rfl, -⟩ := (Slot.ran.injEq ..).mp he
    exact htr.trans (Nat.le_add_right _ _)

/-- A write slot advances the line (R129). -/
theorem writeSlot_advances (v : Bool) : l.Advances (l.writeSlot tm v).line := by
  obtain ⟨hpre, hfall⟩ := preamble_advances tm l
  cases h : l.preamble tm with
  | busBusy m =>
    rw [writeSlot_of_busy tm v l m h]
    rwa [h] at hpre
  | ran tf m =>
    rw [writeSlot_of_preamble tm v l m tf h]
    rw [h] at hpre
    have := hfall tf m h
    exact (hpre.pinAt _ _).setTime (by omega)

/-- A read slot advances the line (R130). -/
theorem readSlot_advances : l.Advances (l.readSlot tm).line := by
  obtain ⟨hpre, hfall⟩ := preamble_advances tm l
  cases h : l.preamble tm with
  | busBusy m =>
    rw [readSlot_of_busy tm l m h]
    rwa [h] at hpre
  | ran tf m =>
    rw [readSlot_of_preamble tm l m tf h]
    rw [h] at hpre
    have := hfall tf m h
    exact (hpre.pinAt _ _).setTime (by omega)

/-- A reset advances the line, whatever it detects (R128). -/
theorem resetBody_advances : l.Advances (l.resetBody tm).2 := by
  obtain ⟨hpre, hfall⟩ := preamble_advances tm l
  cases h : l.preamble tm with
  | busBusy m =>
    rw [show l.resetBody tm = (.busBusy, m) by simp [OneWire.resetBody, h]]
    rwa [h] at hpre
  | ran tf m =>
    rw [(resetBody_of_preamble tm l m tf h).1]
    rw [h] at hpre
    have := hfall tf m h
    exact (hpre.pinAt _ _).setTime (by omega)

end

/-! ### Runs of slots -/

/-- Write slots in sequence advance the line (R150). -/
theorem writeBits_advances (tm : Timing) (bits : List Bool) : ∀ (sent : Nat) (l : OneWire),
    l.Advances (l.writeBits tm bits sent).line := by
  induction bits with
  | nil => exact fun _ l => .refl l
  | cons b bs ih =>
    intro sent l
    have hslot := writeSlot_advances tm l b
    rw [OneWire.writeBits]
    cases h : l.writeSlot tm b with
    | busBusy m => rwa [h] at hslot
    | ran _ m =>
      rw [h] at hslot
      exact hslot.trans (ih _ m)

/-- Read slots in sequence advance the line (R154). -/
theorem readBits_advances (tm : Timing) (count : Nat) : ∀ (i : Nat) (v : Byte) (l : OneWire),
    l.Advances (l.readBits tm count i v).line := by
  induction count with
  | zero => exact fun _ _ l => .refl l
  | succ count ih =>
    intro i v l
    have hslot := readSlot_advances tm l
    rw [OneWire.readBits]
    cases h : l.readSlot tm with
    | busBusy m => rwa [h] at hslot
    | ran b m =>
      rw [h] at hslot
      exact hslot.trans (ih _ _ m)

/-- A byte is eight read slots (R154). -/
theorem readByte_advances (tm : Timing) (l : OneWire) : l.Advances (l.readByte tm).line :=
  readBits_advances tm 8 0 0 l

/-- Byte reads in sequence advance the line and keep the buffer's size (R155). -/
theorem readBytes_advances (tm : Timing) (count : Nat) : ∀ (k : Nat) (buf : List Byte) (l : OneWire),
    l.Advances (l.readBytes tm count k buf).line ∧
      (l.readBytes tm count k buf).buf.length = buf.length := by
  induction count with
  | zero => exact fun _ _ l => ⟨.refl l, rfl⟩
  | succ count ih =>
    intro k buf l
    have hbyte := readByte_advances tm l
    rw [OneWire.readBytes]
    cases h : l.readByte tm with
    | busBusy m => rw [h] at hbyte; exact ⟨hbyte, rfl⟩
    | ran v m =>
      rw [h] at hbyte
      obtain ⟨hrest, hlen⟩ := ih (k + 1) (bufWrite buf k v) m
      exact ⟨hbyte.trans hrest, hlen.trans List.length_set⟩

/-! ### Searching -/

/-- The working copies of a search are in the ranges of R33. -/
structure SearchPath.InRange (p : SearchPath) : Prop where
  lastZero : p.lastZero ≤ 64
  lfd : p.lfd.toNat ≤ 64

/-- One position keeps the working copies in range (R173). -/
theorem SearchPath.InRange.record {p : SearchPath} (h : p.InRange) {n : Nat} (hn : n ≤ 64)
    (id cmp dir : Bool) : (p.record n id cmp dir).InRange := by
  unfold SearchPath.record
  dsimp only
  split
  · refine ⟨hn, ?_⟩
    dsimp only
    split
    · rw [BitVec.toNat_ofNat]; omega
    · exact h.lfd
  · exact ⟨h.lastZero, h.lfd⟩

/-- A committed search state is in the ranges of R33. -/
theorem SearchPath.InRange.commit {p : SearchPath} (h : p.InRange) :
    p.commit.ld.toNat ≤ 64 ∧ p.commit.lfd.toNat ≤ 64 := by
  refine ⟨?_, h.lfd⟩
  have := h.lastZero
  simp only [SearchPath.commit, BitVec.toNat_ofNat]
  omega

/-- What holds of a search run from line `l` and search state `entry`: the line advances, and when `LFD`
was in range at entry, so is what the search found. -/
structure SearchRun.Good (entry : Search) (l : OneWire) (r : SearchRun) : Prop where
  advances : l.Advances r.line
  inRange : entry.lfd.toNat ≤ 64 → ∀ p m, r = .found p m → p.InRange

section
variable {entry : Search} {l m : OneWire}

theorem SearchRun.Good.failed (e : ErrCode) (h : l.Advances m) :
    SearchRun.Good entry l (.failed e m) := ⟨h, nofun⟩

theorem SearchRun.Good.after {r : SearchRun} (h : l.Advances m) (hr : r.Good entry m) :
    r.Good entry l := ⟨h.trans hr.advances, hr.inRange⟩

end

/-- The positions of a search, up to position 64, each two reads and one write (R173). -/
theorem searchBits_good (tm : Timing) (entry : Search) (count : Nat) :
    ∀ (n : Nat) (p : SearchPath) (l : OneWire), n + count ≤ 65 →
      (entry.lfd.toNat ≤ 64 → p.InRange) → (l.searchBits tm entry count n p).Good entry l := by
  induction count with
  | zero =>
    intro n p l _ hp
    refine ⟨.refl l, fun hentry q m h => ?_⟩
    obtain ⟨rfl, -⟩ := (SearchRun.found.injEq ..).mp h
    exact hp hentry
  | succ count ih =>
    intro n p l hn hp
    rw [OneWire.searchBits]
    have hid := readSlot_advances tm l
    cases h₁ : l.readSlot tm with
    | busBusy l₁ => rw [h₁] at hid; exact .failed _ hid
    | ran id l₁ =>
      rw [h₁] at hid
      refine .after hid ?_
      have hcmp := readSlot_advances tm l₁
      dsimp only
      cases h₂ : l₁.readSlot tm with
      | busBusy l₂ => rw [h₂] at hcmp; exact .failed _ hcmp
      | ran cmp l₂ =>
        rw [h₂] at hcmp
        refine .after hcmp ?_
        dsimp only
        split
        · exact .failed _ (.refl l₂)
        · have hdir := writeSlot_advances tm l₂ (searchDirection entry n id cmp)
          cases h₃ : l₂.writeSlot tm (searchDirection entry n id cmp) with
          | busBusy l₃ => rw [h₃] at hdir; exact .failed _ hdir
          | ran _ l₃ =>
            rw [h₃] at hdir
            exact .after hdir (ih _ _ l₃ (by omega) fun he => (hp he).record (by omega) _ _ _)

/-- A whole search step: reset, command byte, 64 positions (R173). -/
theorem searchRun_good (tm : Timing) (entry : Search) (alert : Bool) (l : OneWire) :
    (l.searchRun tm entry alert).Good entry l := by
  have hreset := resetBody_advances tm l
  unfold OneWire.searchRun
  split
  · next l₁ h₁ =>
    rw [h₁] at hreset
    refine .after hreset ?_
    have hbyte := writeBits_advances tm (byteBits (searchRom alert)) 0 l₁
    cases h₂ : l₁.writeBits tm (byteBits (searchRom alert)) 0 with
    | stopped _ l₂ => rw [h₂] at hbyte; exact .failed _ hbyte
    | ran l₂ =>
      rw [h₂] at hbyte
      exact .after hbyte (searchBits_good tm entry 64 1 _ l₂ le_rfl fun he => ⟨Nat.zero_le _, he⟩)
  · next e l₁ _ h₁ =>
    rw [h₁] at hreset
    exact .failed _ hreset

end Sys2Proof.Machine
end

section
/-! PROOFS. What the FSC unit can do in one command: the flash changes by logged events only (R236, R269),
and from elements in their ranges (R37 to R43) every element stays in range and every event stays inside
the flash (R60, R62). -/

namespace Sys2Proof.Machine

/-! ### Flash events inside the flash -/

/-- The event touches no byte outside `0 .. ES-1` (R60, R62); a decay outside it changes nothing. -/
def FlashEvent.InFlash (c : Config) : FlashEvent → Prop
  | .program a bytes => a + bytes.length ≤ c.es
  | .erase p => p < c.pages
  | .programCut a bytes => a + bytes.length ≤ c.es
  | .eraseCut p => p < c.pages
  | .upset _ _ => True

/-- Every page lies inside the flash (R6). -/
theorem page_end_le (c : Config) {p : Nat} (hp : p < c.pages) : p * c.ps + c.ps ≤ c.es :=
  calc p * c.ps + c.ps
    _ = (p + 1) * c.ps := (Nat.succ_mul p c.ps).symm
    _ ≤ c.pages * c.ps := Nat.mul_le_mul_right _ hp
    _ ≤ c.es := Nat.div_mul_le_self _ _

/-- The sectors of a page are sector indices (R66). -/
theorem page_sectors_le (c : Config) {p : Nat} (hp : p < c.pages) :
    p * c.spp + c.spp ≤ c.total :=
  calc p * c.spp + c.spp
    _ = (p + 1) * c.spp := (Nat.succ_mul p c.spp).symm
    _ ≤ c.total := Nat.mul_le_mul_right _ hp

/-- Every sector lies inside the flash (R6, R66). -/
theorem sector_end_le (c : Config) {i : Nat} (hi : i < c.total) : c.secAddr i + c.ss ≤ c.es := by
  have hspp : 0 < c.spp := Nat.pos_of_ne_zero fun h => by simp [Config.total, h] at hi
  have hpage : i / c.spp < c.pages := (Nat.div_lt_iff_lt_mul hspp).mpr hi
  have hslot : i % c.spp * c.ss + c.ss ≤ c.ps :=
    calc i % c.spp * c.ss + c.ss
      _ = (i % c.spp + 1) * c.ss := (Nat.succ_mul _ _).symm
      _ ≤ c.spp * c.ss := Nat.mul_le_mul_right _ (Nat.mod_lt _ hspp)
      _ ≤ c.ps := Nat.div_mul_le_self _ _
  have := page_end_le c hpage
  simp only [Config.secAddr]
  omega

/-- An event inside the flash lists no address outside it. -/
theorem below_applyFlashEvent (c : Config) (event : Nat) (e : FlashEvent) (m : Memory)
    (he : e.InFlash c) (h : Memory.below m c.es = true) :
    Memory.below (applyFlashEvent c event e m) c.es = true := by
  cases e with
  | program a bytes => exact below_programBytes _ _ _ _ _ h he
  | erase p => exact below_eraseRange _ _ _ _ h
  | programCut a bytes => exact below_programCutBytes _ _ _ _ _ h he
  | eraseCut p =>
    refine below_writeBytes _ _ _ _ h ?_
    rw [List.length_map, List.length_range]
    exact page_end_le c he
  | upset a v =>
    simp only [applyFlashEvent]
    split
    · next ha => exact below_write _ _ _ _ h ha
    · exact h

theorem below_replayFlash (c : Config) (es : List FlashEvent) : ∀ (event : Nat) (m : Memory),
    (∀ e ∈ es, e.InFlash c) → Memory.below m c.es = true →
    Memory.below (replayFlash c event es m) c.es = true := by
  induction es with
  | nil => exact fun _ _ _ h => h
  | cons e rest ih =>
    intro event m hes h
    exact ih _ _ (fun x hx => hes x (List.mem_cons_of_mem e hx))
      (below_applyFlashEvent c event e m (hes e List.mem_cons_self) h)

/-! ### Logged events -/

/-- From `f` to `g` the flash changed by logged events only, all of which satisfy `P`. -/
def Fsc.Performs (c : Config) (P : FlashEvent → Prop) (f g : Fsc) : Prop :=
  ∃ es, (∀ e ∈ es, P e) ∧ g.log = f.log ++ es ∧
    g.flash = replayFlash c f.log.length es f.flash

namespace Fsc.Performs
variable {c : Config} {P : FlashEvent → Prop} {f g h : Fsc}

theorem refl (c : Config) (P : FlashEvent → Prop) (f : Fsc) : f.Performs c P f :=
  ⟨[], nofun, (List.append_nil _).symm, rfl⟩

theorem trans (hfg : f.Performs c P g) (hgh : g.Performs c P h) : f.Performs c P h := by
  obtain ⟨es₁, hP₁, hlog₁, hflash₁⟩ := hfg
  obtain ⟨es₂, hP₂, hlog₂, hflash₂⟩ := hgh
  refine ⟨es₁ ++ es₂, fun e he => ?_, ?_, ?_⟩
  · rcases List.mem_append.mp he with he | he
    · exact hP₁ e he
    · exact hP₂ e he
  · rw [hlog₂, hlog₁, List.append_assoc]
  · rw [hflash₂, hlog₁, hflash₁, List.length_append, replayFlash_append]

/-- One device event. -/
theorem device (hfg : f.Performs c P g) {e : FlashEvent} (he : P e) :
    f.Performs c P (g.device c e) :=
  hfg.trans ⟨[e], by simpa using he, rfl, rfl⟩

/-- The canonical form of the flash survives. -/
theorem wf (hfg : f.Performs c P g) (hf : Memory.wf f.flash = true) :
    Memory.wf g.flash = true := by
  obtain ⟨es, -, -, hflash⟩ := hfg
  exact hflash ▸ wf_replayFlash c es _ _ hf

/-- Events inside the flash keep every listed address inside it. -/
theorem below (hfg : f.Performs c (FlashEvent.InFlash c) g)
    (hf : Memory.below f.flash c.es = true) : Memory.below g.flash c.es = true := by
  obtain ⟨es, hin, -, hflash⟩ := hfg
  exact hflash ▸ below_replayFlash c es _ _ hin hf

end Fsc.Performs

/-- A rescan performs one erase (R206). -/
theorem rescan_performs (c : Config) (P : FlashEvent → Prop) (f : Fsc)
    (h : P (.erase (f.rescan c).free)) : f.Performs c P (f.rescan c) :=
  (Fsc.Performs.refl c P f).device h

/-- The bytes that decay during a retry are events of the log too (log 13). -/
theorem strike_performs (c : Config) (P : FlashEvent → Prop) (f : Fsc)
    (h : ∀ a v, P (.upset a v)) : f.Performs c P (f.strike c) :=
  show f.Performs c P (f.decay.foldl _ f) from
    List.foldlRecOn _ _ (.refl c P f) fun _ hg _ _ => hg.device (h _ _)

/-- Placing a sector performs one program (R231). -/
theorem place_performs (c : Config) (P : FlashEvent → Prop) (id : Nat) (tomb : Bool)
    (payload : List Byte) (w : Nat) (f : Fsc)
    (h : P (.program (c.secAddr w) (makeSector id tomb payload))) :
    f.Performs c P (f.place c id tomb payload w) :=
  (Fsc.Performs.refl c P f).device h

/-- Copying a sector performs a program when the sector has an owner, else nothing (R235). -/
theorem copySector_performs (c : Config) (P : FlashEvent → Prop) (id i : Nat) (f : Fsc)
    (h : ∀ j, liveOwner c f.dir id i = some j →
      P (.program (c.secAddr f.wp) (sectorAt c f.flash i))) :
    f.Performs c P (f.copySector c id i) := by
  obtain ⟨-, hg⟩ | ⟨j, hj, -, hg⟩ | ⟨j, -, -, hg⟩ := copySector_cases c id i f <;> rw [hg]
  · exact .refl c P f
  · exact (Fsc.Performs.refl c P f).device (h j hj)
  · exact .refl c P f

/-- Copying a page forward performs logged events only (R235). -/
theorem copyForward_performs (c : Config) (v id k : Nat) (f : Fsc) :
    f.Performs c (fun _ => True) (f.copyForward c v id k) := by
  induction k with
  | zero => exact .refl c _ f
  | succ k ih => exact ih.trans (copySector_performs c _ id _ _ fun _ _ => trivial)

/-- The FSC unit once the defragmentation path has programmed the new sector (R232). -/
def Fsc.placedInFree (c : Config) (id : Nat) (tomb : Bool) (payload : List Byte) (f : Fsc) : Fsc :=
  { f.place c id tomb payload (f.free * c.spp) with wp := f.free * c.spp + 1 }

/-- The defragmentation path: place, copy the victim forward, erase it (R232). -/
theorem appendDefrag_eq (c : Config) (id : Nat) (tomb : Bool) (payload : List Byte) (v : Nat)
    (f : Fsc) :
    f.appendDefrag c id tomb payload v =
      { ((f.placedInFree c id tomb payload).copyForward c v id c.spp).device c (.erase v) with
        wp := ((f.placedInFree c id tomb payload).copyForward c v id c.spp).wp % c.total
        free := v, listActive := false } := rfl

/-- An append that writes performs logged events only (R236). -/
theorem append_performs (c : Config) (id : Nat) (tomb : Bool) (payload : List Byte) (f g : Fsc)
    (w : Nat) (h : f.append c id tomb payload = .written w g) : f.Performs c (fun _ => True) g := by
  obtain ⟨-, -, he⟩ | ⟨v, -, -, -, he⟩ | ⟨-, -, -, he⟩ | ⟨-, he⟩ := append_cases c id tomb payload f <;>
    rw [he] at h
  · obtain ⟨-, rfl⟩ := (AppendEnd.written.injEq ..).mp h
    exact place_performs c _ id tomb payload f.wp f trivial
  · obtain ⟨-, rfl⟩ := (AppendEnd.written.injEq ..).mp h
    have hplace : f.Performs c (fun _ => True) (f.placedInFree c id tomb payload) :=
      place_performs c _ id tomb payload _ f trivial
    have hdefrag := (hplace.trans (copyForward_performs c v id c.spp _)).device (e := .erase v) trivial
    exact hdefrag
  · cases h
  · cases h

/-! ### Elements in range -/

/-- A directory whose entries are absent or sector indices (R37). -/
def DirInRange (c : Config) (dir : List (Option Nat)) : Prop :=
  dir.length = c.n ∧ ∀ e ∈ dir, e.all (fun i => decide (i < c.total)) = true

/-- The FSC unit's part of `State.WellShaped` but for the flash (R37 to R43). -/
structure Fsc.InRange (c : Config) (f : Fsc) : Prop where
  dir : DirInRange c f.dir
  wp : f.wp < c.total
  free : f.free < c.pages
  listPos : f.listPos ≤ c.total
  listBase : f.listBase < c.total

/-- The entry of a file is absent or a sector index. -/
theorem DirInRange.getD_lt {c : Config} {dir : List (Option Nat)} (h : DirInRange c dir) {id i : Nat}
    (hi : dir.getD id none = some i) : i < c.total := by
  have hmem : some i ∈ dir := by
    rw [List.getD_eq_getElem?_getD, Option.getD_eq_iff] at hi
    obtain hi | ⟨-, hi⟩ := hi
    · exact List.mem_of_getElem? hi
    · cases hi
  simpa using h.2 _ hmem

/-- Recording a sector index or an absence keeps the directory in range. -/
theorem DirInRange.set {c : Config} {dir : List (Option Nat)} (h : DirInRange c dir) (id : Nat)
    {e : Option Nat} (he : ∀ i, e = some i → i < c.total) : DirInRange c (dir.set id e) := by
  refine ⟨List.length_set.trans h.1, fun x hx => ?_⟩
  rcases List.mem_or_eq_of_mem_set hx with hx | rfl
  · exact h.2 x hx
  · cases x with
    | none => rfl
    | some i => simpa using he i rfl

/-! ### The scan and the rescan (R203, R205) -/

/-- A scan that has met sectors `0 .. k-1` has recorded no others. -/
structure Scan.Below (a : Scan) (k : Nat) : Prop where
  dir : ∀ e ∈ a.dir, e.all (fun i => decide (i < k)) = true
  head : ∀ h, a.head = some h → h < k

theorem Scan.Below.mono {a : Scan} {k m : Nat} (h : a.Below k) (hkm : k ≤ m) : a.Below m where
  dir e he := by
    have := h.dir e he
    cases e with
    | none => rfl
    | some i => simp only [Option.all_some, decide_eq_true_eq] at this ⊢; omega
  head x hx := (h.head x hx).trans_le hkm

/-- One sector of the scan records that sector at most (R203). -/
theorem Scan.Below.sector {a : Scan} {k : Nat} (h : a.Below k) (c : Config) (sec : List Byte) :
    (a.sector c k sec).Below (k + 1) := by
  have hmono := h.mono k.le_succ
  unfold Scan.sector
  split
  · refine ⟨hmono.dir, fun x hx => ?_⟩
    cases hh : a.head with
    | none => simp [hh] at hx; omega
    | some y => simp [hh] at hx; exact hx ▸ hmono.head y hh
  · split
    · exact ⟨hmono.dir, hmono.head⟩
    · split
      · refine ⟨fun e he => ?_, hmono.head⟩
        rcases List.mem_or_eq_of_mem_set he with he | rfl
        · exact hmono.dir e he
        · split
          · rfl
          · simp
      · exact hmono

theorem scanUpTo_below (c : Config) (m : Memory) (k : Nat) : (scanUpTo c m k).Below k := by
  induction k with
  | zero =>
    refine ⟨fun e he => ?_, nofun⟩
    rw [List.eq_of_mem_replicate he]
    rfl
  | succ k ih => exact ih.sector c _

/-- The page sacrificed when no sector is free is a page (R205). -/
theorem sacrificePage_lt (c : Config) (hc : c.Valid) (dir : List (Option Nat)) :
    sacrificePage c dir < c.pages := by
  unfold sacrificePage
  cases h : (List.range c.pages).find? fun p => !pageMarked c dir p with
  | none => have := hc.pages_pos; simp only [Option.getD_none]; omega
  | some p => exact List.mem_range.mp (List.mem_of_find?_eq_some h)

/-- Locating gives a sector index and a page index (R205). -/
theorem locate_inRange (c : Config) (hc : c.Valid) (hint head : Option Nat) (dir : List (Option Nat))
    (hhint : ∀ p, hint = some p → p < c.pages) (hhead : ∀ h, head = some h → h < c.total) :
    (locate c hint head dir).1 < c.total ∧ (locate c hint head dir).2 < c.pages := by
  cases head with
  | none =>
    have hs := sacrificePage_lt c hc dir
    exact ⟨Nat.mul_lt_mul_of_pos_right hs hc.spp_pos, hs⟩
  | some h =>
    refine ⟨hhead h rfl, ?_⟩
    cases hint with
    | none => exact Nat.mod_lt _ hc.pages_pos
    | some p => exact hhint p rfl

/-- A rescan leaves every element in range (R201, R205), whatever directory and pointers it found. -/
theorem rescan_inRange (c : Config) (hc : c.Valid) (f : Fsc) (hpos : f.listPos ≤ c.total)
    (hbase : f.listBase < c.total) : (f.rescan c).InRange c := by
  obtain ⟨hwp, hfree⟩ := locate_inRange c hc (findHint c f.flash) (scan c f.flash).head
    (scan c f.flash).dir
    (fun p hp => List.mem_range.mp (List.mem_of_find?_eq_some hp))
    (scanUpTo_below c f.flash c.total).head
  exact ⟨⟨rescan_dir_length c f, (scanUpTo_below c _ c.total).dir⟩, hwp, hfree, hpos, hbase⟩

/-- A device event moves no pointer. -/
theorem Fsc.InRange.device {c : Config} {f : Fsc} (h : f.InRange c) (e : FlashEvent) :
    (f.device c e).InRange c := ⟨h.dir, h.wp, h.free, h.listPos, h.listBase⟩

theorem Fsc.InRange.strike {c : Config} {f : Fsc} (h : f.InRange c) : (f.strike c).InRange c := by
  have hfold : (f.decay.foldl (fun g cell => g.device c (.upset cell.1 cell.2)) f).InRange c :=
    List.foldlRecOn _ _ h fun _ hg _ _ => hg.device _
  exact ⟨hfold.dir, hfold.wp, hfold.free, hfold.listPos, hfold.listBase⟩

/-! ### The listing cursor (R216, R217) -/

theorem Fsc.InRange.listStart {c : Config} (hc : c.Valid) {f : Fsc} (h : f.InRange c) (id : Byte) :
    (f.listStart c id).InRange c :=
  ⟨h.dir, h.wp, h.free, Nat.zero_le _,
    Nat.mul_lt_mul_of_pos_right (Nat.mod_lt _ hc.pages_pos) hc.spp_pos⟩

/-- A revision step moves the cursor only, no further than `T` (R217). -/
theorem listStep_frame (c : Config) (f : Fsc) :
    ∃ pos active, (f.listStep c (c.total - f.listPos)).2 =
      { f with listPos := pos, listActive := active } ∧ (f.listPos ≤ c.total → pos ≤ c.total) := by
  obtain ⟨r, g, hstep⟩ : ∃ r g, f.listStep c (c.total - f.listPos) = (r, g) := ⟨_, _, rfl⟩
  rw [hstep]
  cases r with
  | some i =>
    obtain ⟨k, hk, -, -, -, rfl⟩ := listStep_some c _ f g i hstep
    exact ⟨f.listPos + k + 1, f.listActive, rfl, by omega⟩
  | none =>
    obtain ⟨-, rfl⟩ := listStep_none c _ f g hstep
    exact ⟨_, false, rfl, by omega⟩

/-! ### Append (R231 to R235) -/

/-- A new entry for one file, in the pages the live sectors of files are counted by. -/
theorem livePage_set (c : Config) (dir : List (Option Nat)) (j k : Nat) (e : Option Nat)
    (hj : j < dir.length) :
    livePage c (dir.set j e) k = if k = j then e.map c.pageOf else livePage c dir k := by
  unfold livePage
  rw [List.getD_eq_getElem?_getD, List.getElem?_set]
  split
  · next h => subst h; simp
  · next h => rw [if_neg (Ne.symm h), List.getD_eq_getElem?_getD]

/-- File `id`'s own entry does not count among the live sectors of other files. -/
theorem liveCount_set_self (c : Config) (dir : List (Option Nat)) (id v : Nat) (e : Option Nat) :
    liveCount c (dir.set id e) id v = liveCount c dir id v := by
  refine congrArg (List.countP · _) (funext fun j => ?_)
  by_cases hj : j = id
  · simp only [hj, ne_eq, not_true_eq_false, decide_false, Bool.false_and]
  · simp [Ne.symm hj]

/-- Moving another file's live sector out of page `v` leaves fewer there (R235). -/
theorem liveCount_set_lt (c : Config) (dir : List (Option Nat)) (id v i j : Nat) (e : Option Nat)
    (hj : j < c.n) (hjid : j ≠ id) (hentry : dir.getD j none = some i) (hpage : c.pageOf i = v)
    (hout : ∀ x, e = some x → c.pageOf x ≠ v) :
    liveCount c (dir.set j e) id v < liveCount c dir id v := by
  have hlen : j < dir.length := by
    by_contra hge
    rw [List.getD_eq_default _ _ (Nat.le_of_not_lt hge)] at hentry
    cases hentry
  rw [liveCount_eq_card, liveCount_eq_card]
  refine Finset.card_lt_card (Finset.ssubset_iff_of_subset ?_ |>.mpr ⟨j, ?_, ?_⟩)
  · intro k hk
    obtain ⟨hmem, hk⟩ := Finset.mem_filter.mp hk
    refine Finset.mem_filter.mpr ⟨hmem, ?_⟩
    rw [livePage_set c dir j k e hlen] at hk
    split at hk
    · obtain ⟨x, rfl, hx⟩ := Option.map_eq_some_iff.mp hk
      exact absurd hx (hout x rfl)
    · exact hk
  · refine Finset.mem_filter.mpr ⟨Finset.mem_erase.mpr ⟨hjid, Finset.mem_range.mpr hj⟩, ?_⟩
    rw [livePage, hentry, Option.map_some, hpage]
  · intro hmem
    have hset := (Finset.mem_filter.mp hmem).2
    rw [livePage_set c dir j j e hlen, if_pos rfl] at hset
    obtain ⟨x, rfl, hx⟩ := Option.map_eq_some_iff.mp hset
    exact hout x rfl hx

/-- What holds while page `v` is copied into page `FREE` (R235): the write pointer is in page `FREE` with
room for every live sector still in `v`, so it stays there as long as there is one to copy. -/
structure Fsc.Copying (c : Config) (v id : Nat) (f : Fsc) : Prop where
  dir : DirInRange c f.dir
  free : f.free < c.pages
  other : f.free ≠ v
  start : f.free * c.spp ≤ f.wp
  room : f.wp + liveCount c f.dir id v ≤ f.free * c.spp + c.spp

/-- Copying one sector of page `v` keeps that, and programs inside the flash. -/
theorem Fsc.Copying.copySector {c : Config} {v id : Nat} {f : Fsc} (h : f.Copying c v id)
    {i : Nat} (hi : c.pageOf i = v) :
    (f.copySector c id i).Copying c v id ∧
      f.Performs c (FlashEvent.InFlash c) (f.copySector c id i) := by
  have howner : ∀ j, liveOwner c f.dir id i = some j →
      j < c.n ∧ j ≠ id ∧ f.dir.getD j none = some i := by
    intro j hj
    have hp := List.find?_some hj
    simp only [Bool.and_eq_true, decide_eq_true_eq] at hp
    exact ⟨List.mem_range.mp (List.mem_of_find?_eq_some hj), hp⟩
  have hwp : ∀ j, liveOwner c f.dir id i = some j →
      f.wp < c.total ∧ c.pageOf f.wp ≠ v := by
    intro j hj
    obtain ⟨hjn, hjid, hentry⟩ := howner j hj
    have hlt := liveCount_set_lt c f.dir id v i j none hjn hjid hentry hi nofun
    have hroom := h.room
    have hstart := h.start
    have hend := page_sectors_le c h.free
    have hpage : c.pageOf f.wp = f.free := by
      refine Nat.div_eq_of_lt_le hstart ?_
      rw [Nat.succ_mul]
      omega
    exact ⟨by omega, hpage ▸ h.other⟩
  constructor
  · obtain ⟨-, hg⟩ | ⟨j, hj, -, hg⟩ | ⟨j, hj, -, hg⟩ := copySector_cases c id i f <;> rw [hg]
    · exact h
    · obtain ⟨hjn, hjid, hentry⟩ := howner j hj
      obtain ⟨hwlt, hwpage⟩ := hwp j hj
      have hlt := liveCount_set_lt c f.dir id v i j (some f.wp) hjn hjid hentry hi
        fun x hx => Option.some.inj hx ▸ hwpage
      have hroom := h.room
      have hstart := h.start
      exact ⟨h.dir.set j fun x hx => Option.some.inj hx ▸ hwlt, h.free, h.other,
        show f.free * c.spp ≤ f.wp + 1 by omega,
        show f.wp + 1 + liveCount c (f.dir.set j (some f.wp)) id v ≤
            f.free * c.spp + c.spp by omega⟩
    · obtain ⟨hjn, hjid, hentry⟩ := howner j hj
      have hlt := liveCount_set_lt c f.dir id v i j none hjn hjid hentry hi nofun
      have hroom := h.room
      exact ⟨h.dir.set j nofun, h.free, h.other, h.start,
        show f.wp + liveCount c (f.dir.set j none) id v ≤ f.free * c.spp + c.spp by omega⟩
  · refine copySector_performs c _ id i f fun j hj => ?_
    show c.secAddr f.wp + (sectorAt c f.flash i).length ≤ c.es
    rw [sectorAt_length]
    exact sector_end_le c (hwp j hj).1

/-- Copying a page forward keeps it too (R235). -/
theorem Fsc.Copying.copyForward {c : Config} {v id : Nat} {f : Fsc} (h : f.Copying c v id) (k : Nat)
    (hk : k ≤ c.spp) :
    (f.copyForward c v id k).Copying c v id ∧
      f.Performs c (FlashEvent.InFlash c) (f.copyForward c v id k) := by
  induction k with
  | zero => exact ⟨h, .refl c _ f⟩
  | succ k ih =>
    obtain ⟨hcopy, hperf⟩ := ih (by omega)
    have hpage : c.pageOf (v * c.spp + k) = v := by
      refine Nat.div_eq_of_lt_le (Nat.le_add_right _ _) ?_
      rw [Nat.succ_mul]
      omega
    obtain ⟨hnext, hstep⟩ := hcopy.copySector hpage
    exact ⟨hnext, hperf.trans hstep⟩

/-- A made sector is a header, a CRC and the payload (R230). -/
theorem makeSector_length (id : Nat) (tomb : Bool) (payload : List Byte) :
    (makeSector id tomb payload).length = payload.length + 2 := rfl

/-- Programming a new sector at a sector index is an event inside the flash. -/
theorem program_inFlash (c : Config) (id : Nat) (tomb : Bool) (payload : List Byte) {w : Nat}
    (hpay : payload.length = c.sds) (hw : w < c.total) :
    (FlashEvent.program (c.secAddr w) (makeSector id tomb payload)).InFlash c := by
  show c.secAddr w + (makeSector id tomb payload).length ≤ c.es
  rw [makeSector_length, hpay]
  exact sector_end_le c hw

/-- The entry an append makes is absent or the sector written. -/
theorem DirInRange.place {c : Config} {dir : List (Option Nat)} (h : DirInRange c dir) (id : Nat)
    (tomb : Bool) {w : Nat} (hw : w < c.total) :
    DirInRange c (dir.set id (if tomb then none else some w)) := by
  refine h.set id fun i hi => ?_
  split at hi
  · cases hi
  · exact Option.some.inj hi ▸ hw

/-- The victim is a page, and not the free one (R233). -/
theorem selectVictim_page (c : Config) (hc : c.Valid) {dir : List (Option Nat)} {free id v : Nat}
    (hfree : free < c.pages) (h : selectVictim c dir free id = some v) : v < c.pages ∧ free ≠ v := by
  obtain ⟨⟨k, hk1, hkp, hvk⟩, -⟩ := selectVictim_some c dir free id v h
  refine ⟨hvk ▸ Nat.mod_lt _ hc.pages_pos, fun heq => ?_⟩
  have hmod : free + 0 ≡ free + k [MOD c.pages] := by
    rw [Nat.ModEq, Nat.add_zero, ← hvk, ← heq, Nat.mod_eq_of_lt hfree]
  have := (Nat.ModEq.add_left_cancel' free hmod).eq_of_lt_of_lt hc.pages_pos hkp
  omega

/-- Once the new sector stands in page `FREE`, the victim's fewer than `SPP` live sectors fit behind it. -/
theorem placedInFree_copying (c : Config) (hc : c.Valid) {id v : Nat} (tomb : Bool)
    (payload : List Byte) {f : Fsc} (hf : f.InRange c)
    (hv : selectVictim c f.dir f.free id = some v) :
    (f.placedInFree c id tomb payload).Copying c v id where
  dir := hf.dir.place id tomb (Nat.mul_lt_mul_of_pos_right hf.free hc.spp_pos)
  free := hf.free
  other := (selectVictim_page c hc hf.free hv).2
  start := Nat.le_succ _
  room := by
    show f.free * c.spp + 1 +
      liveCount c (f.dir.set id (if tomb then none else some (f.free * c.spp))) id v ≤
        f.free * c.spp + c.spp
    rw [liveCount_set_self]
    have hlive := (selectVictim_some c f.dir f.free id v hv).2
    omega

/-- From elements in range an append leaves them in range and stays inside the flash (R231, R232). -/
theorem append_inRange (c : Config) (hc : c.Valid) (id : Nat) (tomb : Bool) (payload : List Byte)
    (hpay : payload.length = c.sds) (f g : Fsc) (w : Nat) (hf : f.InRange c)
    (h : f.append c id tomb payload = .written w g) :
    g.InRange c ∧ f.Performs c (FlashEvent.InFlash c) g := by
  obtain ⟨-, hw, he⟩ | ⟨v, -, hfree, hv, he⟩ | ⟨-, -, -, he⟩ | ⟨-, he⟩ :=
    append_cases c id tomb payload f <;> rw [he] at h
  · obtain ⟨-, rfl⟩ := (AppendEnd.written.injEq ..).mp h
    exact ⟨⟨hf.dir.place id tomb hw, Nat.mod_lt _ hc.total_pos, hf.free, hf.listPos, hf.listBase⟩,
      place_performs c _ id tomb payload f.wp f (program_inFlash c id tomb payload hpay hw)⟩
  · obtain ⟨-, rfl⟩ := (AppendEnd.written.injEq ..).mp h
    have hvlt := (selectVictim_page c hc hfree hv).1
    have hfirst : f.free * c.spp < c.total := Nat.mul_lt_mul_of_pos_right hfree hc.spp_pos
    have hplace : f.Performs c (FlashEvent.InFlash c) (f.placedInFree c id tomb payload) :=
      place_performs c _ id tomb payload _ f (program_inFlash c id tomb payload hpay hfirst)
    obtain ⟨hcopied, hcopy⟩ := (placedInFree_copying c hc tomb payload hf hv).copyForward c.spp le_rfl
    obtain ⟨-, -, -, -, hpos, hbase, -, -⟩ :=
      copyForward_keeps c v id c.spp (f.placedInFree c id tomb payload)
    have hdefrag := (hplace.trans hcopy).device (e := .erase v) hvlt
    rw [appendDefrag_eq]
    exact ⟨⟨hcopied.dir, Nat.mod_lt _ hc.total_pos, hvlt, hpos.trans_le hf.listPos,
      hbase.trans_lt hf.listBase⟩, hdefrag⟩
  · cases h
  · cases h

/-! ### What one command can do (R200 to R241) -/

/-- `g` is reached from `f` by the procedures the FSC commands are made of. -/
inductive Fsc.Reaches (c : Config) (f : Fsc) : Fsc → Prop
  | refl : Fsc.Reaches c f f
  | rescan {g : Fsc} : Fsc.Reaches c f g → Fsc.Reaches c f (g.rescan c)
  | strike {g : Fsc} : Fsc.Reaches c f g → Fsc.Reaches c f (g.strike c)
  | listStart {g : Fsc} (id : Byte) : Fsc.Reaches c f g → Fsc.Reaches c f (g.listStart c id)
  | listStep {g : Fsc} : Fsc.Reaches c f g →
      Fsc.Reaches c f (g.listStep c (c.total - g.listPos)).2
  | append {g h : Fsc} (id : Nat) (tomb : Bool) (payload : List Byte) (w : Nat) :
      payload.length = c.sds → Fsc.Reaches c f g → g.append c id tomb payload = .written w h →
      Fsc.Reaches c f h

/-- The FSC commands change the flash by logged events only (R236, R269). -/
theorem Fsc.Reaches.performs {c : Config} {f g : Fsc} (h : Fsc.Reaches c f g) :
    f.Performs c (fun _ => True) g := by
  induction h with
  | refl => exact .refl c _ f
  | rescan _ ih => exact ih.trans (rescan_performs c _ _ trivial)
  | strike _ ih => exact ih.trans (strike_performs c _ _ fun _ _ => trivial)
  | listStart id _ ih => exact ih
  | listStep _ ih =>
    obtain ⟨pos, active, hstep, -⟩ := listStep_frame c _
    rw [hstep]
    exact ih
  | append id tomb payload w _ _ happ ih =>
    exact ih.trans (append_performs c id tomb payload _ _ w happ)

/-- From elements in range the FSC commands leave them in range, and perform events inside the flash
only (R37 to R43, R62). -/
theorem Fsc.Reaches.inRange {c : Config} (hc : c.Valid) {f g : Fsc} (h : Fsc.Reaches c f g)
    (hf : f.InRange c) : g.InRange c ∧ f.Performs c (FlashEvent.InFlash c) g := by
  induction h with
  | refl => exact ⟨hf, .refl c _ f⟩
  | rescan _ ih =>
    obtain ⟨hg, hperf⟩ := ih
    have hres := rescan_inRange c hc _ hg.listPos hg.listBase
    exact ⟨hres, hperf.trans (rescan_performs c _ _ hres.free)⟩
  | strike _ ih =>
    obtain ⟨hg, hperf⟩ := ih
    exact ⟨hg.strike, hperf.trans (strike_performs c _ _ fun _ _ => trivial)⟩
  | listStart id _ ih => exact ⟨ih.1.listStart hc id, ih.2⟩
  | listStep _ ih =>
    obtain ⟨hg, hperf⟩ := ih
    obtain ⟨pos, active, hstep, hpos⟩ := listStep_frame c _
    rw [hstep]
    exact ⟨⟨hg.dir, hg.wp, hg.free, hpos hg.listPos, hg.listBase⟩, hperf⟩
  | append id tomb payload w hpay _ happ ih =>
    obtain ⟨hg, hperf⟩ := ih
    obtain ⟨hh, hwrite⟩ := append_inRange c hc id tomb payload hpay _ _ w hg happ
    exact ⟨hh, hperf.trans hwrite⟩

end Sys2Proof.Machine
end

section
/-! PROOFS. What each command can do, said once for all 24 (R24, R35, R45, R195, R284): a command that ends
has changed its own unit only, in a way of `Instr.Changes`, and then `OK`, `ERR`, `RES` and `BUSY`. -/

namespace Sys2Proof.Machine

/-- `t` is `u` after a command that brought the block to `u` has ended there (R95). -/
def EndsIn (u t : State) : Prop :=
  ∃ ok err res, t = { u with ok := ok, err := err, res := res, busy := false }

theorem endsIn_done (v : Word) (u : State) : EndsIn u (done v u) := ⟨_, _, _, rfl⟩

theorem endsIn_fail (e : ErrCode) (v : Word) (u : State) : EndsIn u (fail e v u) := ⟨_, _, _, rfl⟩

/-- What command `i` can make of `s` before it ends: one constructor per kind of command, with the two
line commands that change more than the line. -/
inductive Changes (i : Instr) (s : State) : State → Prop
  /-- `OW_BEGIN` (R127) -/
  | bind (pin : Byte) : i.kind = .bind → Changes i s { s with line := s.line.begin pin }
  /-- a line command turned away before its first slot (R93, R126, R151, R173) -/
  | turnedAway : i.kind = .line → Changes i s s
  /-- a line command on a bound pin (R123) -/
  | line (l : OneWire) : i.kind = .line → s.line.bound = true → s.line.Advances l →
      Changes i s { s with line := l.finish }
  /-- `OW_READ_BYTES` (R155) -/
  | readBytes (n : Byte) (l : OneWire) (buf : List Byte) : i = .owReadBytes n →
      s.line.bound = true → s.line.Advances l → buf.length = s.owbuf.length →
      Changes i s { s with line := l.finish, owbuf := buf }
  /-- a search step that succeeds (R173) -/
  | search (a : Byte) (l : OneWire) (p : SearchPath) : i = .owSearch a →
      s.line.bound = true → s.line.Advances l → (s.search.lfd.toNat ≤ 64 → p.InRange) →
      Changes i s { s with line := l.finish, search := p.commit, addr := p.rom }
  /-- a new search state (R171, R172) -/
  | searchState (q : Search) : i.kind = .searchState → q.ld.toNat ≤ 64 → q.lfd.toNat ≤ 64 →
      Changes i s { s with search := q }
  /-- the CRC unit (R195) -/
  | crc : i.kind = .crc → Changes i s (spend s)
  /-- the FSC unit -/
  | store (f : Fsc) (buf : List Byte) : i.kind = .store → Fsc.Reaches s.cfg s.fsc f →
      (buf = s.dbuf ∨ buf.length = s.cfg.sds) →
      Changes i s { spend s with fsc := f, dbuf := buf }

/-- `i` can bring `s` to an end in `t`. -/
def Ran (i : Instr) (s t : State) : Prop := ∃ u, Changes i s u ∧ EndsIn u t

/-! ### The OWM unit -/

section
variable {i : Instr} {s t : State}

/-- A line command on a bound pin, or turned away by R126. -/
theorem withPin_ran {body : Result} (hi : i.kind = .line)
    (hbody : s.line.bound = true → body = .next t → Ran i s t) (h : withPin s body = .next t) :
    Ran i s t := by
  rcases (withPin_next s t body).mp h with ⟨hbound, h⟩ | ⟨-, rfl⟩
  · exact hbody hbound h
  · exact ⟨s, .turnedAway hi, endsIn_fail _ _ _⟩

/-- The same with a one-bit operand, illegal above 1 (R93). -/
theorem withBitOperand_ran {a : Byte} {body : Bool → Result} (hi : i.kind = .line)
    (hbody : ∀ b, body b = .next t → Ran i s t) (h : withBitOperand a s body = .next t) :
    Ran i s t := by
  rcases (withBitOperand_next a s t body).mp h with ⟨-, h⟩ | ⟨-, rfl⟩
  · exact hbody _ h
  · exact ⟨s, .turnedAway hi, endsIn_fail _ _ _⟩

/-- The same with a count operand (R151). -/
theorem withCount_ran {need : Nat} {body : Result} (hi : i.kind = .line)
    (hbody : body = .next t → Ran i s t) (h : withCount need s body = .next t) : Ran i s t := by
  rcases (withCount_next need s t body).mp h with ⟨-, h⟩ | ⟨-, rfl⟩
  · exact hbody h
  · exact ⟨s, .turnedAway hi, endsIn_fail _ _ _⟩

/-- A line command on a bound pin ends with its last act, `Pin <- Idle`, on the line its slots left
(R123 b). -/
theorem ran_line {body : Result} {l : OneWire} (hi : i.kind = .line) (hbound : s.line.bound = true)
    (hl : s.line.Advances l) (hends : ∃ u, body = .next u ∧ EndsIn { s with line := l.finish } u)
    (h : body = .next t) : Ran i s t := by
  obtain ⟨u, rfl, hu⟩ := hends
  cases h
  exact ⟨_, .line l hi hbound hl, hu⟩

/-- The commands that only write slots (R150). -/
theorem sendBits_ran {bits : List Bool} {okRes : Word} {unit : Nat} (hi : i.kind = .line)
    (hbound : s.line.bound = true) (h : sendBits bits okRes unit s = .next t) : Ran i s t := by
  refine ran_line hi hbound (writeBits_advances s.cfg.timing bits 0 s.line) ?_ h
  unfold sendBits
  cases s.line.writeBits s.cfg.timing bits 0 <;> exact ⟨_, rfl, _, _, _, rfl⟩

theorem owReset_ran (h : execOwReset s = .next t) : Ran .owReset s t := by
  refine withPin_ran rfl (fun hbound =>
    ran_line rfl hbound (resetBody_advances s.cfg.timing s.line) ?_) h
  split
  all_goals
    next hrun =>
      rw [hrun]
      exact ⟨_, rfl, _, _, _, rfl⟩

theorem owWriteBit_ran {v : Byte} (h : execOwWriteBit v s = .next t) : Ran (.owWriteBit v) s t := by
  refine withBitOperand_ran rfl (fun b => withPin_ran rfl fun hbound =>
    ran_line rfl hbound (writeSlot_advances s.cfg.timing s.line b) ?_) h
  cases s.line.writeSlot s.cfg.timing b <;> exact ⟨_, rfl, _, _, _, rfl⟩

theorem owReadBit_ran (h : execOwReadBit s = .next t) : Ran .owReadBit s t := by
  refine withPin_ran rfl (fun hbound =>
    ran_line rfl hbound (readSlot_advances s.cfg.timing s.line) ?_) h
  cases s.line.readSlot s.cfg.timing <;> exact ⟨_, rfl, _, _, _, rfl⟩

theorem owRead_ran (h : execOwRead s = .next t) : Ran .owRead s t := by
  refine withPin_ran rfl (fun hbound =>
    ran_line rfl hbound (readByte_advances s.cfg.timing s.line) ?_) h
  cases s.line.readByte s.cfg.timing <;> exact ⟨_, rfl, _, _, _, rfl⟩

theorem owReadBytes_ran {n : Byte} (h : execOwReadBytes n s = .next t) : Ran (.owReadBytes n) s t := by
  refine withPin_ran rfl (fun hbound h => withCount_ran rfl (fun h => ?_) h) h
  obtain ⟨hl, hbuf⟩ := readBytes_advances s.cfg.timing n.toNat 0 s.owbuf s.line
  split at h
  all_goals
    next hrun =>
      rw [hrun] at hl hbuf
      cases h
      exact ⟨_, .readBytes n _ _ rfl hbound hl hbuf, _, _, _, rfl⟩

theorem owSearch_ran {a : Byte} (h : execOwSearch a s = .next t) : Ran (.owSearch a) s t := by
  refine withBitOperand_ran rfl (fun alert h => withPin_ran rfl (fun hbound h => ?_) h) h
  have hgood := searchRun_good s.cfg.timing s.search alert s.line
  split at h
  · cases h
    exact ⟨s, .turnedAway rfl, endsIn_fail _ _ _⟩
  · split at h
    · next hrun =>
      rw [hrun] at hgood
      cases h
      exact ran_line rfl hbound hgood.advances ⟨_, rfl, endsIn_fail _ _ _⟩ rfl
    · next p l hrun =>
      rw [hrun] at hgood
      cases h
      exact ⟨_, .search a l p rfl hbound hgood.advances fun hlfd => hgood.inRange hlfd p l rfl,
        endsIn_done _ _⟩

/-! ### The CRC unit -/

/-- A CRC command spends its time, whether or not its count is in range (R195). -/
theorem withCount_spend_ran {need : Nat} {v : Word} (hi : i.kind = .crc)
    (h : withCount need (spend s) (.next (done v (spend s))) = .next t) : Ran i s t := by
  refine ⟨_, .crc hi, ?_⟩
  rcases (withCount_next need (spend s) t _).mp h with ⟨-, h⟩ | ⟨-, rfl⟩
  · cases h
    exact endsIn_done _ _
  · exact endsIn_fail _ _ _

/-! ### The FSC unit -/

/-- An FSC command whose FSC unit ends in `f`, with `DBUF` kept. -/
theorem ran_store {f : Fsc} (hi : i.kind = .store) (hf : Fsc.Reaches s.cfg s.fsc f)
    (h : EndsIn { spend s with fsc := f } t) : Ran i s t :=
  ⟨_, .store f s.dbuf hi hf (.inl rfl), h⟩

theorem withStore_ran {body : State → Result} (hi : i.kind = .store)
    (hbody : body (spend s) = .next t → Ran i s t) (h : withStore s body = .next t) : Ran i s t := by
  obtain ⟨-, ⟨-, h⟩ | ⟨-, rfl⟩⟩ := (withStore_next s t body).mp h
  · exact hbody h
  · exact ran_store hi .refl (endsIn_fail _ _ _)

theorem withFile_ran {id : Byte} {body : State → Result} (hi : i.kind = .store)
    (hbody : body (spend s) = .next t → Ran i s t) (h : withFile id s body = .next t) : Ran i s t := by
  obtain ⟨-, ⟨-, ⟨-, h⟩ | ⟨-, rfl⟩⟩ | ⟨-, rfl⟩⟩ := (withFile_next id s t body).mp h
  · exact hbody h
  · exact ran_store hi .refl (endsIn_fail _ _ _)
  · exact ran_store hi .refl (endsIn_fail _ _ _)

/-- The payload of a sector of the flash has `SDS` bytes (R67). -/
theorem sectorPayload_length (c : Config) (m : Memory) (k : Nat) :
    (sectorPayload (sectorAt c m k)).length = c.sds := by
  rw [sectorPayload, List.length_drop, sectorAt_length, Config.ss, Nat.add_sub_cancel]

/-- The payload a look at the directory finds is that of a sector. -/
theorem lookup_payload_length {c : Config} {id k : Nat} {p : List Byte} {f : Fsc}
    (h : f.lookup c id = .valid k p) : p.length = c.sds := by
  unfold Fsc.lookup at h
  split at h
  · cases h
  · split at h
    · split at h
      · cases h
        exact sectorPayload_length c f.flash _
      · cases h
    · cases h

/-- How `ReadProc` ends: in an FSC unit reached by at most a rescan and the decays after it, with a payload
of `SDS` bytes when it has one (R211). -/
theorem readProc_reaches (c : Config) (id : Nat) (f : Fsc) :
    (∃ g, f.readProc c id = .notFound g ∧ Fsc.Reaches c f g) ∨
    (∃ k p g, f.readProc c id = .found k p g ∧ Fsc.Reaches c f g ∧ p.length = c.sds) ∨
    (∃ g, f.readProc c id = .crcFail g ∧ Fsc.Reaches c f g) ∨
    (f.readProc c id = .outside ∧ ∃ g, Fsc.Reaches c f g ∧ g.lookup c id = .outside) := by
  have hretry : Fsc.Reaches c f ((f.rescan c).strike c) := .strike (.rescan .refl)
  obtain ⟨-, h⟩ | ⟨k, p, hl, h⟩ | ⟨hl, h⟩ | ⟨-, ⟨-, h⟩ | ⟨k, p, hl, h⟩ | ⟨hl, h⟩ | ⟨-, h⟩⟩ :=
    readProc_cases c id f
  · exact .inl ⟨f, h, .refl⟩
  · exact .inr (.inl ⟨k, p, f, h, .refl, lookup_payload_length hl⟩)
  · exact .inr (.inr (.inr ⟨h, f, .refl, hl⟩))
  · exact .inl ⟨_, h, hretry⟩
  · exact .inr (.inl ⟨k, p, _, h, hretry, lookup_payload_length hl⟩)
  · exact .inr (.inr (.inr ⟨h, _, hretry, hl⟩))
  · exact .inr (.inr (.inl ⟨_, h, hretry⟩))

@[simp] theorem bufTake_length (b : List Byte) (n : Nat) : (bufTake b n).length = n := by
  simp [bufTake]

/-- An append as the end of a command whose FSC unit has come to `g` (R238 to R240). -/
theorem appendCommand_ran {id : Byte} {tomb : Bool} {payload : List Byte} {okRes : Nat → Word}
    {g : Fsc} (hi : i.kind = .store) (hg : Fsc.Reaches s.cfg s.fsc g)
    (hpay : payload.length = s.cfg.sds)
    (h : appendCommand id tomb payload okRes { spend s with fsc := g } = .next t) : Ran i s t := by
  unfold appendCommand at h
  split at h
  · cases h
    exact ran_store hi hg (endsIn_fail _ _ _)
  · next w f happ =>
    cases h
    exact ran_store hi (.append id.toNat tomb payload w hpay hg happ) (endsIn_done _ _)
  · cases h

theorem fsBegin_ran (h : execFsBegin s = .next t) : Ran .fsBegin s t := by
  obtain ⟨-, h⟩ := (withGeometry_next s t _).mp h
  cases h
  exact ran_store rfl (.rescan .refl) (endsIn_done _ _)

theorem fsWriteFile_ran {id : Byte} (h : execFsWriteFile id s = .next t) :
    Ran (.fsWriteFile id) s t := by
  refine withFile_ran rfl (fun h => ?_) h
  exact appendCommand_ran (g := s.fsc) rfl .refl (bufTake_length s.dbuf s.cfg.sds) h

theorem fsEraseFile_ran {id : Byte} (h : execFsEraseFile id s = .next t) :
    Ran (.fsEraseFile id) s t := by
  refine withFile_ran rfl (fun h => ?_) h
  exact appendCommand_ran (g := s.fsc) rfl .refl List.length_replicate h

theorem fsUpdateFile_ran {id : Byte} (h : execFsUpdateFile id s = .next t) :
    Ran (.fsUpdateFile id) s t := by
  refine withFile_ran rfl (fun h => ?_) h
  have hlen : (bufTake s.dbuf s.cfg.sds).length = s.cfg.sds := bufTake_length _ _
  dsimp only [spend_cfg, spend_fsc, spend_dbuf] at h
  obtain ⟨g, hr, hg⟩ | ⟨k, p, g, hr, hg, -⟩ | ⟨g, hr, hg⟩ | ⟨hr, -⟩ :=
    readProc_reaches s.cfg id.toNat s.fsc <;> rw [hr] at h
  · exact appendCommand_ran rfl hg hlen h
  · dsimp only at h
    split at h
    · cases h
      exact ran_store rfl hg (endsIn_done _ _)
    · exact appendCommand_ran rfl hg hlen h
  · exact appendCommand_ran rfl hg hlen h
  · cases h

theorem fsReadFile_ran {id : Byte} (h : execFsReadFile id s = .next t) :
    Ran (.fsReadFile id) s t := by
  refine withFile_ran rfl (fun h => ?_) h
  dsimp only [spend_cfg, spend_fsc] at h
  obtain ⟨g, hr, hg⟩ | ⟨k, p, g, hr, hg, hp⟩ | ⟨g, hr, hg⟩ | ⟨hr, -⟩ :=
    readProc_reaches s.cfg id.toNat s.fsc <;> rw [hr] at h <;> cases h
  · exact ran_store rfl hg (endsIn_fail _ _ _)
  · exact ⟨_, .store g p rfl hg (.inr hp), endsIn_done _ _⟩
  · exact ran_store rfl hg (endsIn_fail _ _ _)

theorem fsCrcerr_ran (h : execFsCrcerr s = .next t) : Ran .fsCrcerr s t := by
  refine withStore_ran rfl (fun h => ?_) h
  cases h
  exact ran_store rfl .refl (endsIn_done _ _)

/-- One revision, with the FSC unit come to `g` (R217). -/
theorem listOnce_ran {g : Fsc} (hi : i.kind = .store) (hg : Fsc.Reaches s.cfg s.fsc g)
    (h : listOnce { spend s with fsc := g } = .next t) : Ran i s t := by
  have hstep := hg.listStep
  unfold listOnce at h
  dsimp only [spend_cfg] at h
  split at h
  · next hls =>
    rw [hls] at hstep
    cases h
    exact ⟨_, .store _ _ hi hstep (.inr (sectorPayload_length _ _ _)), endsIn_done _ _⟩
  · next hls =>
    rw [hls] at hstep
    cases h
    exact ran_store hi hstep (endsIn_fail _ _ _)

theorem fsListFirst_ran {id : Byte} (h : execFsListFirst id s = .next t) :
    Ran (.fsListFirst id) s t := by
  refine withFile_ran rfl (fun h => ?_) h
  exact listOnce_ran rfl (.listStart id .refl) h

theorem fsListNext_ran (h : execFsListNext s = .next t) : Ran .fsListNext s t := by
  refine withStore_ran rfl (fun h => ?_) h
  split at h
  · exact listOnce_ran (g := s.fsc) rfl .refl h
  · cases h
    exact ran_store rfl .refl (endsIn_fail _ _ _)

end

/-- What every command does when it ends: it changes what its kind may change, and ends there. -/
theorem exec_ran {i : Instr} {s t : State} (h : exec i s = .next t) : Ran i s t := by
  cases i with
  | owBegin pin => cases h; exact ⟨_, .bind pin rfl, endsIn_done _ _⟩
  | owReset => exact owReset_ran h
  | owWriteBit v => exact owWriteBit_ran h
  | owReadBit => exact owReadBit_ran h
  | owWrite b => exact withPin_ran rfl (sendBits_ran rfl) h
  | owWriteBytes n => exact withPin_ran rfl (fun hb => withCount_ran rfl (sendBits_ran rfl hb)) h
  | owRead => exact owRead_ran h
  | owReadBytes n => exact owReadBytes_ran h
  | owSelect => exact withPin_ran rfl (sendBits_ran rfl) h
  | owSelectAll => exact withPin_ran rfl (sendBits_ran rfl) h
  | owSearchBegin =>
    cases h
    exact ⟨_, .searchState _ rfl (Nat.zero_le _) (Nat.zero_le _), endsIn_done _ _⟩
  | owSearchBeginFam family =>
    cases h
    exact ⟨_, .searchState _ rfl le_rfl (Nat.zero_le _), endsIn_done _ _⟩
  | owSearch a => exact owSearch_ran h
  | crc8 n => exact withCount_spend_ran rfl h
  | crc16 n => exact withCount_spend_ran rfl h
  | checkCrc16 n => exact withCount_spend_ran rfl h
  | fsBegin => exact fsBegin_ran h
  | fsWriteFile id => exact fsWriteFile_ran h
  | fsUpdateFile id => exact fsUpdateFile_ran h
  | fsEraseFile id => exact fsEraseFile_ran h
  | fsReadFile id => exact fsReadFile_ran h
  | fsCrcerr => exact fsCrcerr_ran h
  | fsListFirst id => exact fsListFirst_ran h
  | fsListNext => exact fsListNext_ran h

end Sys2Proof.Machine
end

section
/-! PROOFS. The invariant of every run (R36 to R43, R95, R123): each command goes on from a well-shaped state
and ends in one, and so does whatever else the outside world does. -/

namespace Sys2Proof.Machine

/-! ### Well-shaped states -/

section
variable {s t : State}

/-- The FSC unit of a well-shaped state has its elements in range. -/
theorem State.WellShaped.fscInRange (h : s.WellShaped) : s.fsc.InRange s.cfg :=
  ⟨⟨h.dirSize, h.dirRange⟩, h.wpRange, h.freeRange, h.listPosRange, h.listBaseRange⟩

/-- The invariant of the pin: released before `OW_BEGIN`, idle afterwards (R123, R282). -/
def OneWire.Rests (l : OneWire) : Prop := l.pinState = if l.bound then l.idle else .rel

theorem State.WellShaped.withLine (h : s.WellShaped) {l : OneWire} (hl : l.Rests) :
    State.WellShaped { s with line := l } := { h with pinIdle := hl }

theorem State.WellShaped.withSearch (h : s.WellShaped) {q : Search} (hld : q.ld.toNat ≤ 64)
    (hlfd : q.lfd.toNat ≤ 64) : State.WellShaped { s with search := q } :=
  { h with ldRange := hld, lfdRange := hlfd }

theorem State.WellShaped.withOwbuf (h : s.WellShaped) {buf : List Byte}
    (hbuf : buf.length = s.owbuf.length) : State.WellShaped { s with owbuf := buf } :=
  { h with owbufSize := hbuf.trans h.owbufSize }

theorem State.WellShaped.withDbuf (h : s.WellShaped) {buf : List Byte}
    (hbuf : buf.length = s.cfg.sds) : State.WellShaped { s with dbuf := buf } :=
  { h with dbufSize := hbuf }

/-- An FSC unit in range, reached by events inside the flash, keeps the shape. -/
theorem State.WellShaped.withFsc (h : s.WellShaped) {f : Fsc} (hf : f.InRange s.cfg)
    (hperf : s.fsc.Performs s.cfg (FlashEvent.InFlash s.cfg) f) :
    State.WellShaped { s with fsc := f } :=
  { h with
    dirSize := hf.dir.1, dirRange := hf.dir.2, wpRange := hf.wp, freeRange := hf.free
    listPosRange := hf.listPos, listBaseRange := hf.listBase
    flashForm := hperf.wf h.flashForm, flashRange := hperf.below h.flashRange }

/-- The clock and the count of free values are no part of the shape. -/
theorem State.WellShaped.spend (h : s.WellShaped) : (spend s).WellShaped := { h with }

theorem State.WellShaped.accept (h : s.WellShaped) (w : Word) : (accept w s).WellShaped := { h with }

/-- Ending a command keeps the shape and clears `BUSY`. -/
theorem State.WellShaped.endsIn (h : s.WellShaped) (he : EndsIn s t) : t.Inv := by
  obtain ⟨ok, err, res, rfl⟩ := he
  exact ⟨{ h with }, rfl⟩

/-- The flash of a well-shaped state, powered off and on, gives the invariant (R47, R72). -/
theorem powerCycle_inv (flash : Memory) (log : List FlashEvent) (s : State) (hc : s.cfg.Valid)
    (hwf : Memory.wf flash = true) (hbelow : Memory.below flash s.cfg.es = true) :
    (powerCycle flash log s).Inv :=
  have h := powerOn_wellShaped s.cfg flash log hc hwf hbelow
  ⟨{ h with }, rfl⟩

end

/-! ### The pin at rest -/

/-- `Pin <- Idle` on a bound pin puts it at rest (R123 b). -/
theorem finish_rests (l : OneWire) (h : l.bound = true) : l.finish.Rests := by
  simp [OneWire.Rests, OneWire.idle, h]

/-- `OW_BEGIN` leaves the new pin at rest (R127). -/
theorem begin_rests (a : Byte) (l : OneWire) : (l.begin a).Rests := finish_rests _ rfl

/-- A write of `CTRL` leaves the pin at rest (R123 c). -/
theorem writeCtrl_rests (v : Word) (l : OneWire) (h : l.Rests) : (writeCtrl v l).Rests := by
  unfold writeCtrl
  dsimp only
  split
  · next hmove => exact finish_rests _ hmove.2
  · next hkeep =>
    unfold OneWire.Rests OneWire.idle at h ⊢
    rcases Bool.eq_false_or_eq_true l.bound with hbound | hbound
    · have hppwr : v.getLsbD 0 = l.ppwr := by
        by_contra hne
        exact hkeep ⟨Ne.symm hne, hbound⟩
      simp only [hppwr]
      exact h
    · simpa [hbound] using h

/-! ### Commands keep the shape -/

/-- What a command can make of a well-shaped state is well-shaped, with flash events inside the flash. -/
theorem Changes.keeps {i : Instr} {s u : State} (h : Changes i s u) (hs : s.WellShaped) :
    u.WellShaped ∧ s.fsc.Performs s.cfg (FlashEvent.InFlash s.cfg) u.fsc := by
  have hsame := Fsc.Performs.refl s.cfg (FlashEvent.InFlash s.cfg) s.fsc
  cases h with
  | bind pin _ => exact ⟨hs.withLine (begin_rests pin _), hsame⟩
  | turnedAway _ => exact ⟨hs, hsame⟩
  | line l _ hbound hl => exact ⟨hs.withLine (finish_rests l (hl.bound.trans hbound)), hsame⟩
  | readBytes n l buf _ hbound hl hbuf =>
    exact ⟨(hs.withLine (finish_rests l (hl.bound.trans hbound))).withOwbuf hbuf, hsame⟩
  | search a l p _ hbound hl hp =>
    obtain ⟨hld, hlfd⟩ := (hp hs.lfdRange).commit
    have hline := (hs.withLine (finish_rests l (hl.bound.trans hbound))).withSearch hld hlfd
    exact ⟨{ hline with }, hsame⟩
  | searchState q _ hld hlfd => exact ⟨hs.withSearch hld hlfd, hsame⟩
  | crc _ => exact ⟨hs.spend, hsame⟩
  | store f buf _ hf hbuf =>
    obtain ⟨hrange, hperf⟩ := hf.inRange hs.cfgValid hs.fscInRange
    exact ⟨(hs.spend.withFsc hrange hperf).withDbuf (hbuf.elim (· ▸ hs.dbufSize) id), hperf⟩

/-- A command that ends on a well-shaped state leaves the invariant. -/
theorem exec_keeps {i : Instr} {s t : State} (hs : s.WellShaped) (h : exec i s = .next t) :
    t.Inv ∧ s.fsc.Performs s.cfg (FlashEvent.InFlash s.cfg) t.fsc := by
  obtain ⟨u, hu, hend⟩ := exec_ran h
  obtain ⟨hshape, hperf⟩ := hu.keeps hs
  refine ⟨hshape.endsIn hend, ?_⟩
  obtain ⟨ok, err, res, rfl⟩ := hend
  exact hperf

/-! ### Commands go on -/

/-- No fault, no refusal. -/
def GoesOn (r : Result) : Prop := ∃ t, r = .next t

section
variable {s : State}

theorem goesOn_next (t : State) : GoesOn (.next t) := ⟨t, rfl⟩

theorem goesOn_ite {p : Prop} [Decidable p] {a b : Result} (ha : GoesOn a) (hb : GoesOn b) :
    GoesOn (if p then a else b) := by
  split
  · exact ha
  · exact hb

theorem withPin_goesOn {body : Result} (h : GoesOn body) : GoesOn (withPin s body) :=
  goesOn_ite h (goesOn_next _)

theorem withBitOperand_goesOn {a : Byte} {body : Bool → Result} (h : ∀ b, GoesOn (body b)) :
    GoesOn (withBitOperand a s body) :=
  goesOn_ite (h _) (goesOn_next _)

theorem withCount_goesOn {need : Nat} {body : Result} (h : GoesOn body) :
    GoesOn (withCount need s body) :=
  goesOn_ite h (goesOn_next _)

theorem withStore_goesOn {body : State → Result} (hc : s.cfg.Valid) (h : GoesOn (body (spend s))) :
    GoesOn (withStore s body) := by
  rw [withStore, withGeometry, if_pos hc]
  exact goesOn_ite h (goesOn_next _)

theorem withFile_goesOn {id : Byte} {body : State → Result} (hc : s.cfg.Valid)
    (h : GoesOn (body (spend s))) : GoesOn (withFile id s body) := by
  refine withStore_goesOn hc ?_
  exact goesOn_ite h (goesOn_next _)

theorem sendBits_goesOn (bits : List Bool) (okRes : Word) (unit : Nat) :
    GoesOn (sendBits bits okRes unit s) := by
  unfold sendBits
  split <;> exact goesOn_next _

theorem owReset_goesOn : GoesOn (execOwReset s) :=
  withPin_goesOn (by split <;> exact goesOn_next _)

theorem owWriteBit_goesOn (v : Byte) : GoesOn (execOwWriteBit v s) :=
  withBitOperand_goesOn fun _ => withPin_goesOn (by split <;> exact goesOn_next _)

theorem owReadBit_goesOn : GoesOn (execOwReadBit s) :=
  withPin_goesOn (by split <;> exact goesOn_next _)

theorem owRead_goesOn : GoesOn (execOwRead s) :=
  withPin_goesOn (by split <;> exact goesOn_next _)

theorem owReadBytes_goesOn (n : Byte) : GoesOn (execOwReadBytes n s) :=
  withPin_goesOn (withCount_goesOn (by split <;> exact goesOn_next _))

theorem owSearch_goesOn (a : Byte) : GoesOn (execOwSearch a s) :=
  withBitOperand_goesOn fun _ => withPin_goesOn
    (goesOn_ite (goesOn_next _) (by split <;> exact goesOn_next _))

theorem listOnce_goesOn : GoesOn (listOnce s) := by
  unfold listOnce
  split <;> exact goesOn_next _

/-- With every entry in range no look at the directory falls outside the flash (R37). -/
theorem lookup_ne_outside {c : Config} {id : Nat} {f : Fsc} (hf : f.InRange c) :
    f.lookup c id ≠ .outside := by
  unfold Fsc.lookup
  split
  · exact nofun
  · next i hi =>
    rw [if_pos (hf.dir.getD_lt hi)]
    split <;> exact nofun

/-- Nor does a read, before or after its rescan (R211). -/
theorem readProc_ne_outside {c : Config} (hc : c.Valid) {id : Nat} {f : Fsc} (hf : f.InRange c) :
    f.readProc c id ≠ .outside := by
  obtain ⟨g, h, -⟩ | ⟨k, p, g, h, -⟩ | ⟨g, h, -⟩ | ⟨-, g, hg, hout⟩ := readProc_reaches c id f
  · rw [h]; exact nofun
  · rw [h]; exact nofun
  · rw [h]; exact nofun
  · exact absurd hout (lookup_ne_outside (hg.inRange hc hf).1)

/-- With the pointers in range an append writes or finds the store full (R39, R40). -/
theorem append_ne_outside {c : Config} {id : Nat} {tomb : Bool} {payload : List Byte} {f : Fsc}
    (hf : f.InRange c) : f.append c id tomb payload ≠ .outside := by
  have hwp := hf.wp
  have hfree := hf.free
  obtain ⟨-, -, h⟩ | ⟨v, -, -, -, h⟩ | ⟨-, -, -, h⟩ | ⟨hout, -⟩ := append_cases c id tomb payload f
  · rw [h]; exact nofun
  · rw [h]; exact nofun
  · rw [h]; exact nofun
  · omega

theorem appendCommand_goesOn {id : Byte} {tomb : Bool} {payload : List Byte} {okRes : Nat → Word}
    {t : State} (ht : t.fsc.InRange t.cfg) : GoesOn (appendCommand id tomb payload okRes t) := by
  unfold appendCommand
  split
  · exact goesOn_next _
  · exact goesOn_next _
  · next h => exact absurd h (append_ne_outside ht)

theorem fsBegin_goesOn (hc : s.cfg.Valid) : GoesOn (execFsBegin s) := by
  rw [execFsBegin, withGeometry, if_pos hc]
  exact goesOn_next _

theorem fsCrcerr_goesOn (hc : s.cfg.Valid) : GoesOn (execFsCrcerr s) := by
  refine withStore_goesOn hc ?_
  exact goesOn_next _

theorem fsListFirst_goesOn (hc : s.cfg.Valid) (id : Byte) : GoesOn (execFsListFirst id s) := by
  refine withFile_goesOn hc ?_
  exact listOnce_goesOn

theorem fsListNext_goesOn (hc : s.cfg.Valid) : GoesOn (execFsListNext s) := by
  refine withStore_goesOn hc ?_
  exact goesOn_ite listOnce_goesOn (goesOn_next _)

theorem fsReadFile_goesOn (hc : s.cfg.Valid) (hf : s.fsc.InRange s.cfg) (id : Byte) :
    GoesOn (execFsReadFile id s) := by
  refine withFile_goesOn hc ?_
  split
  · exact goesOn_next _
  · exact goesOn_next _
  · exact goesOn_next _
  · next h => exact absurd h (readProc_ne_outside hc hf)

theorem fsUpdateFile_goesOn (hc : s.cfg.Valid) (hf : s.fsc.InRange s.cfg) (id : Byte) :
    GoesOn (execFsUpdateFile id s) := by
  refine withFile_goesOn hc ?_
  dsimp only [spend_cfg, spend_fsc]
  obtain ⟨g, h, hg⟩ | ⟨k, p, g, h, hg, -⟩ | ⟨g, h, hg⟩ | ⟨h, -⟩ :=
    readProc_reaches s.cfg id.toNat s.fsc <;> rw [h]
  · exact appendCommand_goesOn (hg.inRange hc hf).1
  · exact goesOn_ite (goesOn_next _) (appendCommand_goesOn (hg.inRange hc hf).1)
  · exact appendCommand_goesOn (hg.inRange hc hf).1
  · exact absurd h (readProc_ne_outside hc hf)

end

/-- Every command ends (R95): from a well-shaped state none faults and none is refused. -/
theorem exec_goesOn (i : Instr) {s : State} (hs : s.WellShaped) : GoesOn (exec i s) := by
  have hc := hs.cfgValid
  have hf := hs.fscInRange
  cases i with
  | owBegin pin => exact goesOn_next _
  | owReset => exact owReset_goesOn
  | owWriteBit v => exact owWriteBit_goesOn v
  | owReadBit => exact owReadBit_goesOn
  | owWrite b => exact withPin_goesOn (sendBits_goesOn _ _ _)
  | owWriteBytes n => exact withPin_goesOn (withCount_goesOn (sendBits_goesOn _ _ _))
  | owRead => exact owRead_goesOn
  | owReadBytes n => exact owReadBytes_goesOn n
  | owSelect => exact withPin_goesOn (sendBits_goesOn _ _ _)
  | owSelectAll => exact withPin_goesOn (sendBits_goesOn _ _ _)
  | owSearchBegin => exact goesOn_next _
  | owSearchBeginFam family => exact goesOn_next _
  | owSearch a => exact owSearch_goesOn a
  | crc8 n => exact withCount_goesOn (goesOn_next _)
  | crc16 n => exact withCount_goesOn (goesOn_next _)
  | checkCrc16 n => exact withCount_goesOn (goesOn_next _)
  | fsBegin => exact fsBegin_goesOn hc
  | fsWriteFile id => exact withFile_goesOn hc (appendCommand_goesOn hf)
  | fsUpdateFile id => exact fsUpdateFile_goesOn hc hf id
  | fsEraseFile id => exact withFile_goesOn hc (appendCommand_goesOn hf)
  | fsReadFile id => exact fsReadFile_goesOn hc hf id
  | fsCrcerr => exact fsCrcerr_goesOn hc
  | fsListFirst id => exact fsListFirst_goesOn hc id
  | fsListNext => exact fsListNext_goesOn hc

/-! ### What the outside world does -/

/-- Issuing a word keeps the invariant, whatever the word (R91, R93). -/
theorem issue_keeps {s : State} (hs : s.Inv) (w : Word) :
    ∃ t, issue w s = .next t ∧ t.Inv ∧
      s.fsc.Performs s.cfg (FlashEvent.InFlash s.cfg) t.fsc := by
  have hacc := hs.wellShaped.accept w
  obtain ⟨-, h⟩ | ⟨i, -, -, h⟩ | ⟨e, -, -, h⟩ := issue_cases w s
  · exact ⟨s, h, hs, .refl _ _ _⟩
  · obtain ⟨t, ht⟩ := exec_goesOn i hacc
    exact ⟨t, h.trans ht, exec_keeps (s := accept w s) hacc ht⟩
  · exact ⟨_, h, hacc.endsIn (endsIn_fail _ _ _), .refl _ _ _⟩

/-- Cutting events inside the flash leaves events inside the flash (R72). -/
theorem cutEvents_inFlash (c : Config) (cut : PowerCut) (es : List FlashEvent)
    (h : ∀ e ∈ es, e.InFlash c) : ∀ e ∈ cutEvents cut es, e.InFlash c := by
  intro e he
  have hdrop : ∀ x rest, es.drop cut.calls = x :: rest → x.InFlash c := fun x rest hx =>
    h x (List.mem_of_mem_drop (hx ▸ List.mem_cons_self))
  rcases List.mem_append.mp he with he | he
  · exact h e (List.mem_of_mem_take he)
  · split at he
    · split at he
      · next a bytes rest hx => exact List.mem_singleton.mp he ▸ hdrop (.program a bytes) rest hx
      · next p rest hx => exact List.mem_singleton.mp he ▸ hdrop (.erase p) rest hx
      · cases he
    · cases he

/-- Losing power during a command keeps the invariant (R72). -/
theorem issueCut_keeps {s : State} (hs : s.Inv) (w : Word) (cut : PowerCut) :
    ∃ t, issueCut w cut s = .next t ∧ t.Inv := by
  obtain ⟨t, ht, -, es, hin, hlog, -⟩ := issue_keeps hs w
  refine ⟨_, (issueCut_next w cut s _).mpr ⟨t, ht, rfl⟩, ?_⟩
  obtain ⟨hshape, -⟩ := hs
  rw [hlog, List.drop_left]
  exact powerCycle_inv _ _ _ hshape.cfgValid (wf_replayFlash _ _ _ _ hshape.flashForm)
    (below_replayFlash _ _ _ _ (cutEvents_inFlash _ cut es hin) hshape.flashRange)

/-- A write of `SRCH` keeps the search state in range (R27). -/
theorem writeSrch_range (v : Word) (q : Search) (hld : q.ld.toNat ≤ 64) (hlfd : q.lfd.toNat ≤ 64) :
    (writeSrch v q).ld.toNat ≤ 64 ∧ (writeSrch v q).lfd.toNat ≤ 64 := by
  unfold writeSrch
  split
  · next h => exact h
  · exact ⟨hld, hlfd⟩

section
variable {s : State}

/-- A write of `CTRL` while no command executes (R25). -/
theorem writeReg_ctrl (v : Word) (h : s.busy = false) :
    writeReg .ctrl v s = .next { s with line := writeCtrl v s.line } := by
  simp [writeReg, h]

/-- A write of `SRCH` while no command executes (R27). -/
theorem writeReg_srch (v : Word) (h : s.busy = false) :
    writeReg .srch v s = .next { s with search := writeSrch v s.search } := by
  simp [writeReg, h]

theorem writeArray_addr (i : Nat) (v : Byte) (h : s.busy = false) :
    writeArray .addr i v s = { s with addr := setRomByte s.addr i v } := by
  simp [writeArray, h]

theorem writeArray_srom (i : Nat) (v : Byte) (h : s.busy = false) :
    writeArray .srom i v s =
      { s with search := { s.search with srom := setRomByte s.search.srom i v } } := by
  simp [writeArray, h]

theorem writeArray_owbuf (i : Nat) (v : Byte) (h : s.busy = false) :
    writeArray .owbuf i v s = { s with owbuf := bufWrite s.owbuf i v } := by
  simp [writeArray, h]

theorem writeArray_dbuf (i : Nat) (v : Byte) (h : s.busy = false) :
    writeArray .dbuf i v s = { s with dbuf := bufWrite s.dbuf i v } := by
  simp [writeArray, h]

end

/-- A write of a register keeps the invariant (R22 to R28). -/
theorem writeReg_keeps {s : State} (hs : s.Inv) (r : HostReg) (v : Word) :
    ∃ t, writeReg r v s = .next t ∧ t.Inv := by
  have hshape := hs.wellShaped
  cases r with
  | cmd =>
    obtain ⟨t, ht, hinv, -⟩ := issue_keeps hs v
    exact ⟨t, ht, hinv⟩
  | ctrl =>
    exact ⟨_, writeReg_ctrl v hs.notBusy,
      hshape.withLine (writeCtrl_rests v _ hshape.pinIdle), hs.notBusy⟩
  | srch =>
    obtain ⟨hld, hlfd⟩ := writeSrch_range v _ hshape.ldRange hshape.lfdRange
    exact ⟨_, writeReg_srch v hs.notBusy, hshape.withSearch hld hlfd, hs.notBusy⟩
  | status => exact ⟨s, rfl, hs⟩
  | res => exact ⟨s, rfl, hs⟩
  | timeLo => exact ⟨s, rfl, hs⟩
  | timeHi => exact ⟨s, rfl, hs⟩
  | fsCrcerr => exact ⟨s, rfl, hs⟩
  | fsPtr => exact ⟨s, rfl, hs⟩
  | owCfg => exact ⟨s, rfl, hs⟩

/-- A read of a register changes what the host was given, the count of free values and the latch of
`TIME_HI` only (R26, R77). -/
theorem readReg_frame (r : HostReg) (s : State) :
    ∃ v k latch latched, readReg r s =
      { s with hostData := v, freeCount := k, timeHiLatch := latch, timeHiLatched := latched } := by
  have hunless : ∀ x, ∃ v k latch latched, answerUnlessBusy x s =
      { s with hostData := v, freeCount := k, timeHiLatch := latch, timeHiLatched := latched } := by
    intro x
    unfold answerUnlessBusy
    split <;> exact ⟨_, _, _, _, rfl⟩
  cases r with
  | cmd => exact ⟨_, _, _, _, rfl⟩
  | status =>
    rw [readReg]
    split <;> exact ⟨_, _, _, _, rfl⟩
  | res => exact hunless _
  | ctrl => exact ⟨_, _, _, _, rfl⟩
  | timeLo => exact ⟨_, _, _, _, rfl⟩
  | timeHi => exact ⟨_, _, _, _, rfl⟩
  | srch => exact hunless _
  | fsCrcerr => exact hunless _
  | fsPtr => exact hunless _
  | owCfg => exact ⟨_, _, _, _, rfl⟩

theorem readReg_keeps {s : State} (hs : s.Inv) (r : HostReg) : (readReg r s).Inv := by
  obtain ⟨v, k, latch, latched, h⟩ := readReg_frame r s
  obtain ⟨hshape, hbusy⟩ := hs
  rw [h]
  exact ⟨{ hshape with }, hbusy⟩

/-- A read of an array byte changes what the host was given and the count of free values only (R77). -/
theorem readArray_frame (a : HostArray) (i : Nat) (s : State) :
    ∃ v k, readArray a i s = { s with hostData := v, freeCount := k } := by
  unfold readArray
  split <;> exact ⟨_, _, rfl⟩

theorem readArray_keeps {s : State} (hs : s.Inv) (a : HostArray) (i : Nat) :
    (readArray a i s).Inv := by
  obtain ⟨v, k, h⟩ := readArray_frame a i s
  obtain ⟨hshape, hbusy⟩ := hs
  rw [h]
  exact ⟨{ hshape with }, hbusy⟩

/-- A write of an array byte keeps every array's size (R28). -/
theorem writeArray_keeps {s : State} (hs : s.Inv) (a : HostArray) (i : Nat) (v : Byte) :
    (writeArray a i v s).Inv := by
  obtain ⟨hshape, hbusy⟩ := hs
  cases a with
  | addr => rw [writeArray_addr i v hbusy]; exact ⟨{ hshape with }, hbusy⟩
  | srom => rw [writeArray_srom i v hbusy]; exact ⟨{ hshape with }, hbusy⟩
  | owbuf => rw [writeArray_owbuf i v hbusy]; exact ⟨hshape.withOwbuf List.length_set, hbusy⟩
  | dbuf =>
    rw [writeArray_dbuf i v hbusy]
    exact ⟨hshape.withDbuf (List.length_set.trans hshape.dbufSize), hbusy⟩

/-- Whatever the outside world does keeps the invariant, and the block goes on. -/
theorem handle_keeps {s : State} (hs : s.Inv) (e : Input) : ∃ t, handle e s = .next t ∧ t.Inv := by
  have hshape := hs.wellShaped
  have hbusy := hs.notBusy
  cases e with
  | write r v => exact writeReg_keeps hs r v
  | read r => exact ⟨_, rfl, readReg_keeps hs r⟩
  | writeByte a i v => exact ⟨_, rfl, writeArray_keeps hs a i v⟩
  | readByte a i => exact ⟨_, rfl, readArray_keeps hs a i⟩
  | idle n => exact ⟨_, rfl, hshape.withLine hshape.pinIdle, hbusy⟩
  | powerLoss =>
    exact ⟨_, rfl, powerCycle_inv _ _ s hshape.cfgValid hshape.flashForm hshape.flashRange⟩
  | powerLossDuring w cut => exact issueCut_keeps hs w cut
  | slaves script => exact ⟨_, rfl, hshape.withLine hshape.pinIdle, hbusy⟩
  | upset a v =>
    have hperf : s.fsc.Performs s.cfg (FlashEvent.InFlash s.cfg) (s.fsc.device s.cfg (.upset a v)) :=
      (Fsc.Performs.refl _ _ _).device trivial
    exact ⟨_, rfl, hshape.withFsc (hshape.fscInRange.device _) hperf, hbusy⟩
  | upsetOnRetry a v => exact ⟨_, rfl, { hshape with }, hbusy⟩

/-- Settles O15: a step is one input, handled as `handle_keeps` says, or one idle microsecond. -/
theorem stepKeepsInvariant : Obligations.StepKeepsInvariant := by
  intro s hs
  obtain ⟨-, h⟩ | ⟨e, rest, -, h⟩ := step_cases s
  · obtain ⟨t, ht, hinv⟩ := handle_keeps hs (.idle 1)
    exact ⟨t, h.trans ht, hinv⟩
  · obtain ⟨hshape, hbusy⟩ := hs
    have hrest : State.Inv { s with inputs := rest } := ⟨{ hshape with }, hbusy⟩
    obtain ⟨t, ht, hinv⟩ := handle_keeps hrest e
    exact ⟨t, h.trans ht, hinv⟩

end Sys2Proof.Machine
end

section
/-! PROOFS. What the host reads and writes (R22 to R28, R290): the packed registers field by field, the byte
arrays byte by byte, then the obligations on the registers. -/

namespace Sys2Proof.Machine

/-! ### Packed registers -/

/-- A flag at bit `k` of a register is bit `k` and no other. -/
theorem flagBit_getLsbD (b : Bool) (k n : Nat) :
    (flagBit b k).getLsbD n = (decide (n < 32) && decide (n = k) && b) := by
  by_cases hn : n = k
  · subst hn; simp [flagBit]
  · rcases Nat.lt_or_gt_of_ne hn with h | h
    · simp [flagBit, h, hn]
    · have hk : n - k ≠ 0 := by omega
      simp [flagBit, hn, hk, BitVec.getLsbD_ofBool]

/-- Every bit of `STATUS` (R23). -/
theorem packStatus_getLsbD (busy ok : Bool) (err : BitVec 4) (bound ready listing : Bool) (n : Nat)
    (hn : n < 32) :
    (packStatus busy ok err bound ready listing).getLsbD n =
      (decide (n = 0) && busy || decide (n = 1) && ok || decide (4 ≤ n) && err.getLsbD (n - 4) ||
        decide (n = 8) && bound || decide (n = 9) && ready || decide (n = 10) && listing) := by
  have hlt : n - 4 < 32 := by omega
  simp only [packStatus, BitVec.getLsbD_or, flagBit_getLsbD, BitVec.getLsbD_shiftLeft,
    BitVec.getLsbD_setWidth, hn, hlt, decide_true, Bool.true_and, ← decide_not, Nat.not_lt]

/-- The fields of `STATUS`, bits 3:2 and 31:11 being 0 (R23). -/
theorem packStatus_fields (busy ok : Bool) (err : BitVec 4) (bound ready listing : Bool) :
    let v := packStatus busy ok err bound ready listing
    v.getLsbD 0 = busy ∧ v.getLsbD 1 = ok ∧ v.extractLsb' 2 2 = 0 ∧ v.extractLsb' 4 4 = err ∧
      v.getLsbD 8 = bound ∧ v.getLsbD 9 = ready ∧ v.getLsbD 10 = listing ∧
      v.extractLsb' 11 21 = 0 := by
  have hbit := packStatus_getLsbD busy ok err bound ready listing
  refine ⟨(hbit 0 (by decide)).trans (by simp), (hbit 1 (by decide)).trans (by simp), ?_, ?_,
    (hbit 8 (by decide)).trans (by simp), (hbit 9 (by decide)).trans (by simp),
    (hbit 10 (by decide)).trans (by simp), ?_⟩ <;>
    refine BitVec.eq_of_getLsbD_eq fun k hk => ?_ <;>
    rw [BitVec.getLsbD_extractLsb', hbit _ (by omega)]
  · simp [show ¬ 2 + k = 1 by omega, show ¬ 4 ≤ 2 + k by omega, show ¬ 2 + k = 8 by omega,
      show ¬ 2 + k = 9 by omega, show ¬ 2 + k = 10 by omega]
  · simp [hk, show ¬ 4 + k = 1 by omega, show ¬ 4 + k = 8 by omega, show ¬ 4 + k = 9 by omega,
      show ¬ 4 + k = 10 by omega]
  · have herr : err.getLsbD (11 + k - 4) = false := BitVec.getLsbD_of_ge _ _ (by omega)
    simp [herr, show ¬ 11 + k = 1 by omega, show ¬ 11 + k = 8 by omega, show ¬ 11 + k = 9 by omega,
      show ¬ 11 + k = 10 by omega]

/-- Every bit of `SRCH` (R27). -/
theorem srchWord_getLsbD (q : Search) (n : Nat) (hn : n < 32) :
    (srchWord q).getLsbD n =
      (q.ld.getLsbD n || decide (8 ≤ n) && q.lfd.getLsbD (n - 8) || decide (n = 16) && q.ldf) := by
  have hlt : n - 8 < 32 := by omega
  simp only [srchWord, BitVec.getLsbD_or, flagBit_getLsbD, BitVec.getLsbD_shiftLeft,
    BitVec.getLsbD_setWidth, hn, hlt, decide_true, Bool.true_and, ← decide_not, Nat.not_lt]

/-- The bits of `SRCH` that hold a field: 6:0, 14:8 and 16 (R27). -/
theorem srchMask_getLsbD : ∀ n < 32, (0x00017F7F : Word).getLsbD n =
    (decide (n < 7) || decide (8 ≤ n) && decide (n - 8 < 7) || decide (n = 16)) := by
  decide

/-- A bit set in `SRCH` belongs to a field (R27). -/
theorem srchWord_bit_in_mask (q : Search) (n : Nat) (hn : n < 32)
    (h : (srchWord q).getLsbD n = true) : (0x00017F7F : Word).getLsbD n = true := by
  rw [srchWord_getLsbD q n hn] at h
  rw [srchMask_getLsbD n hn]
  simp only [Bool.or_eq_true, Bool.and_eq_true, decide_eq_true_eq] at h ⊢
  obtain (hld | ⟨h8, hlfd⟩) | ⟨h16, -⟩ := h
  · exact .inl (.inl (BitVec.lt_of_getLsbD hld))
  · exact .inl (.inr ⟨h8, BitVec.lt_of_getLsbD hlfd⟩)
  · exact .inr h16

/-- The fields of `SRCH`, every other bit being 0 (R27). -/
theorem srchWord_fields (q : Search) :
    (srchWord q).extractLsb' 0 7 = q.ld ∧ (srchWord q).extractLsb' 8 7 = q.lfd ∧
      (srchWord q).getLsbD 16 = q.ldf ∧ srchWord q &&& ~~~(0x00017F7F : Word) = 0 := by
  have hbit := srchWord_getLsbD q
  refine ⟨?_, ?_, (hbit 16 (by decide)).trans (by simp), ?_⟩ <;>
    refine BitVec.eq_of_getLsbD_eq fun k hk => ?_
  · rw [BitVec.getLsbD_extractLsb', hbit _ (by omega)]
    simp [hk, show ¬ 8 ≤ k by omega, show ¬ k = 16 by omega]
  · rw [BitVec.getLsbD_extractLsb', hbit _ (by omega)]
    have hld : q.ld.getLsbD (8 + k) = false := BitVec.getLsbD_of_ge _ _ (by omega)
    simp [hk, hld, show ¬ 8 + k = 16 by omega]
  · rw [BitVec.getLsbD_and, BitVec.getLsbD_not]
    cases h : (srchWord q).getLsbD k with
    | false => simp
    | true =>
      rw [srchWord_bit_in_mask q k hk h]
      simp

/-- `SRCH` made of the fields of a word is that word with every other bit 0 (R27). -/
theorem srchWord_of_fields (v : Word) (q : Search) :
    srchWord { q with
      ld := v.extractLsb' 0 7, lfd := v.extractLsb' 8 7, ldf := v.getLsbD 16 } =
      v &&& 0x00017F7F := by
  refine BitVec.eq_of_getLsbD_eq fun k hk => ?_
  rw [BitVec.getLsbD_and, srchWord_getLsbD _ k hk, srchMask_getLsbD k hk]
  simp only [BitVec.getLsbD_extractLsb', Nat.zero_add]
  by_cases h16 : k = 16
  · simp [h16]
  · by_cases h8 : 8 ≤ k
    · simp [h16, h8, show ¬ k < 7 by omega, show 8 + (k - 8) = k by omega, Bool.and_comm]
    · simp [h16, h8, Bool.and_comm]

/-- The two halves of `FS_PTR` (R28). -/
theorem fsPtrWord_fields (f : Fsc) :
    (fsPtrWord f).extractLsb' 0 16 = BitVec.ofNat 16 f.wp ∧
      (fsPtrWord f).extractLsb' 16 16 = BitVec.ofNat 16 f.free :=
  ⟨BitVec.extractLsb'_append_eq_right, BitVec.extractLsb'_append_eq_left⟩

/-- `OW_CFG` is the pin, its other bits 0 (R28). -/
theorem owCfgWord_fields (l : OneWire) :
    (owCfgWord l).extractLsb' 0 8 = l.pin ∧ (owCfgWord l).extractLsb' 8 24 = 0 := by
  constructor <;> refine BitVec.eq_of_getLsbD_eq fun k hk => ?_
  · simp [owCfgWord, hk]
    omega
  · simp [owCfgWord, hk]

/-- `CTRL` after a write is bit 0 of the word written (R25). -/
theorem ctrlWord_eq (s : State) (v : Word) (h : s.line.ppwr = v.getLsbD 0) : ctrlWord s = v &&& 1 := by
  refine BitVec.eq_of_getLsbD_eq fun k hk => ?_
  rw [ctrlWord, flagBit_getLsbD, BitVec.getLsbD_and, h]
  by_cases h0 : k = 0
  · simp [h0]
  · simp [h0]

/-! ### Byte arrays -/

/-- The mask of one byte of a ROM code. -/
theorem byteMask_getLsbD : ∀ n < 64, (0xFF : RomCode).getLsbD n = decide (n < 8) := by decide

/-- Every bit of a ROM code after a byte was written inside it (R28, R33). -/
theorem setRomByte_getLsbD (r : RomCode) (i n : Nat) (v : Byte) (hi : i < 8) (hn : n < 64) :
    (setRomByte r i v).getLsbD n =
      if 8 * i ≤ n ∧ n < 8 * i + 8 then v.getLsbD (n - 8 * i) else r.getLsbD n := by
  rw [setRomByte, if_pos hi, BitVec.getLsbD_or, BitVec.getLsbD_and, BitVec.getLsbD_not,
    BitVec.getLsbD_shiftLeft, BitVec.getLsbD_shiftLeft, BitVec.getLsbD_setWidth,
    byteMask_getLsbD _ (by omega)]
  by_cases hlo : 8 * i ≤ n
  · by_cases hup : n < 8 * i + 8
    · simp [hn, hlo, hup, show ¬ n < 8 * i by omega, show n - 8 * i < 8 by omega,
        show n - 8 * i < 64 by omega]
    · simp [hn, hup, show ¬ n < 8 * i by omega, show ¬ n - 8 * i < 8 by omega,
        BitVec.getLsbD_of_ge v (n - 8 * i) (by omega)]
  · simp [hn, hlo, show n < 8 * i by omega]

/-- The byte written is the one read (R28). -/
theorem romByte_setRomByte_same (r : RomCode) (i : Nat) (v : Byte) (hi : i < 8) :
    romByte (setRomByte r i v) i = v := by
  refine BitVec.eq_of_getLsbD_eq fun k hk => ?_
  rw [romByte, BitVec.getLsbD_extractLsb', setRomByte_getLsbD r i _ v hi (by omega),
    if_pos ⟨by omega, by omega⟩, Nat.add_sub_cancel_left]
  simp [hk]

/-- Every other byte of the ROM code stays (R28). -/
theorem romByte_setRomByte_other (r : RomCode) (i j : Nat) (v : Byte) (hi : i < 8) (hj : j < 8)
    (hne : j ≠ i) : romByte (setRomByte r i v) j = romByte r j := by
  refine BitVec.eq_of_getLsbD_eq fun k hk => ?_
  rw [romByte, romByte, BitVec.getLsbD_extractLsb', BitVec.getLsbD_extractLsb',
    setRomByte_getLsbD r i _ v hi (by omega), if_neg (by omega)]

/-- A ROM code as an array of 8 bytes (R28, R33). -/
theorem bufRead_romBytes (r : RomCode) (i : Nat) :
    bufRead (romBytes r) i = if i < 8 then romByte r i else 0 := by
  unfold bufRead romBytes
  split
  · next h => simp [List.getD_eq_getElem?_getD, h]
  · next h => simp [List.getD_eq_getElem?_getD, Nat.le_of_not_lt h]

/-- A write outside a ROM code is ignored (R28). -/
theorem setRomByte_of_ge (r : RomCode) (i : Nat) (v : Byte) (hi : 8 ≤ i) : setRomByte r i v = r :=
  if_neg (Nat.not_lt.mpr hi)

theorem bufRead_romBytes_other (r : RomCode) (i j : Nat) (v : Byte) (hne : j ≠ i) :
    bufRead (romBytes (setRomByte r i v)) j = bufRead (romBytes r) j := by
  rcases Nat.lt_or_ge i 8 with hi | hi
  · rw [bufRead_romBytes, bufRead_romBytes]
    split
    · next hj => exact romByte_setRomByte_other r i j v hi hj hne
    · rfl
  · rw [setRomByte_of_ge r i v hi]

theorem bufRead_romBytes_same (r : RomCode) (i : Nat) (v : Byte) (hi : i < 8) :
    bufRead (romBytes (setRomByte r i v)) i = v := by
  rw [bufRead_romBytes, if_pos hi, romByte_setRomByte_same r i v hi]

theorem bufRead_bufWrite_same (b : List Byte) (i : Nat) (v : Byte) (hi : i < b.length) :
    bufRead (bufWrite b i v) i = v := by
  simp [bufRead, bufWrite, hi]

theorem bufRead_bufWrite_other (b : List Byte) (i j : Nat) (v : Byte) (hne : j ≠ i) :
    bufRead (bufWrite b i v) j = bufRead b j := by
  simp [bufRead, bufWrite, hne.symm]

/-- A write outside a buffer is ignored, and a read there gives 0 (R28). -/
theorem bufWrite_of_ge (b : List Byte) (i : Nat) (v : Byte) (hi : b.length ≤ i) :
    bufWrite b i v = b ∧ bufRead b i = 0 :=
  ⟨List.set_eq_of_length_le hi, List.getD_eq_default _ _ hi⟩

/-- The number of bytes of an array (R32, R33, R36, R42). -/
def arraySize (a : HostArray) (s : State) : Nat :=
  match a with
  | .addr => 8
  | .srom => 8
  | .owbuf => s.owbuf.length
  | .dbuf => s.dbuf.length

section
variable {s : State}

/-- A read of an array byte while no command executes (R28). -/
theorem readArray_hostData (a : HostArray) (i : Nat) (h : s.busy = false) :
    (readArray a i s).hostData = (arrayByte a i s).setWidth 32 := by
  simp [readArray, h]

theorem writeArray_busy (a : HostArray) (i : Nat) (v : Byte) : (writeArray a i v s).busy = s.busy := by
  unfold writeArray
  split
  · rfl
  · cases a <;> rfl

/-- A byte written inside its array reads back (R28). -/
theorem arrayByte_writeArray_same (a : HostArray) (i : Nat) (v : Byte) (h : s.busy = false)
    (hi : i < arraySize a s) : arrayByte a i (writeArray a i v s) = v := by
  cases a with
  | addr => rw [writeArray_addr i v h]; exact bufRead_romBytes_same _ i v hi
  | srom => rw [writeArray_srom i v h]; exact bufRead_romBytes_same _ i v hi
  | owbuf => rw [writeArray_owbuf i v h]; exact bufRead_bufWrite_same _ i v hi
  | dbuf => rw [writeArray_dbuf i v h]; exact bufRead_bufWrite_same _ i v hi

/-- No other byte of any array changes (R28). -/
theorem arrayByte_writeArray_other (a b : HostArray) (i j : Nat) (v : Byte) (h : s.busy = false)
    (hne : b ≠ a ∨ j ≠ i) : arrayByte b j (writeArray a i v s) = arrayByte b j s := by
  have hself : b = a → j ≠ i := fun hba => hne.resolve_left fun hnot => hnot hba
  cases a with
  | addr =>
    rw [writeArray_addr i v h]
    cases b with
    | addr => exact bufRead_romBytes_other _ i j v (hself rfl)
    | srom => rfl
    | owbuf => rfl
    | dbuf => rfl
  | srom =>
    rw [writeArray_srom i v h]
    cases b with
    | addr => rfl
    | srom => exact bufRead_romBytes_other _ i j v (hself rfl)
    | owbuf => rfl
    | dbuf => rfl
  | owbuf =>
    rw [writeArray_owbuf i v h]
    cases b with
    | addr => rfl
    | srom => rfl
    | owbuf => exact bufRead_bufWrite_other _ i j v (hself rfl)
    | dbuf => rfl
  | dbuf =>
    rw [writeArray_dbuf i v h]
    cases b with
    | addr => rfl
    | srom => rfl
    | owbuf => rfl
    | dbuf => exact bufRead_bufWrite_other _ i j v (hself rfl)

/-- An index outside its array: the write is ignored and a read gives 0 (R28). -/
theorem writeArray_of_ge (a : HostArray) (i : Nat) (v : Byte) (h : s.busy = false)
    (hi : arraySize a s ≤ i) : writeArray a i v s = s ∧ arrayByte a i s = 0 := by
  cases a with
  | addr =>
    rw [writeArray_addr i v h, setRomByte_of_ge _ i v hi]
    exact ⟨rfl, (bufRead_romBytes _ i).trans (if_neg (Nat.not_lt.mpr hi))⟩
  | srom =>
    rw [writeArray_srom i v h, setRomByte_of_ge _ i v hi]
    exact ⟨rfl, (bufRead_romBytes _ i).trans (if_neg (Nat.not_lt.mpr hi))⟩
  | owbuf =>
    obtain ⟨hwrite, hread⟩ := bufWrite_of_ge s.owbuf i v hi
    rw [writeArray_owbuf i v h, hwrite]
    exact ⟨rfl, hread⟩
  | dbuf =>
    obtain ⟨hwrite, hread⟩ := bufWrite_of_ge s.dbuf i v hi
    rw [writeArray_dbuf i v h, hwrite]
    exact ⟨rfl, hread⟩

/-! ### Register accesses -/

/-- While a command executes a write of any register is ignored (R290). -/
theorem writeReg_of_busy (r : HostReg) (v : Word) (h : s.busy = true) : writeReg r v s = .next s := by
  cases r <;> simp [writeReg, issue, h]

theorem writeArray_of_busy (a : HostArray) (i : Nat) (v : Byte) (h : s.busy = true) :
    writeArray a i v s = s := if_pos h

/-- A register R290 leaves open, read while no command executes. -/
theorem answerUnlessBusy_idle (v : Word) (h : s.busy = false) : answerUnlessBusy v s = answer v s := by
  simp [answerUnlessBusy, h]

theorem readReg_status_idle (h : s.busy = false) : readReg .status s = answer (statusWord s) s := by
  simp [readReg, h]

theorem readReg_status_busy (h : s.busy = true) :
    readReg .status s = { s with
      hostData := busyStatusWord s (Config.busyRead s.freeCount), freeCount := s.freeCount + 1 } := by
  rw [readReg, if_pos h]
  rfl

theorem begin_ppwr (a : Byte) (l : OneWire) : (l.begin a).ppwr = l.ppwr := by
  unfold OneWire.begin
  split <;> simp

theorem writeCtrl_ppwr (v : Word) (l : OneWire) : (writeCtrl v l).ppwr = v.getLsbD 0 := by
  unfold writeCtrl
  dsimp only
  split <;> simp

/-- A write of `SRCH` with both fields up to 64 sets the three fields (R27). -/
theorem writeSrch_accepted (v : Word) (q : Search) (hld : (v.extractLsb' 0 7).toNat ≤ 64)
    (hlfd : (v.extractLsb' 8 7).toNat ≤ 64) :
    writeSrch v q = { q with
      ld := v.extractLsb' 0 7, lfd := v.extractLsb' 8 7, ldf := v.getLsbD 16 } :=
  if_pos ⟨hld, hlfd⟩

/-- A write of `SRCH` with a field beyond 64 changes nothing (R27). -/
theorem writeSrch_ignored (v : Word) (q : Search)
    (h : 64 < (v.extractLsb' 0 7).toNat ∨ 64 < (v.extractLsb' 8 7).toNat) : writeSrch v q = q :=
  if_neg (by omega)

theorem readReg_srch_idle (h : s.busy = false) : (readReg .srch s).hostData = srchWord s.search := by
  rw [readReg, answerUnlessBusy_idle _ h, answer_hostData]

end

/-! ### The obligations on the host's accesses -/

/-- Settles O12, by the three facts about a written array: at the index, elsewhere, and outside. -/
theorem byteArrayAccess : Obligations.ByteArrayAccess := by
  intro s a i v h
  have hbusy : (writeArray a i v s).busy = false := (writeArray_busy a i v).trans h
  have hall : (i < arraySize a s → (readArray a i (writeArray a i v s)).hostData = v.setWidth 32) ∧
      (arraySize a s ≤ i → writeArray a i v s = s ∧ (readArray a i s).hostData = 0) ∧
      ∀ (b : HostArray) (j : Nat), b ≠ a ∨ j ≠ i →
        (readArray b j (writeArray a i v s)).hostData = (readArray b j s).hostData := by
    refine ⟨fun hi => ?_, fun hi => ?_, fun b j hne => ?_⟩
    · rw [readArray_hostData a i hbusy, arrayByte_writeArray_same a i v h hi]
    · obtain ⟨hwrite, hread⟩ := writeArray_of_ge a i v h hi
      refine ⟨hwrite, ?_⟩
      rw [readArray_hostData a i h, hread]
      rfl
    · rw [readArray_hostData b j hbusy, readArray_hostData b j h,
        arrayByte_writeArray_other a b i j v h hne]
  exact ⟨_, rfl, hall⟩

/-- Settles O9: the writes by the equations of `writeReg`, the commands by `exec_ran`, which leaves `PPWR`
alone in every case. -/
theorem controlRegister : Obligations.ControlRegister := by
  refine ⟨rfl, fun s v h => ?_, fun s v h => writeReg_of_busy .ctrl v h, fun i s t h => ?_⟩
  · have hppwr := writeCtrl_ppwr v s.line
    exact ⟨_, writeReg_ctrl v h, hppwr, ctrlWord_eq _ v hppwr⟩
  · obtain ⟨u, hu, ok, err, res, rfl⟩ := exec_ran h
    cases hu with
    | bind pin _ => exact begin_ppwr pin s.line
    | turnedAway _ => rfl
    | line l _ _ hl => exact hl.finish.ppwr
    | readBytes n l buf _ _ hl _ => exact hl.finish.ppwr
    | search a l p _ _ hl _ => exact hl.finish.ppwr
    | searchState q _ _ _ => rfl
    | crc _ => rfl
    | store f buf _ _ _ => rfl

/-- Settles O6: every write is ignored, and the fields of `STATUS` that R290 does not leave open are those
of `packStatus`, whatever the free value is. -/
theorem busyHostAccess : Obligations.BusyHostAccess := by
  intro s h
  obtain ⟨hbusy, -, hlow, -, hbound, hready, hlist, hhigh⟩ :=
    packStatus_fields s.busy ((Config.busyRead s.freeCount).getLsbD 1)
      ((Config.busyRead s.freeCount).extractLsb' 4 4) s.line.bound s.fsc.ready s.fsc.listActive
  refine ⟨fun r v => writeReg_of_busy r v h,
    fun a i v => congrArg _ (writeArray_of_busy a i v h),
    ⟨_, _, congrArg _ (readReg_status_busy h), hbusy.trans h, hlow, hbound, hready, hlist, hhigh⟩,
    _, _, rfl, rfl, rfl, rfl⟩

/-- Settles O7: the packed words field by field. -/
theorem hostRegisterReads : Obligations.HostRegisterReads := by
  refine ⟨rfl, rfl, fun s => ⟨rfl, fun h => ⟨⟨_, congrArg _ (readReg_status_idle h), ?_⟩, ?_, ?_, ?_⟩⟩⟩
  · rw [← h]
    exact packStatus_fields s.busy s.ok s.err.code s.line.bound s.fsc.ready s.fsc.listActive
  · exact congrArg _ (answerUnlessBusy_idle s.res h)
  · exact ⟨_, congrArg _ (answerUnlessBusy_idle _ h), fsPtrWord_fields s.fsc⟩
  · exact ⟨_, rfl, owCfgWord_fields s.line⟩

/-- Settles O8: an accepted write sets the fields, which `srchWord` packs and nothing else; the others are
ignored. -/
theorem searchRegister : Obligations.SearchRegister := by
  refine ⟨rfl, fun s v => ⟨fun h hld hlfd => ?_, fun hignored => ?_, fun h => ?_⟩⟩
  · have hwrite := writeReg_srch v h
    rw [writeSrch_accepted v s.search hld hlfd] at hwrite
    refine ⟨_, hwrite, rfl, ?_⟩
    rw [readReg_srch_idle (by exact h)]
    exact srchWord_of_fields v s.search
  · cases h : s.busy with
    | true => exact writeReg_of_busy .srch v h
    | false =>
      have hfields : 64 < (v.extractLsb' 0 7).toNat ∨ 64 < (v.extractLsb' 8 7).toNat := by
        simpa [h] using hignored
      exact (writeReg_srch v h).trans (by rw [writeSrch_ignored v s.search hfields])
  · rw [readReg_srch_idle h]
    exact srchWord_fields s.search

/-- Settles O11: the latch holds the high half while time passes. -/
theorem timeRegistersLatch : Obligations.TimeRegistersLatch :=
  ⟨rfl, rfl, fun _ => ⟨fun _ => ⟨rfl, rfl⟩, _, rfl, rfl, fun _ => ⟨_, _, rfl, rfl, rfl, rfl⟩⟩⟩

end Sys2Proof.Machine
end

section
/-! PROOFS. The machine as a whole: the clock (R29), what each kind of command leaves unchanged (R24, R35, R45,
R195, R284), and reset and power loss (R47, R72, R236). -/

namespace Sys2Proof.Machine

/-! ### The clock -/

theorem begin_time (a : Byte) (l : OneWire) : (l.begin a).time = l.time := by
  unfold OneWire.begin
  split <;> simp

/-- No command turns the clock back (R29). -/
theorem Changes.time_le {i : Instr} {s u : State} (h : Changes i s u) : s.line.time ≤ u.line.time := by
  cases h with
  | bind pin _ => exact (begin_time pin s.line).ge
  | turnedAway _ => exact le_rfl
  | line l _ _ hl => exact hl.finish.time
  | readBytes n l buf _ _ hl _ => exact hl.finish.time
  | search a l p _ _ hl _ => exact hl.finish.time
  | searchState q _ _ _ => exact le_rfl
  | crc _ => exact Nat.le_add_right _ _
  | store f buf _ _ _ => exact Nat.le_add_right _ _

theorem issue_time_le {w : Word} {s t : State} (h : issue w s = .next t) :
    s.line.time ≤ t.line.time := by
  obtain ⟨-, he⟩ | ⟨i, -, -, he⟩ | ⟨e, -, -, he⟩ := issue_cases w s <;> rw [he] at h
  · cases h
    exact le_rfl
  · obtain ⟨u, hu, ok, err, res, rfl⟩ := exec_ran h
    exact hu.time_le
  · cases h
    exact le_rfl

theorem writeCtrl_time (v : Word) (l : OneWire) : (writeCtrl v l).time = l.time := by
  unfold writeCtrl
  dsimp only
  split <;> simp

theorem writeReg_time_le {r : HostReg} {v : Word} {s t : State} (h : writeReg r v s = .next t) :
    s.line.time ≤ t.line.time := by
  cases hb : s.busy with
  | true =>
    rw [writeReg_of_busy r v hb] at h
    cases h
    exact le_rfl
  | false =>
    cases r with
    | cmd => exact issue_time_le h
    | ctrl =>
      rw [writeReg_ctrl v hb] at h
      cases h
      exact (writeCtrl_time v s.line).ge
    | srch =>
      rw [writeReg_srch v hb] at h
      cases h
      exact le_rfl
    | status => cases h; exact le_rfl
    | res => cases h; exact le_rfl
    | timeLo => cases h; exact le_rfl
    | timeHi => cases h; exact le_rfl
    | fsCrcerr => cases h; exact le_rfl
    | fsPtr => cases h; exact le_rfl
    | owCfg => cases h; exact le_rfl

/-- A write of an array byte leaves the line alone (R28). -/
theorem writeArray_line (a : HostArray) (i : Nat) (v : Byte) (s : State) :
    (writeArray a i v s).line = s.line := by
  unfold writeArray
  split
  · rfl
  · cases a <;> rfl

/-- No input but a loss of power turns the clock back (R29, R280). -/
theorem handle_time_le {e : Input} {s t : State} (he : e.losesPower = false)
    (h : handle e s = .next t) : s.line.time ≤ t.line.time := by
  cases e with
  | write r v => exact writeReg_time_le h
  | read r =>
    obtain ⟨v, k, latch, latched, hr⟩ := readReg_frame r s
    rw [handle, hr] at h
    cases h
    exact le_rfl
  | writeByte a i v =>
    cases h
    exact (congrArg OneWire.time (writeArray_line a i v s)).ge
  | readByte a i =>
    obtain ⟨v, k, hr⟩ := readArray_frame a i s
    rw [handle, hr] at h
    cases h
    exact le_rfl
  | idle n => cases h; exact Nat.le_add_right _ _
  | powerLoss => cases he
  | powerLossDuring w cut => cases he
  | slaves script => cases h; exact le_rfl
  | upset a v => cases h; exact le_rfl
  | upsetOnRetry a v => cases h; exact le_rfl

/-- Settles O21: a step is one input that loses no power, or an idle microsecond. -/
theorem timeNeverDecreases : Obligations.TimeNeverDecreases := by
  intro s t h hpower
  obtain ⟨-, hs⟩ | ⟨e, rest, hinputs, hs⟩ := step_cases s <;> rw [hs] at h
  · cases h
    exact Nat.le_add_right _ _
  · exact handle_time_le (s := { s with inputs := rest }) (hpower e (by rw [hinputs]; rfl)) h

/-! ### What each kind of command leaves unchanged -/

/-- Settles O19: each way a command can change the state leaves the rest of it alone. -/
theorem unitFrames : Obligations.UnitFrames := by
  intro i s t h
  obtain ⟨u, hu, ok, err, res, rfl⟩ := exec_ran h
  cases hu with
  | bind pin hk => simp [hk]
  | turnedAway hk => simp [hk]
  | line l hk _ hl => simp [hk, hl.bound, hl.pin, hl.slaves]
  | readBytes n l buf hi _ hl _ => subst hi; simp [Instr.kind, hl.bound, hl.pin, hl.slaves]
  | search a l p hi _ hl _ => subst hi; simp [Instr.kind, hl.bound, hl.pin, hl.slaves]
  | searchState q hk _ _ => simp [hk]
  | crc hk => simp [hk]
  | store f buf hk _ _ => simp [hk]

/-! ### Guards of the FSC commands (R38, R94, R284) -/

/-- The commands that name a file run behind the checks of `withFile` (R38, R94). -/
theorem exec_file (i : Instr) (s : State) (id : Byte)
    (hi : i = .fsWriteFile id ∨ i = .fsUpdateFile id ∨ i = .fsEraseFile id ∨ i = .fsReadFile id ∨
      i = .fsListFirst id) : ∃ body, exec i s = withFile id s body := by
  obtain rfl | rfl | rfl | rfl | rfl := hi
  · exact ⟨_, by rw [exec, execFsWriteFile]⟩
  · exact ⟨_, by rw [exec, execFsUpdateFile]⟩
  · exact ⟨_, by rw [exec, execFsEraseFile]⟩
  · exact ⟨_, by rw [exec, execFsReadFile]⟩
  · exact ⟨_, by rw [exec, execFsListFirst]⟩

/-- Every FSC command but `FS_BEGIN` runs behind the checks of `withStore` (R38). -/
theorem exec_store (i : Instr) (s : State) (hi : i.kind = .store) (hne : i ≠ .fsBegin) :
    ∃ body, exec i s = withStore s body := by
  have hfile : ∀ id, (∃ body, exec i s = withFile id s body) → ∃ body, exec i s = withStore s body :=
    fun id ⟨body, h⟩ => ⟨_, h.trans (withFile.eq_def id s body)⟩
  cases i with
  | fsBegin => exact absurd rfl hne
  | fsWriteFile id => exact hfile id (exec_file _ s id (by simp))
  | fsUpdateFile id => exact hfile id (exec_file _ s id (by simp))
  | fsEraseFile id => exact hfile id (exec_file _ s id (by simp))
  | fsReadFile id => exact hfile id (exec_file _ s id (by simp))
  | fsListFirst id => exact hfile id (exec_file _ s id (by simp))
  | fsCrcerr => exact ⟨_, by rw [exec, execFsCrcerr]⟩
  | fsListNext => exact ⟨_, by rw [exec, execFsListNext]⟩
  | _ => cases hi

/-- Outside R6's constraints the model refuses (R284, log 16). -/
theorem withGeometry_refused (s : State) (body : State → Result) (hc : ¬ s.cfg.Valid) :
    withGeometry s body = .refused .geometry := if_neg hc

/-- Settles O44: the guards in R97's order. -/
theorem storeCommandGuards : Obligations.StoreCommandGuards := by
  intro i s hi
  refine ⟨fun hc => ?_, fun hc hne hready => ?_, fun hc hready id hid hfile => ?_⟩
  · by_cases hbegin : i = .fsBegin
    · subst hbegin
      rw [exec, execFsBegin]
      exact withGeometry_refused s _ hc
    · obtain ⟨body, hexec⟩ := exec_store i s hi hbegin
      rw [hexec]
      exact withGeometry_refused s _ hc
  · obtain ⟨body, hexec⟩ := exec_store i s hi hne
    exact hexec.trans ((withStore_next s _ body).mpr ⟨hc, .inr ⟨hready, rfl⟩⟩)
  · obtain ⟨body, hexec⟩ := exec_file i s id hfile
    exact hexec.trans ((withFile_next id s _ body).mpr ⟨hc, .inl ⟨hready, .inr ⟨hid, rfl⟩⟩⟩)

/-! ### Reset and power -/

/-- Power-on gives every volatile element R47's value. -/
theorem powerOn_volatile (c : Config) (flash : Memory) (log : List FlashEvent) :
    (State.powerOn c flash log).VolatileAtReset where
  command := ⟨rfl, rfl, rfl, rfl, rfl⟩
  line := ⟨rfl, rfl, rfl, rfl, rfl⟩
  search := ⟨rfl, rfl, rfl, rfl, rfl⟩
  buffers := ⟨rfl, rfl⟩
  store := ⟨rfl, List.map_replicate, rfl, rfl, rfl⟩
  listing := ⟨rfl, rfl, rfl, rfl⟩

/-- So does a loss of power: what it keeps beside the flash belongs to the outside world (R72). -/
theorem powerCycle_volatile (flash : Memory) (log : List FlashEvent) (s : State) :
    (powerCycle flash log s).VolatileAtReset :=
  have h := powerOn_volatile s.cfg flash log
  ⟨h.command, h.line, h.search, h.buffers, h.store, h.listing⟩

/-- Settles O13: power-on and a loss of power take the same values. -/
theorem resetValues : Obligations.ResetValues :=
  ⟨fun c flash log => ⟨powerOn_volatile c flash log, rfl, rfl⟩,
    fun s => ⟨_, rfl, powerCycle_volatile _ _ s, rfl, rfl⟩⟩

/-! ### Power loss during a command (R72) -/

theorem Changes.performs {i : Instr} {s u : State} (h : Changes i s u) :
    s.fsc.Performs s.cfg (fun _ => True) u.fsc := by
  have hsame := Fsc.Performs.refl s.cfg (fun _ => True) s.fsc
  cases h with
  | store f buf _ hf _ => exact hf.performs
  | _ => exact hsame

/-- Issuing a word changes the flash by logged events only (R236, R269). -/
theorem issue_performs {w : Word} {s t : State} (h : issue w s = .next t) :
    s.fsc.Performs s.cfg (fun _ => True) t.fsc := by
  obtain ⟨-, he⟩ | ⟨i, -, -, he⟩ | ⟨e, -, -, he⟩ := issue_cases w s <;> rw [he] at h
  · cases h
    exact .refl _ _ _
  · obtain ⟨u, hu, ok, err, res, rfl⟩ := exec_ran h
    exact hu.performs
  · cases h
    exact .refl _ _ _

/-- Power lost during a command that logged `es` gives a block at reset over the flash that the cut
sequence of events made. -/
theorem powerLossDuring_next {w : Word} {s t : State} {es : List FlashEvent} (cut : PowerCut)
    (h : issue w s = .next t) (hlog : t.fsc.log = s.fsc.log ++ es) :
    ∃ u, handle (.powerLossDuring w cut) s = .next u ∧ u.VolatileAtReset ∧ u.cfg = s.cfg ∧
      u.fsc.flash = replayFlash s.cfg s.fsc.log.length (cutEvents cut es) s.fsc.flash ∧
      u.fsc.log = s.fsc.log ++ cutEvents cut es := by
  refine ⟨_, (issueCut_next w cut s _).mpr ⟨t, h, rfl⟩, powerCycle_volatile _ _ _, rfl, ?_, ?_⟩ <;>
    rw [← List.drop_left (l₁ := s.fsc.log) (l₂ := es), ← hlog] <;> rfl

/-- A cut between two events leaves the events before it. -/
theorem cutEvents_between (n : Nat) (es : List FlashEvent) :
    cutEvents { calls := n, mid := false } es = es.take n := by
  simp [cutEvents]

theorem drop_eq_cons_of_getElem? {es : List FlashEvent} {n : Nat} {e : FlashEvent}
    (h : es[n]? = some e) : es.drop n = e :: es.drop (n + 1) := by
  obtain ⟨hn, rfl⟩ := List.getElem?_eq_some_iff.mp h
  exact List.drop_eq_getElem_cons hn

/-- A cut inside an erase (U6). -/
theorem cutEvents_erase {es : List FlashEvent} {n p : Nat} (h : es[n]? = some (.erase p)) :
    cutEvents { calls := n, mid := true } es = es.take n ++ [.eraseCut p] := by
  simp [cutEvents, drop_eq_cons_of_getElem? h]

/-- A cut inside a program call (U7). -/
theorem cutEvents_program {es : List FlashEvent} {n lo : Nat} {bytes : List Byte}
    (h : es[n]? = some (.program lo bytes)) :
    cutEvents { calls := n, mid := true } es = es.take n ++ [.programCut lo bytes] := by
  simp [cutEvents, drop_eq_cons_of_getElem? h]

/-- Writing a run of bytes leaves every address outside it alone. -/
theorem read_writeBytes_other (bs : List Byte) : ∀ (m : Memory) (lo a : Nat),
    a < lo ∨ lo + bs.length ≤ a → Memory.read (Memory.writeBytes m lo bs) a = Memory.read m a := by
  induction bs with
  | nil => exact fun _ _ _ _ => rfl
  | cons b rest ih =>
    intro m lo a ha
    rw [List.length_cons] at ha
    rw [Memory.writeBytes, ih _ _ _ (by omega), read_write_other _ _ _ _ (by omega)]

/-- A cut program call leaves every byte outside its range alone. -/
theorem read_programCutBytes_other (event : Nat) (bs : List Byte) : ∀ (m : Memory) (lo a : Nat),
    a < lo ∨ lo + bs.length ≤ a →
    Memory.read (programCutBytes event m lo bs) a = Memory.read m a := by
  induction bs with
  | nil => exact fun _ _ _ _ => rfl
  | cons b rest ih =>
    intro m lo a ha
    rw [List.length_cons] at ha
    rw [programCutBytes, ih _ _ _ (by omega), read_write_other _ _ _ _ (by omega)]

/-- A cut program call gives each byte of its range its old value or the one the whole call gives (U7). The
two runs are compared on memories that agree at the address, for the bytes before it differ. -/
theorem read_programCutBytes (event : Nat) (bs : List Byte) : ∀ (m m' : Memory) (lo a : Nat),
    Memory.wf m = true → Memory.wf m' = true → Memory.read m a = Memory.read m' a →
    Memory.read (programCutBytes event m lo bs) a = Memory.read m a ∨
      (lo ≤ a ∧ a < lo + bs.length ∧ Memory.read (programCutBytes event m lo bs) a =
        Memory.read (programBytes event m' lo bs) a) := by
  induction bs with
  | nil => exact fun _ _ _ _ _ _ _ => .inl rfl
  | cons b rest ih =>
    intro m m' lo a hm hm' heq
    rw [programCutBytes, programBytes, List.length_cons]
    by_cases ha : a = lo
    · subst ha
      rw [read_programCutBytes_other _ _ _ _ _ (by omega), read_write_same _ _ _ hm,
        read_programBytes_other _ _ _ _ _ (by omega), read_write_same _ _ _ hm', ← heq]
      split
      · exact .inr ⟨le_rfl, by omega, rfl⟩
      · exact .inl rfl
    · refine Or.imp (fun hold => hold.trans (read_write_other _ _ _ _ ha))
        (fun ⟨hlo, hup, hnew⟩ => ⟨by omega, by omega, hnew⟩)
        (ih _ _ (lo + 1) a (wf_write m lo _ hm) (wf_write m' lo _ hm') ?_)
      rw [read_write_other _ _ _ _ ha, read_write_other _ _ _ _ ha, heq]

/-- Settles O14: the command's events are those `issue_performs` finds; a cut between two of them keeps those
before it, a cut inside an erase or a program call adds one more, whose effect is confined as R72 says. -/
theorem powerLossKeepsPrefixOfCalls : Obligations.PowerLossKeepsPrefixOfCalls := by
  intro w s t h
  obtain ⟨es, -, hlog, hflash⟩ := issue_performs h
  refine ⟨es, hlog, fun n => ?_, fun n e he hwf => ?_⟩
  · obtain ⟨u, hu, hvol, hcfg, hfl, hlg⟩ := powerLossDuring_next { calls := n, mid := false } h hlog
    rw [cutEvents_between] at hfl hlg
    refine ⟨u, hu, hvol, hcfg, hfl, hlg, ?_, fun hn => ?_⟩
    · rintro rfl
      exact hfl
    · rw [hfl, List.take_of_length_le hn, hflash]
  · obtain ⟨u, hu, hvol, hcfg, hfl, -⟩ := powerLossDuring_next { calls := n, mid := true } h hlog
    refine ⟨u, hu, hvol, hcfg, ?_, ?_⟩
    · rintro p rfl a ha
      rw [hfl, cutEvents_erase he, replayFlash_append]
      exact read_writeBytes_other _ _ _ _ (by simpa using ha)
    · rintro lo bytes rfl a
      have hprefix := wf_replayFlash s.cfg (es.take n) s.fsc.log.length _ hwf
      dsimp only
      rw [hfl, cutEvents_program he, List.take_add_one, he, Option.toList_some, replayFlash_append,
        replayFlash_append]
      exact read_programCutBytes _ bytes _ _ lo a hprefix hprefix rfl

end Sys2Proof.Machine
end

section
/-! PROOFS. The flash a command leaves is the replay of the device events it logged (R236, R269). -/

namespace Sys2Proof.Machine

/-- A command that ends has changed the flash by logged events only: what it made of its own unit did
(`Changes.performs`), and the write of `OK`, `ERR`, `RES` and `BUSY` at the end (R95) leaves the FSC alone. -/
theorem exec_performs {i : Instr} {s t : State} (h : exec i s = .next t) :
    s.fsc.Performs s.cfg (fun _ => True) t.fsc := by
  obtain ⟨u, hchanges, ok, err, res, rfl⟩ := exec_ran h
  exact hchanges.performs

/-- Settles O20: the events are those the command performed. -/
theorem flashChangesOnlyByDeviceCalls : Obligations.FlashChangesOnlyByDeviceCalls := by
  intro i s t h
  obtain ⟨events, -, hlog, hflash⟩ := exec_performs h
  exact ⟨events, hlog, hflash⟩

end Sys2Proof.Machine
end

section
/-! PROOFS. Command words (R90 to R93, R102): the decoder accepts a word exactly when its three fields are
those of a legal command, so that decoding and encoding are inverse to each other; and what issuing a word
does (R91, R93). -/

namespace Sys2Proof

/-! ### The operand formats (R90, R93) -/

section
variable {w : Word} {i j : Instr} {mk : Byte → Instr}

theorem formatN_eq_ok : formatN w j = .ok i ↔ wordOperand w = 0 ∧ j = i := by
  unfold formatN
  split <;> simp_all

theorem formatA_eq_ok : formatA w mk = .ok i ↔ mk (wordOperand w) = i := by
  simp [formatA]

theorem formatA1_eq_ok :
    formatA1 w mk = .ok i ↔ OneBitOperand (wordOperand w) ∧ mk (wordOperand w) = i := by
  unfold formatA1
  split <;> simp_all

theorem formatN_illegal : (∃ e, formatN w j = .error e) ↔ wordOperand w ≠ 0 := by
  unfold formatN
  split <;> simp_all

theorem formatA_legal : ¬ ∃ e, formatA w mk = .error e := nofun

theorem formatA1_illegal : (∃ e, formatA1 w mk = .error e) ↔ 1 < (wordOperand w).toNat := by
  unfold formatA1
  split <;> simp_all

end

/-! ### The opcode map (R92) -/

/-- The opcodes of format N. -/
def opcodesN : List Nat := [0x02, 0x04, 0x07, 0x09, 0x0A, 0x10, 0x40, 0x45, 0x47]

/-- The opcodes of format A with any operand. -/
def opcodesA : List Nat :=
  [0x01, 0x05, 0x06, 0x08, 0x11, 0x20, 0x21, 0x22, 0x41, 0x42, 0x43, 0x44, 0x46]

/-- The opcodes of format A whose operand must be 0 or 1 (R93). -/
def opcodesA1 : List Nat := [0x03, 0x12]

/-- The opcodes of R92's table, in its order. -/
def opcodes : List Nat :=
  [0x01, 0x02, 0x03, 0x04, 0x05, 0x06, 0x07, 0x08, 0x09, 0x0A, 0x10, 0x11, 0x12, 0x20, 0x21, 0x22,
    0x40, 0x41, 0x42, 0x43, 0x44, 0x45, 0x46, 0x47]

theorem opcodesN_apart : ∀ k ∈ opcodesN, k ∈ opcodes ∧ k ∉ opcodesA1 := by decide

theorem opcodesA_apart : ∀ k ∈ opcodesA, k ∈ opcodes ∧ k ∉ opcodesN ∧ k ∉ opcodesA1 := by decide

theorem opcodesA1_apart : ∀ k ∈ opcodesA1, k ∈ opcodes ∧ k ∉ opcodesN := by decide

/-- The row of R92's table that a word selects, with what the decoder then answers. -/
inductive TableRow (w : Word) : Except IllegalWord Instr → Prop
  | formatN (j : Instr) (k : Nat) : (wordOpc w).toNat = k →
      k ∈ opcodesN ∧ j.opcode.toNat = k ∧ j.operand = 0 ∧ j.WellFormed → TableRow w (formatN w j)
  | formatA (mk : Byte → Instr) (k : Nat) : (wordOpc w).toNat = k → k ∈ opcodesA →
      (∀ a, (mk a).opcode.toNat = k ∧ (mk a).operand = a ∧ (mk a).WellFormed) →
      TableRow w (formatA w mk)
  | formatA1 (mk : Byte → Instr) (k : Nat) : (wordOpc w).toNat = k → k ∈ opcodesA1 →
      (∀ a, (mk a).opcode.toNat = k ∧ (mk a).operand = a ∧
        (OneBitOperand a → (mk a).WellFormed)) → TableRow w (formatA1 w mk)
  | reserved : (wordOpc w).toNat ∉ opcodes →
      TableRow w (.error (.reservedOpcode (wordOpc w)))

theorem decodeOpcode_row (w : Word) : TableRow w (decodeOpcode w) := by
  unfold decodeOpcode
  split
  · exact .formatA .owBegin _ ‹_› (by decide) fun _ => ⟨rfl, rfl, rfl⟩
  · exact .formatN .owReset _ ‹_› (by decide)
  · exact .formatA1 .owWriteBit _ ‹_› (by decide) fun _ => ⟨rfl, rfl, decide_eq_true⟩
  · exact .formatN .owReadBit _ ‹_› (by decide)
  · exact .formatA .owWrite _ ‹_› (by decide) fun _ => ⟨rfl, rfl, rfl⟩
  · exact .formatA .owWriteBytes _ ‹_› (by decide) fun _ => ⟨rfl, rfl, rfl⟩
  · exact .formatN .owRead _ ‹_› (by decide)
  · exact .formatA .owReadBytes _ ‹_› (by decide) fun _ => ⟨rfl, rfl, rfl⟩
  · exact .formatN .owSelect _ ‹_› (by decide)
  · exact .formatN .owSelectAll _ ‹_› (by decide)
  · exact .formatN .owSearchBegin _ ‹_› (by decide)
  · exact .formatA .owSearchBeginFam _ ‹_› (by decide) fun _ => ⟨rfl, rfl, rfl⟩
  · exact .formatA1 .owSearch _ ‹_› (by decide) fun _ => ⟨rfl, rfl, decide_eq_true⟩
  · exact .formatA .crc8 _ ‹_› (by decide) fun _ => ⟨rfl, rfl, rfl⟩
  · exact .formatA .crc16 _ ‹_› (by decide) fun _ => ⟨rfl, rfl, rfl⟩
  · exact .formatA .checkCrc16 _ ‹_› (by decide) fun _ => ⟨rfl, rfl, rfl⟩
  · exact .formatN .fsBegin _ ‹_› (by decide)
  · exact .formatA .fsWriteFile _ ‹_› (by decide) fun _ => ⟨rfl, rfl, rfl⟩
  · exact .formatA .fsUpdateFile _ ‹_› (by decide) fun _ => ⟨rfl, rfl, rfl⟩
  · exact .formatA .fsEraseFile _ ‹_› (by decide) fun _ => ⟨rfl, rfl, rfl⟩
  · exact .formatA .fsReadFile _ ‹_› (by decide) fun _ => ⟨rfl, rfl, rfl⟩
  · exact .formatN .fsCrcerr _ ‹_› (by decide)
  · exact .formatA .fsListFirst _ ‹_› (by decide) fun _ => ⟨rfl, rfl, rfl⟩
  · exact .formatN .fsListNext _ ‹_› (by decide)
  · refine .reserved ?_
    simp only [opcodes, List.mem_cons, List.not_mem_nil, or_false]
    grind

/-! ### Decoding and encoding are inverse to each other -/

/-- Bits 15:0 of the word are those of the command (R90, R92). -/
def Instr.FieldsIn (i : Instr) (w : Word) : Prop := wordOpc w = i.opcode ∧ wordOperand w = i.operand

/-- What R92's table gives for a word is a legal command with the word's fields. -/
theorem decodeOpcode_fields {w : Word} {i : Instr} (h : decodeOpcode w = .ok i) :
    i.WellFormed ∧ i.FieldsIn w := by
  have hrow := decodeOpcode_row w
  generalize decodeOpcode w = answer at hrow h
  cases hrow with
  | formatN j k hk hj =>
    obtain ⟨ha, rfl⟩ := formatN_eq_ok.mp h
    obtain ⟨-, hopc, hzero, hlegal⟩ := hj
    exact ⟨hlegal, BitVec.eq_of_toNat_eq (hk.trans hopc.symm), ha.trans hzero.symm⟩
  | formatA mk k hk _ hmk =>
    obtain rfl := formatA_eq_ok.mp h
    obtain ⟨hopc, ha, hlegal⟩ := hmk (wordOperand w)
    exact ⟨hlegal, BitVec.eq_of_toNat_eq (hk.trans hopc.symm), ha.symm⟩
  | formatA1 mk k hk _ hmk =>
    obtain ⟨hbit, rfl⟩ := formatA1_eq_ok.mp h
    obtain ⟨hopc, ha, hlegal⟩ := hmk (wordOperand w)
    exact ⟨hlegal hbit, BitVec.eq_of_toNat_eq (hk.trans hopc.symm), ha.symm⟩
  | reserved _ => cases h

/-- R92's table gives every legal command for its fields. -/
theorem decodeOpcode_of_fields {w : Word} {i : Instr} (hi : i.WellFormed) (h : i.FieldsIn w) :
    decodeOpcode w = .ok i := by
  obtain ⟨hopc, ha⟩ := h
  rw [decodeOpcode, hopc]
  cases i with
  | owBegin pin => exact formatA_eq_ok.mpr (congrArg _ ha)
  | owReset => exact formatN_eq_ok.mpr ⟨ha, rfl⟩
  | owWriteBit v => exact formatA1_eq_ok.mpr ⟨ha ▸ of_decide_eq_true hi, congrArg _ ha⟩
  | owReadBit => exact formatN_eq_ok.mpr ⟨ha, rfl⟩
  | owWrite b => exact formatA_eq_ok.mpr (congrArg _ ha)
  | owWriteBytes n => exact formatA_eq_ok.mpr (congrArg _ ha)
  | owRead => exact formatN_eq_ok.mpr ⟨ha, rfl⟩
  | owReadBytes n => exact formatA_eq_ok.mpr (congrArg _ ha)
  | owSelect => exact formatN_eq_ok.mpr ⟨ha, rfl⟩
  | owSelectAll => exact formatN_eq_ok.mpr ⟨ha, rfl⟩
  | owSearchBegin => exact formatN_eq_ok.mpr ⟨ha, rfl⟩
  | owSearchBeginFam family => exact formatA_eq_ok.mpr (congrArg _ ha)
  | owSearch alertOnly => exact formatA1_eq_ok.mpr ⟨ha ▸ of_decide_eq_true hi, congrArg _ ha⟩
  | crc8 n => exact formatA_eq_ok.mpr (congrArg _ ha)
  | crc16 n => exact formatA_eq_ok.mpr (congrArg _ ha)
  | checkCrc16 n => exact formatA_eq_ok.mpr (congrArg _ ha)
  | fsBegin => exact formatN_eq_ok.mpr ⟨ha, rfl⟩
  | fsWriteFile id => exact formatA_eq_ok.mpr (congrArg _ ha)
  | fsUpdateFile id => exact formatA_eq_ok.mpr (congrArg _ ha)
  | fsEraseFile id => exact formatA_eq_ok.mpr (congrArg _ ha)
  | fsReadFile id => exact formatA_eq_ok.mpr (congrArg _ ha)
  | fsCrcerr => exact formatN_eq_ok.mpr ⟨ha, rfl⟩
  | fsListFirst id => exact formatA_eq_ok.mpr (congrArg _ ha)
  | fsListNext => exact formatN_eq_ok.mpr ⟨ha, rfl⟩

/-- A word decodes to a command exactly when the command is legal and the three fields of the word are its
opcode, its operand and zero (R90, R92, R93). -/
theorem decode_eq_ok_iff {w : Word} {i : Instr} :
    decode w = .ok i ↔ i.WellFormed ∧ i.FieldsIn w ∧ wordReserved w = 0 := by
  unfold decode
  split
  · next hres =>
    exact ⟨fun h => ⟨(decodeOpcode_fields h).1, (decodeOpcode_fields h).2, hres⟩,
      fun ⟨hi, hf, _⟩ => decodeOpcode_of_fields hi hf⟩
  · next hres => exact ⟨nofun, fun ⟨_, _, h⟩ => absurd h hres⟩

/-- Two words with the same three fields are the same word (R90). -/
theorem word_ext {v w : Word} (hopc : wordOpc v = wordOpc w) (ha : wordOperand v = wordOperand w)
    (hres : wordReserved v = wordReserved w) : v = w := by
  have hopc := congrArg BitVec.toNat hopc
  have ha := congrArg BitVec.toNat ha
  have hres := congrArg BitVec.toNat hres
  simp only [wordOpc, wordOperand, wordReserved, BitVec.extractLsb'_toNat,
    Nat.shiftRight_eq_div_pow] at hopc ha hres
  have := v.isLt
  have := w.isLt
  exact BitVec.eq_of_toNat_eq (by omega)

/-- The encoder's fields, from the law on words made of an opcode and an operand (R102). -/
theorem encode_fields (i : Instr) : i.FieldsIn (encode i) ∧ wordReserved (encode i) = 0 := by
  obtain ⟨hopc, ha, hres⟩ := Laws.word_fields i.opcode i.operand
  exact ⟨⟨hopc, ha⟩, hres⟩

/-- A word is a command's exactly when its fields are (R90, R102). -/
theorem encode_eq_iff {w : Word} {i : Instr} :
    encode i = w ↔ i.FieldsIn w ∧ wordReserved w = 0 := by
  obtain ⟨⟨hopc, ha⟩, hres⟩ := encode_fields i
  refine ⟨fun h => h ▸ encode_fields i, fun ⟨⟨hopc', ha'⟩, hres'⟩ => ?_⟩
  exact word_ext (hopc.trans hopc'.symm) (ha.trans ha'.symm) (hres.trans hres'.symm)

/-- Settles O1: the encoder's fields are those the decoder asks for. -/
theorem decodeEncodeLegalCommand : Obligations.DecodeEncodeLegalCommand := fun i hi =>
  decode_eq_ok_iff.mpr ⟨hi, encode_fields i⟩

/-- Settles O2: the fields of a word that decodes determine it, and any other legal command with that word
would be what it decodes to as well. -/
theorem decodedWordReencodes : Obligations.DecodedWordReencodes := by
  intro w i h
  obtain ⟨hi, hfields⟩ := decode_eq_ok_iff.mp h
  refine ⟨hi, encode_eq_iff.mpr hfields, ?_⟩
  rintro j hj rfl
  exact Except.ok.inj ((decodeEncodeLegalCommand j hj).symm.trans h)

/-- Settles O4: each word is the one the encoder writes for its command. -/
theorem specWordsDecode : Obligations.SpecWordsDecode :=
  have h := decodeEncodeLegalCommand
  ⟨h (.owBegin 7) rfl, h .owReset rfl, h (.owWriteBit 1) rfl, h (.owWrite 0xFF) rfl,
    h (.owWriteBytes 33) rfl, h .owSelectAll rfl, h (.owSearchBeginFam 0x28) rfl, h (.crc8 9) rfl,
    h (.checkCrc16 31) rfl, h (.fsWriteFile 15) rfl, h .fsListNext rfl⟩

/-! ### Illegal words (R93) -/

/-- R92's table has no row for the opcode, or the row's format refuses the operand (R93). -/
theorem decodeOpcode_illegal (w : Word) :
    (∃ e, decodeOpcode w = .error e) ↔
      (wordOpc w).toNat ∉ opcodes ∨
        ((wordOpc w).toNat ∈ opcodesN ∧ wordOperand w ≠ 0) ∨
        ((wordOpc w).toNat ∈ opcodesA1 ∧ 1 < (wordOperand w).toNat) := by
  have hrow := decodeOpcode_row w
  generalize decodeOpcode w = answer at hrow ⊢
  cases hrow with
  | formatN j k hk hj =>
    obtain ⟨hmem, hA1⟩ := opcodesN_apart k hj.1
    simp [formatN_illegal, hk, hj.1, hmem, hA1]
  | formatA mk k hk hA _ =>
    obtain ⟨hmem, hN, hA1⟩ := opcodesA_apart k hA
    simp [formatA_legal, hk, hmem, hN, hA1]
  | formatA1 mk k hk hA1 _ =>
    obtain ⟨hmem, hN⟩ := opcodesA1_apart k hA1
    simp [formatA1_illegal, hk, hA1, hmem, hN]
  | reserved hopc => simp [hopc]

/-- Which words are illegal (R93). -/
theorem decode_illegal (w : Word) :
    (∃ e, decode w = .error e) ↔
      wordReserved w ≠ 0 ∨ (wordOpc w).toNat ∉ opcodes ∨
        ((wordOpc w).toNat ∈ opcodesN ∧ wordOperand w ≠ 0) ∨
        ((wordOpc w).toNat ∈ opcodesA1 ∧ 1 < (wordOperand w).toNat) := by
  unfold decode
  split
  · next hres => rw [decodeOpcode_illegal, or_iff_right (not_not_intro hres)]
  · next hres => exact iff_of_true ⟨_, rfl⟩ (.inl hres)

end Sys2Proof

namespace Sys2Proof.Machine

/-! ### Issuing a word (R91, R93) -/

section
variable {w : Word} {s : State}

/-- An idle block runs the command a word decodes to (R91). -/
theorem issue_of_ok {i : Instr} (hb : s.busy = false) (h : decode w = .ok i) :
    issue w s = exec i (accept w s) := by
  simp [issue, hb, h]

/-- An idle block fails an illegal word and does nothing else (R93). -/
theorem issue_of_error {e : IllegalWord} (hb : s.busy = false) (h : decode w = .error e) :
    issue w s = .next (fail .illegal 0 (accept w s)) := by
  simp [issue, hb, h]

end

/-- Settles O3: the conditions are those of the decoder's table, and `fail(ILLEGAL)` after the acceptance
of the word is all that happens. -/
theorem illegalWordsFailOnly : Obligations.IllegalWordsFailOnly := by
  intro w
  refine ⟨decode_illegal w, ?_⟩
  rintro s hb ⟨e, he⟩
  exact issue_of_error hb he

/-- Settles O5: the step hands the input to `issue`. -/
theorem stepRunsDecodedCommand : Obligations.StepRunsDecodedCommand := by
  intro s w i rest hinputs hb hdecode
  have hissue : step s = issue w { s with inputs := rest } := by rw [step, hinputs]; rfl
  exact hissue.trans (issue_of_ok hb hdecode)

end Sys2Proof.Machine
end

section
/-! PROOFS. How every command ends (R95, R262): with `done`, or with `fail` and one of the codes of its own
list, `RES` being 0 but for the commands that count. -/

namespace Sys2Proof.Machine

/-- The block's report of a command that has ended: success, or one of `codes`, with `RES = 0` unless the
command `counts` (R95, R262). -/
def Reports (codes : List ErrCode) (counts : Bool) (t : State) : Prop :=
  (t.ok = true ∧ t.err = .none) ∨
    (t.ok = false ∧ t.err ∈ codes ∧ (t.res = 0 ∨ counts = true))

/-- Every next state of `r` has such a report. -/
def EndsWith (codes : List ErrCode) (counts : Bool) (r : Result) : Prop :=
  ∀ t, r = .next t → Reports codes counts t

section
variable {codes : List ErrCode} {counts : Bool} {s : State}

theorem endsWith_done (v : Word) (u : State) : EndsWith codes counts (.next (done v u)) := by
  rintro _ ⟨⟩
  exact .inl ⟨rfl, rfl⟩

theorem endsWith_fail (u : State) {e : ErrCode} (he : e ∈ codes) :
    EndsWith codes counts (.next (fail e 0 u)) := by
  rintro _ ⟨⟩
  exact .inr ⟨rfl, he, .inl rfl⟩

theorem endsWith_count (v : Word) (u : State) {e : ErrCode} (he : e ∈ codes) :
    EndsWith codes true (.next (fail e v u)) := by
  rintro _ ⟨⟩
  exact .inr ⟨rfl, he, .inr rfl⟩

theorem endsWith_fault (r : Fault) : EndsWith codes counts (.fault r) := by
  intro t h
  cases h

theorem endsWith_refused (r : Refusal) : EndsWith codes counts (.refused r) := by
  intro t h
  cases h

theorem endsWith_ite {p : Prop} [Decidable p] {a b : Result} (ha : EndsWith codes counts a)
    (hb : EndsWith codes counts b) : EndsWith codes counts (if p then a else b) := by
  split
  · exact ha
  · exact hb

/-! ### The checks of R97 -/

theorem withPin_endsWith {body : Result} (he : .notReady ∈ codes) (h : EndsWith codes counts body) :
    EndsWith codes counts (withPin s body) :=
  endsWith_ite h (endsWith_fail s he)

theorem withBitOperand_endsWith {a : Byte} {body : Bool → Result}
    (he : ¬ OneBitOperand a → .illegal ∈ codes)
    (h : OneBitOperand a → ∀ b, EndsWith codes counts (body b)) :
    EndsWith codes counts (withBitOperand a s body) := by
  unfold withBitOperand
  split
  · next ha => exact h ha _
  · next ha => exact endsWith_fail s (he ha)

theorem withCount_endsWith {need : Nat} {body : Result} (he : .range ∈ codes)
    (h : EndsWith codes counts body) : EndsWith codes counts (withCount need s body) :=
  endsWith_ite h (endsWith_fail s he)

theorem withGeometry_endsWith {body : State → Result} (h : ∀ t, EndsWith codes counts (body t)) :
    EndsWith codes counts (withGeometry s body) :=
  endsWith_ite (h _) (endsWith_refused _)

theorem withStore_endsWith {body : State → Result} (he : .notReady ∈ codes)
    (h : ∀ t, EndsWith codes counts (body t)) : EndsWith codes counts (withStore s body) :=
  withGeometry_endsWith fun t => endsWith_ite (h t) (endsWith_fail t he)

theorem withFile_endsWith {id : Byte} {body : State → Result} (hready : .notReady ∈ codes)
    (hrange : .range ∈ codes) (h : ∀ t, EndsWith codes counts (body t)) :
    EndsWith codes counts (withFile id s body) :=
  withStore_endsWith hready fun t => endsWith_ite (h t) (endsWith_fail t hrange)

/-! ### The OWM unit -/

/-- A run of write slots counts what it sent when a slot fails (R152, R153, R158). -/
theorem sendBits_endsWith (bits : List Bool) (okRes : Word) (unit : Nat) (he : .busBusy ∈ codes) :
    EndsWith codes true (sendBits bits okRes unit s) := by
  unfold sendBits
  split
  · exact endsWith_done _ _
  · exact endsWith_count _ _ he

/-- A reset finds a presence pulse, none, or the bus low for too long (R128). -/
theorem resetBody_code (tm : Timing) (l : OneWire) :
    (l.resetBody tm).1 ∈ [ErrCode.none, .noPresence, .busBusy] := by
  cases h : l.preamble tm with
  | busBusy m => simp [OneWire.resetBody, h]
  | ran tf m =>
    obtain ⟨-, hcode⟩ := resetBody_of_preamble tm l m tf h
    simpa using hcode

theorem resetBody_failure {tm : Timing} {l m : OneWire} {e : ErrCode}
    (h : l.resetBody tm = (e, m)) (hne : e ≠ .none) : e ∈ [.noPresence, .busBusy] := by
  have hcode := resetBody_code tm l
  rw [h] at hcode
  exact (List.mem_cons.mp hcode).resolve_left hne

theorem owReset_endsWith : EndsWith [.notReady, .busBusy, .noPresence] false (execOwReset s) := by
  refine withPin_endsWith (by decide) ?_
  split
  · exact endsWith_done _ _
  · next e l hne hrun =>
    have hsub : [ErrCode.noPresence, .busBusy] ⊆ [.notReady, .busBusy, .noPresence] := by decide
    exact endsWith_fail _ (hsub (resetBody_failure hrun hne))

theorem owWriteBit_endsWith {v : Byte} (hbad : ¬ OneBitOperand v → .illegal ∈ codes)
    (hcodes : OneBitOperand v → codes = [.notReady, .busBusy]) :
    EndsWith codes counts (execOwWriteBit v s) := by
  refine withBitOperand_endsWith hbad fun hv b => ?_
  rw [hcodes hv]
  refine withPin_endsWith (by decide) ?_
  split
  · exact endsWith_done _ _
  · exact endsWith_fail _ (by decide)

theorem owReadBit_endsWith : EndsWith [.notReady, .busBusy] false (execOwReadBit s) := by
  refine withPin_endsWith (by decide) ?_
  split
  · exact endsWith_done _ _
  · exact endsWith_fail _ (by decide)

theorem owRead_endsWith : EndsWith [.notReady, .busBusy] false (execOwRead s) := by
  refine withPin_endsWith (by decide) ?_
  split
  · exact endsWith_done _ _
  · exact endsWith_fail _ (by decide)

theorem owReadBytes_endsWith (n : Byte) :
    EndsWith [.notReady, .range, .busBusy] true (execOwReadBytes n s) := by
  refine withPin_endsWith (by decide) (withCount_endsWith (by decide) ?_)
  split
  · exact endsWith_done _ _
  · exact endsWith_count _ _ (by decide)

/-- The codes a search step can fail with, once it has a bound pin (R173). -/
def searchCodes : List ErrCode := [.busBusy, .noPresence, .searchNodev]

/-- A search run ends well or with one of these codes. -/
def SearchRun.FailsInCodes (r : SearchRun) : Prop := ∀ e l, r = .failed e l → e ∈ searchCodes

theorem failed_failsInCodes {e : ErrCode} (l : OneWire) (he : e ∈ searchCodes) :
    (SearchRun.failed e l).FailsInCodes := by
  rintro _ _ ⟨⟩
  exact he

/-- Each of the positions can find the bus low, and its two reads no device (R173). -/
theorem searchBits_failsInCodes (tm : Timing) (entry : Search) (count : Nat) :
    ∀ (n : Nat) (p : SearchPath) (l : OneWire), (l.searchBits tm entry count n p).FailsInCodes := by
  induction count with
  | zero => exact fun _ _ _ => nofun
  | succ count ih =>
    intro n p l
    rw [OneWire.searchBits]
    split
    · exact failed_failsInCodes _ (by decide)
    · split
      · exact failed_failsInCodes _ (by decide)
      · split
        · exact failed_failsInCodes _ (by decide)
        · dsimp only
          split
          · exact failed_failsInCodes _ (by decide)
          · exact ih _ _ _

/-- So can the reset and the command byte before them (R173). -/
theorem searchRun_failsInCodes (tm : Timing) (entry : Search) (alert : Bool) (l : OneWire) :
    (l.searchRun tm entry alert).FailsInCodes := by
  unfold OneWire.searchRun
  split
  · split
    · exact failed_failsInCodes _ (by decide)
    · exact searchBits_failsInCodes tm entry 64 1 _ _
  · next e l₁ hne hrun =>
    have hsub : [ErrCode.noPresence, .busBusy] ⊆ searchCodes := by decide
    exact failed_failsInCodes l₁ (hsub (resetBody_failure hrun hne))

theorem owSearch_endsWith {a : Byte} (hbad : ¬ OneBitOperand a → .illegal ∈ codes)
    (hcodes : OneBitOperand a → codes = .notReady :: .searchDone :: searchCodes) :
    EndsWith codes counts (execOwSearch a s) := by
  refine withBitOperand_endsWith hbad fun ha alert => ?_
  rw [hcodes ha]
  refine withPin_endsWith (by decide) (endsWith_ite (endsWith_fail s (by decide)) ?_)
  split
  · next e l hrun =>
    have he := searchRun_failsInCodes s.cfg.timing s.search alert s.line e l hrun
    exact endsWith_fail _ (.tail _ (.tail _ he))
  · exact endsWith_done _ _

/-! ### The FSC unit -/

theorem appendCommand_endsWith (id : Byte) (tomb : Bool) (payload : List Byte) (okRes : Nat → Word)
    (he : .full ∈ codes) : EndsWith codes counts (appendCommand id tomb payload okRes s) := by
  unfold appendCommand
  split
  · exact endsWith_fail s he
  · exact endsWith_done _ _
  · exact endsWith_fault _

theorem fsUpdateFile_endsWith (id : Byte) :
    EndsWith [.notReady, .range, .full] false (execFsUpdateFile id s) := by
  refine withFile_endsWith (by decide) (by decide) fun t => ?_
  dsimp only
  split
  · exact endsWith_ite (endsWith_done _ _) (appendCommand_endsWith _ _ _ _ (by decide))
  · exact appendCommand_endsWith _ _ _ _ (by decide)
  · exact appendCommand_endsWith _ _ _ _ (by decide)
  · exact endsWith_fault _

theorem fsReadFile_endsWith (id : Byte) :
    EndsWith [.notReady, .range, .notFound, .crc] false (execFsReadFile id s) := by
  refine withFile_endsWith (by decide) (by decide) fun t => ?_
  split
  · exact endsWith_fail _ (by decide)
  · exact endsWith_fail _ (by decide)
  · exact endsWith_done _ _
  · exact endsWith_fault _

theorem listOnce_endsWith (he : .listEnd ∈ codes) : EndsWith codes counts (listOnce s) := by
  unfold listOnce
  split
  · exact endsWith_done _ _
  · exact endsWith_fail _ he

end

/-! ### Every command -/

/-- The codes a command term can end with: those of R262, or `ILLEGAL` alone when R93 makes it illegal. -/
def endCodes (i : Instr) : List ErrCode := if i.WellFormed then i.failureCodes else [.illegal]

theorem endCodes_of_illegal {i : Instr} (h : ¬ i.WellFormed) : .illegal ∈ endCodes i := by
  simp [endCodes, h]

theorem endCodes_of_legal {i : Instr} (h : i.WellFormed) : endCodes i = i.failureCodes := if_pos h

/-- How every command ends (R95, R262). -/
theorem exec_endsWith (i : Instr) (s : State) :
    EndsWith (endCodes i) i.countsOnFailure (exec i s) := by
  cases i with
  | owBegin pin => exact endsWith_done _ _
  | owReset => exact owReset_endsWith
  | owWriteBit v =>
    exact owWriteBit_endsWith (fun hv => endCodes_of_illegal (mt of_decide_eq_true hv))
      fun hv => endCodes_of_legal (decide_eq_true hv)
  | owReadBit => exact owReadBit_endsWith
  | owWrite b => exact withPin_endsWith (.head _) (sendBits_endsWith _ _ _ (.tail _ (.head _)))
  | owWriteBytes n =>
    exact withPin_endsWith (.head _) (withCount_endsWith (.tail _ (.head _))
      (sendBits_endsWith _ _ _ (.tail _ (.tail _ (.head _)))))
  | owRead => exact owRead_endsWith
  | owReadBytes n => exact owReadBytes_endsWith n
  | owSelect => exact withPin_endsWith (.head _) (sendBits_endsWith _ _ _ (.tail _ (.head _)))
  | owSelectAll => exact withPin_endsWith (.head _) (sendBits_endsWith _ _ _ (.tail _ (.head _)))
  | owSearchBegin => exact endsWith_done _ _
  | owSearchBeginFam family => exact endsWith_done _ _
  | owSearch a =>
    exact owSearch_endsWith (fun ha => endCodes_of_illegal (mt of_decide_eq_true ha))
      fun ha => endCodes_of_legal (decide_eq_true ha)
  | crc8 n => exact withCount_endsWith (.head _) (endsWith_done _ _)
  | crc16 n => exact withCount_endsWith (.head _) (endsWith_done _ _)
  | checkCrc16 n => exact withCount_endsWith (.head _) (endsWith_done _ _)
  | fsBegin => exact withGeometry_endsWith fun _ => endsWith_done _ _
  | fsWriteFile id =>
    exact withFile_endsWith (.head _) (.tail _ (.head _)) fun _ =>
      appendCommand_endsWith _ _ _ _ (.tail _ (.tail _ (.head _)))
  | fsUpdateFile id => exact fsUpdateFile_endsWith id
  | fsEraseFile id =>
    exact withFile_endsWith (.head _) (.tail _ (.head _)) fun _ =>
      appendCommand_endsWith _ _ _ _ (.tail _ (.tail _ (.head _)))
  | fsReadFile id => exact fsReadFile_endsWith id
  | fsCrcerr => exact withStore_endsWith (.head _) fun _ => endsWith_done _ _
  | fsListFirst id =>
    exact withFile_endsWith (.head _) (.tail _ (.head _)) fun _ =>
      listOnce_endsWith (.tail _ (.tail _ (.head _)))
  | fsListNext =>
    exact withStore_endsWith (.head _) fun t =>
      endsWith_ite (listOnce_endsWith (.tail _ (.head _))) (endsWith_fail t (.tail _ (.head _)))

/-- No command fails with the code of success (R96). -/
theorem none_notMem_endCodes (i : Instr) : ErrCode.none ∉ endCodes i := by
  unfold endCodes
  split
  · cases i <;> simp [Instr.failureCodes]
  · simp

/-- Settles O17: every command goes on and keeps the shape, and reports its end by a code of its own, which
is not the code of success. -/
theorem everyCommandEndsOnce : Obligations.EveryCommandEndsOnce := by
  intro i s hs
  obtain ⟨t, ht⟩ := exec_goesOn i hs
  obtain ⟨hinv, -⟩ := exec_keeps hs ht
  refine ⟨t, ht, hinv.notBusy, hinv.wellShaped, ?_⟩
  refine (exec_endsWith i s t ht).imp_right fun ⟨hok, herr, hres⟩ => ⟨hok, fun hnone => ?_, hres⟩
  exact none_notMem_endCodes i (hnone ▸ herr)

end Sys2Proof.Machine
end

section
/-! PROOFS. Write slots on a line that is free at the start of each (R125, R129, R150): the pin events and
the end of the run are those of the waveform, and the write and select commands send their bits so. -/

namespace Sys2Proof.Machine

/-- The line released, at time `te`, after it has made `events`. -/
def OneWire.ranTo (te : Nat) (events : List PinEvent) (l : OneWire) : OneWire :=
  { l with pinState := .rel, time := te, trace := l.trace ++ events }

section
variable (tm : Timing) (l : OneWire)

/-! ### The pin before the first slot and after the last -/

@[simp] theorem release_release : l.release.release = l.release := by
  unfold OneWire.release
  split <;> simp [*]

/-- `T_LEAD`, the low-hold and the release of a slot from a released line (R121). -/
theorem pinAt_low_rel (fall rise te : Nat) (h : l.pinState = .rel) :
    { (l.pinAt .low fall).pinAt .rel rise with time := te } =
      l.ranTo te [{ time := fall, pin := l.pin, level := .low },
        { time := rise, pin := l.pin, level := .rel }] := by
  simp [OneWire.pinAt, OneWire.ranTo, h]

/-- A command on a pin at rest releases it first and puts it back last (R123 a, b). -/
theorem ranTo_finish (te : Nat) (events : List PinEvent) (h : l.Ready) :
    (l.release.ranTo te events).finish = l.after te events := by
  have hidle := h.idle
  cases hp : l.ppwr with
  | false =>
    have hrel : l.pinState = .rel := by simp [hidle, OneWire.idle, hp]
    simp [release_of_rel l hrel, OneWire.ranTo, OneWire.finish, OneWire.idle, OneWire.pinAt,
      OneWire.after, hp, ← hrel]
  | true =>
    have hhigh : l.pinState = .high := by simp [hidle, OneWire.idle, hp]
    simp [OneWire.release, hhigh, OneWire.ranTo, OneWire.finish, OneWire.idle, OneWire.pinAt,
      OneWire.after, hp]

end

/-! ### Runs of write slots -/

section
variable {tm : Timing} {l : OneWire}

/-- One write slot on a free line (R129). -/
theorem writeSlot_free (b : Bool) (hrel : l.release.pinState = .rel)
    (hfree : slaveLow l.slaves l.time = false) :
    l.writeSlot tm b = .ran () (l.release.ranTo (l.time + tm.writeSpan b)
      (slotEvents l.pin (l.time + tm.tLead) (tm.writeLow b))) := by
  rw [writeSlot_of_preamble tm b l _ _ (preamble_free tm l hrel hfree), pinAt_low_rel _ _ _ _ hrel]
  simp [slotEvents, Timing.writeSpan, Timing.writeLow, Timing.writeHigh, Nat.add_assoc]

/-- A run of write slots, each of them on a free line (R150). -/
theorem writeBits_free (bits : List Bool) : ∀ (sent : Nat) (l : OneWire), l.pinState = .rel →
    (∀ x ∈ tm.writeStarts l.time bits, slaveLow l.slaves x = false) →
    l.writeBits tm bits sent =
      .ran (l.ranTo (tm.writeEnd l.time bits) (tm.writeEvents l.pin l.time bits)) := by
  induction bits with
  | nil =>
    intro sent l hrel _
    simp [OneWire.writeBits, Timing.writeEnd, Timing.writeEvents, OneWire.ranTo, ← hrel]
  | cons b bs ih =>
    intro sent l hrel hfree
    obtain ⟨hnow, hlater⟩ := List.forall_mem_cons.mp hfree
    have hrelease := release_of_rel l hrel
    rw [OneWire.writeBits, writeSlot_free b (by rw [hrelease, hrel]) hnow, hrelease]
    dsimp only
    rw [ih _ _ rfl hlater]
    simp [OneWire.ranTo, Timing.writeEnd, Timing.writeEvents]

/-- The preamble of the first slot does the release itself (R125), so a run of slots is the same from the
released line. -/
theorem writeBits_release {bits : List Bool} (hbits : bits ≠ []) (sent : Nat) :
    l.writeBits tm bits sent = l.release.writeBits tm bits sent := by
  cases bits with
  | nil => exact absurd rfl hbits
  | cons b bs =>
    simp [OneWire.writeBits, OneWire.writeSlot, OneWire.preamble]

/-! ### The commands that send bits -/

variable {s : State}

/-- A command that sends bits, on a line that is free at the start of every slot (R150). -/
theorem sendBits_free {bits : List Bool} (okRes : Word) (unit : Nat) (hready : s.line.Ready)
    (hbits : bits ≠ [])
    (hfree : ∀ x ∈ s.cfg.timing.writeStarts s.line.time bits, slaveLow s.line.slaves x = false) :
    sendBits bits okRes unit s = .next (done okRes (s.withLine
      (s.line.after (s.cfg.timing.writeEnd s.line.time bits)
        (s.cfg.timing.writeEvents s.line.pin s.line.time bits)))) := by
  have hrun := writeBits_free (tm := s.cfg.timing) bits 0 s.line.release
    (release_pinState_of_idle s.line hready.idle) (by simpa using hfree)
  rw [← writeBits_release hbits, release_time, release_pin] at hrun
  rw [sendBits, hrun]
  dsimp only
  rw [ranTo_finish s.line _ _ hready]
  rfl

theorem withPin_of_bound {body : Result} (h : s.line.bound = true) : withPin s body = body := if_pos h

theorem withCount_of_le {need : Nat} {body : Result} (h : need ≤ s.cfg.owbufSize) :
    withCount need s body = body := if_pos h

end

theorem byteBits_ne_nil (b : Byte) : byteBits b ≠ [] := by simp [byteBits]

theorem wireBits_ne_nil {bytes : List Byte} (h : bytes ≠ []) : wireBits bytes ≠ [] := by
  obtain ⟨b, rest, rfl⟩ := List.exists_cons_of_ne_nil h
  exact List.append_ne_nil_of_left_ne_nil (byteBits_ne_nil b) _

/-- Settles O29: each of the commands sends a nonempty run of bits. -/
theorem writesOnFreeLine : Obligations.WritesOnFreeLine := by
  intro s hready
  have hbound := hready.bound
  refine ⟨fun b hfree => ?_, fun hfree => ?_, fun hfree => ?_, fun n hn hcount hfree => ?_⟩
  · exact (withPin_of_bound hbound).trans (sendBits_free 0 1 hready (byteBits_ne_nil b) hfree)
  · exact (withPin_of_bound hbound).trans (sendBits_free 0 1 hready (byteBits_ne_nil _) hfree)
  · exact (withPin_of_bound hbound).trans
      (sendBits_free 0 8 hready (wireBits_ne_nil (List.cons_ne_nil matchRom _)) hfree)
  · have hbytes : bufTake s.owbuf n.toNat ≠ [] := by
      rw [← List.length_pos_iff, bufTake_length]
      exact Nat.pos_of_ne_zero (BitVec.toNat_ne.mp hn)
    exact (withPin_of_bound hbound).trans ((withCount_of_le hcount).trans
      (sendBits_free (n.setWidth 32) 8 hready (wireBits_ne_nil hbytes) hfree))

end Sys2Proof.Machine
end

section
/-! PROOFS. The pin between the line commands (R123 c, R126, R127), and the bus-release wait at the start of
each slot (R124): which instant it answers, and when it fails. -/

namespace Sys2Proof.Machine

/-! ### The pin between the line commands -/

section
variable {l : OneWire}

/-- A change of the pin, as one record (R121). -/
theorem pinAt_of_ne {x : PinState} (t : Nat) (h : l.pinState ≠ x) :
    l.pinAt x t = { l with
      pinState := x, trace := l.trace ++ [{ time := t, pin := l.pin, level := x }] } := if_neg h

/-- A change of `PPWR` moves a bound pin from its old idle state to the new one (R123 c). -/
theorem writeCtrl_of_bound {v : Word} (hne : v.getLsbD 0 ≠ l.ppwr) (hbound : l.bound = true)
    (hidle : l.pinState = l.idle) :
    writeCtrl v l = { l with
      ppwr := v.getLsbD 0
      pinState := if v.getLsbD 0 then .high else .rel
      trace := l.trace ++ [{ time := l.time, pin := l.pin,
                             level := if v.getLsbD 0 then .high else .rel }] } := by
  have hmoves : l.pinState ≠ { l with ppwr := v.getLsbD 0 }.idle := by
    rw [hidle]
    unfold OneWire.idle
    cases hp : l.ppwr <;> simp_all
  rw [writeCtrl, if_pos ⟨hne.symm, hbound⟩]
  exact pinAt_of_ne _ hmoves

/-- Without a bound pin a write of `CTRL` sets the flag and nothing else (R123 c). -/
theorem writeCtrl_of_unbound (v : Word) (hbound : l.bound = false) :
    writeCtrl v l = { l with ppwr := v.getLsbD 0 } := by
  simp [writeCtrl, hbound]

/-- `OW_BEGIN` on the line, as one record (R127). -/
theorem begin_eq (a : Byte) (l : OneWire) :
    l.begin a = { l with
      bound := true, pin := a
      pinState := if l.ppwr then .high else .rel
      trace := l.trace ++
        (if l.bound = true ∧ l.pin ≠ a ∧ l.pinState ≠ .rel
          then [PinEvent.mk l.time l.pin .rel] else []) ++
        [PinEvent.mk l.time a .rel] ++
        (if l.ppwr then [PinEvent.mk l.time a .high] else []) } := by
  unfold OneWire.begin OneWire.finish
  by_cases hold : l.bound = true ∧ l.pin ≠ a
  · by_cases hrel : l.pinState = .rel <;> cases hp : l.ppwr <;>
      simp [hold, hrel, hp, OneWire.pinAt, OneWire.idle]
  · have hkept : ¬ (l.bound = true ∧ l.pin ≠ a ∧ l.pinState ≠ .rel) := by tauto
    cases hp : l.ppwr <;> simp [hold, hkept, hp, OneWire.pinAt, OneWire.idle]

end

/-- Settles O10: the two cases of a write of `CTRL`. -/
theorem powerFlagMovesIdlePin : Obligations.PowerFlagMovesIdlePin := by
  intro s v hbusy hne
  refine ⟨fun hbound hidle => ?_, fun hbound => ?_⟩
  · rw [handle, writeReg_ctrl v hbusy, writeCtrl_of_bound hne hbound hidle]
  · rw [handle, writeReg_ctrl v hbusy, writeCtrl_of_unbound v hbound]

/-- Settles O22: the word is the encoder's, and the effect is that on the line. -/
theorem beginBindsPin : Obligations.BeginBindsPin := by
  refine fun pin s => ⟨decodeEncodeLegalCommand (.owBegin pin) rfl, ?_⟩
  rw [exec, execOwBegin, begin_eq]

theorem withPin_of_unbound {s : State} {body : Result} (h : s.line.bound = false) :
    withPin s body = .next (fail .notReady 0 s) := by
  simp [withPin, h]

theorem withBitOperand_of_le {a : Byte} {s : State} {body : Bool → Result} (h : OneBitOperand a) :
    withBitOperand a s body = body (a.getLsbD 0) := if_pos h

/-- Settles O23: each line command checks the pin before anything but the operand's legality (R97). -/
theorem lineCommandsNeedPin : Obligations.LineCommandsNeedPin := by
  intro i s hline hlegal hbound
  cases i with
  | owReset => exact withPin_of_unbound hbound
  | owWriteBit v =>
    rw [exec, execOwWriteBit, withBitOperand_of_le (of_decide_eq_true hlegal)]
    exact withPin_of_unbound hbound
  | owReadBit => exact withPin_of_unbound hbound
  | owWrite b => exact withPin_of_unbound hbound
  | owWriteBytes n => exact withPin_of_unbound hbound
  | owRead => exact withPin_of_unbound hbound
  | owReadBytes n => exact withPin_of_unbound hbound
  | owSelect => exact withPin_of_unbound hbound
  | owSelectAll => exact withPin_of_unbound hbound
  | owSearch a =>
    rw [exec, execOwSearch, withBitOperand_of_le (of_decide_eq_true hlegal)]
    exact withPin_of_unbound hbound
  | _ => cases hline

/-! ### The bus-release wait -/

section
variable {tm : Timing} {l : OneWire} {t₀ : Nat}

/-- The wait answers the first instant at which no slave pulls the released line low (R124). -/
theorem waitRelease_eq_some (hrel : l.pinState = .rel) {tr : Nat} :
    l.waitRelease tm t₀ = some tr ↔
      t₀ ≤ tr ∧ tr ≤ t₀ + tm.tBusy ∧ slaveLow l.slaves tr = false ∧
        ∀ x, t₀ ≤ x → x < tr → slaveLow l.slaves x = true := by
  simp only [OneWire.waitRelease, firstAt_some, level_released l _ hrel, Bool.not_eq_true',
    ne_eq, Bool.not_eq_false, ← Nat.add_assoc, Nat.lt_succ_iff]

/-- The wait fails when a slave pulls the line low at every instant of it (R124). -/
theorem waitRelease_eq_none (hrel : l.pinState = .rel) :
    l.waitRelease tm t₀ = none ↔
      ∀ x, t₀ ≤ x → x ≤ t₀ + tm.tBusy → slaveLow l.slaves x = true := by
  simp only [OneWire.waitRelease, firstAt_none, level_released l _ hrel, Bool.not_eq_true',
    ne_eq, Bool.not_eq_false, ← Nat.add_assoc, Nat.lt_succ_iff]

end

/-- Settles O24: the two answers of the wait. -/
theorem releaseWaitSamples : Obligations.ReleaseWaitSamples := fun _ _ _ hrel =>
  ⟨fun _ => waitRelease_eq_some hrel, waitRelease_eq_none hrel⟩

end Sys2Proof.Machine
end

section
/-! PROOFS. One slot on a bus that is released at some instant of the wait, or at none (R125, R128 to R132,
R150): the preamble first, then the write slot, the read slot and the reset, then the commands. -/

namespace Sys2Proof.Machine

/-! ### The preamble -/

section
variable {tm : Timing} {l : OneWire} {tr : Nat}

/-- A bus that is free at the start is released there. -/
theorem releasedAt_of_free (h : slaveLow l.slaves l.time = false) : l.ReleasedAt tm l.time :=
  ⟨le_rfl, Nat.le_add_right _ _, h, fun _ h₁ h₂ => absurd h₂ (Nat.not_lt.mpr h₁)⟩

/-- The falling edge comes `T_LEAD` after the bus is released (R125). -/
theorem preamble_released (hrel : l.release.pinState = .rel) (h : l.ReleasedAt tm tr) :
    l.preamble tm = .ran (tr + tm.tLead) (l.release.pinAt .low (tr + tm.tLead)) := by
  have hwait : l.release.waitRelease tm l.time = some tr :=
    (waitRelease_eq_some hrel).mpr
      ⟨h.notBefore, h.inTime, by simpa using h.high, by simpa using h.lowBefore⟩
  rw [OneWire.preamble, hwait]

/-- On a line that stays low the preamble has only released the pin when it fails (R125). -/
theorem preamble_stuck (hrel : l.release.pinState = .rel)
    (h : ∀ x, l.time ≤ x → x ≤ l.time + tm.tBusy → slaveLow l.slaves x = true) :
    l.preamble tm = .busBusy (l.release.ranTo (l.time + tm.tBusy) []) := by
  have hwait : l.release.waitRelease tm l.time = none :=
    (waitRelease_eq_none hrel).mpr (by simpa using h)
  rw [OneWire.preamble, hwait]
  simp [OneWire.ranTo, ← hrel]

/-! ### The slots -/

/-- One write slot (R129, R131). -/
theorem writeSlot_released (b : Bool) (hrel : l.release.pinState = .rel) (h : l.ReleasedAt tm tr) :
    l.writeSlot tm b = .ran () (l.release.ranTo (tr + tm.writeSpan b)
      (slotEvents l.pin (tr + tm.tLead) (tm.writeLow b))) := by
  rw [writeSlot_of_preamble tm b l _ _ (preamble_released hrel h), pinAt_low_rel _ _ _ _ hrel]
  simp [slotEvents, Timing.writeSpan, Timing.writeLow, Timing.writeHigh, Nat.add_assoc]

/-- One read slot (R130, R131). -/
theorem readSlot_released (hrel : l.release.pinState = .rel) (h : l.ReleasedAt tm tr) :
    l.readSlot tm = .ran (!slaveLow l.slaves (tr + tm.tLead + tm.tRdl + tm.tRds))
      (l.release.ranTo (tr + tm.readSpan) (slotEvents l.pin (tr + tm.tLead) tm.tRdl)) := by
  rw [readSlot_of_preamble tm l _ _ (preamble_released hrel h), pinAt_low_rel _ _ _ _ hrel]
  simp [slotEvents, Timing.readSpan, Nat.add_assoc]

/-! ### The presence window of a reset (R128) -/

/-- The result of a reset whose release is at `tu`, with the sampling still to come (R128). -/
def OneWire.presenceCode (tm : Timing) (tu : Nat) (l : OneWire) : ErrCode :=
  match l.firstAt false (tu + 1) tm.tPdw with
  | none => .noPresence
  | some tp =>
    match l.firstAt true (tp + 1) (tu + tm.tRsth - tp) with
    | none => .busBusy
    | some _ => .none

/-- Sampling depends on the pin's state and the slaves only (R122). -/
theorem firstAt_congr {m : OneWire} (hpin : m.pinState = l.pinState) (hslaves : m.slaves = l.slaves)
    (want : Bool) (count : Nat) : ∀ t, m.firstAt want t count = l.firstAt want t count := by
  have hlevel (t : Nat) : m.level t = l.level t := by rw [OneWire.level, hpin, hslaves]; rfl
  induction count with
  | zero => exact fun _ => rfl
  | succ count ih => intro t; rw [OneWire.firstAt, OneWire.firstAt, hlevel, ih]

/-- A reset: its waveform does not depend on what is seen in the window, and its result on nothing else
(R128). -/
theorem resetBody_released (hrel : l.release.pinState = .rel) (h : l.ReleasedAt tm tr) :
    l.resetBody tm = (l.release.presenceCode tm (tr + tm.tLead + tm.tRstl),
      l.release.ranTo (tr + tm.tLead + tm.tRstl + tm.tRsth)
        (slotEvents l.pin (tr + tm.tLead) tm.tRstl)) := by
  have hpre := preamble_released hrel h
  have hline := (resetBody_of_preamble tm l _ _ hpre).1
  rw [pinAt_low_rel _ _ _ _ hrel, release_pin] at hline
  refine Prod.ext ?_ hline
  have hsamples := firstAt_congr (l := l.release)
    (m := (l.release.pinAt .low (tr + tm.tLead)).pinAt .rel (tr + tm.tLead + tm.tRstl))
    (by simp [hrel]) (by simp)
  simp only [OneWire.resetBody, hpre, hsamples, OneWire.presenceCode]
  cases l.release.firstAt false (tr + tm.tLead + tm.tRstl + 1) tm.tPdw with
  | none => rfl
  | some tp =>
    dsimp only
    cases l.release.firstAt true (tp + 1) (tr + tm.tLead + tm.tRstl + tm.tRsth - tp) <;> rfl

section
variable {tu tp : Nat} (hrel : l.pinState = .rel)
include hrel

/-- No slave low in the window. -/
theorem presenceCode_absent
    (h : ∀ x, tu < x → x ≤ tu + tm.tPdw → slaveLow l.slaves x = false) :
    l.presenceCode tm tu = .noPresence := by
  have hnone : l.firstAt false (tu + 1) tm.tPdw = none :=
    (firstAt_none ..).mpr fun x h₁ h₂ => by
      simp [level_released l x hrel, h x h₁ (by omega)]
  rw [OneWire.presenceCode, hnone]

/-- The first low sample of the window is the start of the presence pulse. -/
theorem firstAt_presence (hwin : tu < tp) (hwin' : tp ≤ tu + tm.tPdw)
    (hlow : slaveLow l.slaves tp = true)
    (hfirst : ∀ x, tu < x → x < tp → slaveLow l.slaves x = false) :
    l.firstAt false (tu + 1) tm.tPdw = some tp :=
  (firstAt_some ..).mpr ⟨hwin, by omega, by simp [level_released l tp hrel, hlow],
    fun x h₁ h₂ => by simp [level_released l x hrel, hfirst x h₁ h₂]⟩

/-- A presence pulse that does not end by the deadline. -/
theorem presenceCode_stuck (hwin : tu < tp) (hwin' : tp ≤ tu + tm.tPdw)
    (hlow : slaveLow l.slaves tp = true)
    (hfirst : ∀ x, tu < x → x < tp → slaveLow l.slaves x = false)
    (hstuck : ∀ x, tp < x → x ≤ tu + tm.tRsth → slaveLow l.slaves x = true) :
    l.presenceCode tm tu = .busBusy := by
  have hnone : l.firstAt true (tp + 1) (tu + tm.tRsth - tp) = none :=
    (firstAt_none ..).mpr fun x h₁ h₂ => by
      simp [level_released l x hrel, hstuck x h₁ (by omega)]
  rw [OneWire.presenceCode, firstAt_presence hrel hwin hwin' hlow hfirst]
  dsimp only
  rw [hnone]

/-- A low sample in the window and a high one after it, by the deadline: so there is a first low one, and
after that one the line is seen high. -/
theorem presenceCode_present {th : Nat} (hwin : tu < tp) (hwin' : tp ≤ tu + tm.tPdw)
    (hlow : slaveLow l.slaves tp = true) (hlater : tp < th) (hdeadline : th ≤ tu + tm.tRsth)
    (hhigh : slaveLow l.slaves th = false) : l.presenceCode tm tu = .none := by
  unfold OneWire.presenceCode
  cases hp : l.firstAt false (tu + 1) tm.tPdw with
  | none =>
    have habsent := (firstAt_none ..).mp hp tp hwin (by omega)
    simp [level_released l tp hrel, hlow] at habsent
  | some first =>
    obtain ⟨hafter, -, -, hbefore⟩ := (firstAt_some ..).mp hp
    have hfirst : first ≤ tp := by
      by_contra hgt
      have := hbefore tp hwin (by omega)
      simp [level_released l tp hrel, hlow] at this
    dsimp only
    cases hh : l.firstAt true (first + 1) (tu + tm.tRsth - first) with
    | none =>
      have hstays := (firstAt_none ..).mp hh th (by omega) (by omega)
      simp [level_released l th hrel, hhigh] at hstays
    | some _ => rfl

end

end

/-! ### The commands on a bus that is released -/

section
variable {s : State} {l : OneWire}

theorem oneBitOperand_cases {v : Byte} (h : OneBitOperand v) : v = 0 ∨ v = 1 := by
  have hv : v.toNat = 0 ∨ v.toNat = 1 := by omega
  exact hv.imp BitVec.eq_of_toNat_eq BitVec.eq_of_toNat_eq

/-- The bit a legal one-bit operand stands for (R93). -/
theorem getLsbD_zero_of_oneBit {v : Byte} (h : OneBitOperand v) : v.getLsbD 0 = decide (v = 1) := by
  obtain rfl | rfl := oneBitOperand_cases h <;> rfl

theorem owReset_succeeds (hbound : s.line.bound = true)
    (h : s.line.resetBody s.cfg.timing = (.none, l)) :
    exec .owReset s = .next (done 1 (s.withLine l.finish)) := by
  rw [exec, execOwReset, withPin_of_bound hbound, h]
  rfl

theorem owReset_fails {e : ErrCode} (he : e ≠ .none) (hbound : s.line.bound = true)
    (h : s.line.resetBody s.cfg.timing = (e, l)) :
    exec .owReset s = .next (fail e 0 (s.withLine l.finish)) := by
  rw [exec, execOwReset, withPin_of_bound hbound, h]
  cases e with
  | none => exact absurd rfl he
  | _ => rfl

/-- Settles O26: one write slot between the release of the pin and its return to idle. -/
theorem writeBitSlot : Obligations.WriteBitSlot := by
  intro v s tr hv hready hbus
  have hslot := writeSlot_released (v.getLsbD 0) (release_pinState_of_idle _ hready.idle) hbus
  rw [exec, execOwWriteBit, withBitOperand_of_le hv, withPin_of_bound hready.bound, hslot,
    getLsbD_zero_of_oneBit hv]
  dsimp only
  rw [ranTo_finish _ _ _ hready]
  rfl

/-- Settles O27: one read slot between the release of the pin and its return to idle. -/
theorem readBitSlot : Obligations.ReadBitSlot := by
  intro s tr hready hbus
  have hslot := readSlot_released (release_pinState_of_idle _ hready.idle) hbus
  rw [exec, execOwReadBit, withPin_of_bound hready.bound, hslot]
  dsimp only
  rw [ranTo_finish _ _ _ hready]
  cases slaveLow s.line.slaves
    (tr + s.cfg.timing.tLead + s.cfg.timing.tRdl + s.cfg.timing.tRds) <;> rfl

/-- Settles O28: the three results by what the window and the deadline show. -/
theorem resetDetectsPresence : Obligations.ResetDetectsPresence := by
  intro s tr hready hbus tm tu u low
  have hrel := release_pinState_of_idle _ hready.idle
  have hbody := resetBody_released hrel hbus
  have hfinish := ranTo_finish s.line (tu + tm.tRsth)
    (slotEvents s.line.pin (tr + tm.tLead) tm.tRstl) hready
  have hlow (x : Nat) : low x ↔ slaveLow s.line.release.slaves x = true := by simp [low]
  have hhigh (x : Nat) : ¬ low x ↔ slaveLow s.line.release.slaves x = false := by simp [low]
  have hfails {e : ErrCode} (he : e ≠ .none) (hcode : s.line.release.presenceCode tm tu = e) :
      exec .owReset s = .next (fail e 0 u) := by
    rw [owReset_fails he hready.bound (hbody.trans (Prod.ext hcode rfl)), hfinish]
  refine ⟨fun habsent => ?_, fun tp hwin hwin' hpulse hfirst => ⟨fun hstuck => ?_, ?_⟩⟩
  · exact hfails nofun
      (presenceCode_absent hrel fun x h₁ h₂ => (hhigh x).mp (habsent x h₁ h₂))
  · exact hfails nofun (presenceCode_stuck hrel hwin hwin' ((hlow tp).mp hpulse)
      (fun x h₁ h₂ => (hhigh x).mp (hfirst x h₁ h₂)) fun x h₁ h₂ => (hlow x).mp (hstuck x h₁ h₂))
  · intro th hlater hdeadline hended
    have hcode : s.line.release.presenceCode tm tu = .none :=
      presenceCode_present hrel hwin hwin' ((hlow tp).mp hpulse) hlater hdeadline
        ((hhigh th).mp hended)
    rw [owReset_succeeds hready.bound (hbody.trans (Prod.ext hcode rfl)), hfinish]

end

/-! ### The commands on a line that stays low (R132, R150) -/

section
variable {tm : Timing} {l l₁ : OneWire} (h : l.preamble tm = .busBusy l₁)
include h

theorem resetBody_of_busy : l.resetBody tm = (.busBusy, l₁) := by
  rw [OneWire.resetBody, h]

theorem writeBits_of_busy {bits : List Bool} (hbits : bits ≠ []) (sent : Nat) :
    l.writeBits tm bits sent = .stopped sent l₁ := by
  obtain ⟨b, bs, rfl⟩ := List.exists_cons_of_ne_nil hbits
  rw [OneWire.writeBits, writeSlot_of_busy tm b l l₁ h]

theorem readByte_of_busy : l.readByte tm = .busBusy l₁ := by
  rw [OneWire.readByte, OneWire.readBits, readSlot_of_busy tm l l₁ h]

theorem readBytes_of_busy {count : Nat} (hcount : count ≠ 0) (k : Nat) (buf : List Byte) :
    l.readBytes tm count k buf = .stopped k buf l₁ := by
  obtain ⟨n, rfl⟩ := Nat.exists_eq_succ_of_ne_zero hcount
  rw [OneWire.readBytes, readByte_of_busy h]

theorem searchRun_of_busy (entry : Search) (alert : Bool) :
    l.searchRun tm entry alert = .failed .busBusy l₁ := by
  rw [OneWire.searchRun, resetBody_of_busy h]

end

section
variable {s : State} {l₁ : OneWire} (h : s.line.preamble s.cfg.timing = .busBusy l₁)
include h

theorem sendBits_of_busy {bits : List Bool} (hbits : bits ≠ []) (okRes : Word) (unit : Nat) :
    sendBits bits okRes unit s = .next (fail .busBusy 0 (s.withLine l₁.finish)) := by
  rw [sendBits, writeBits_of_busy h hbits]
  dsimp only
  rw [Nat.zero_div]
  rfl

/-- Every line command that needs a slot ends where the first preamble fails (R150). -/
theorem exec_of_busy {i : Instr} (hline : i.kind = .line) (hlegal : i.WellFormed)
    (hbound : s.line.bound = true)
    (hcount : ∀ n, i = .owWriteBytes n ∨ i = .owReadBytes n → n ≠ 0 ∧ n.toNat ≤ s.cfg.owbufSize)
    (hsearch : ∀ a, i = .owSearch a → s.search.ldf = false) :
    exec i s = .next (fail .busBusy 0 (s.withLine l₁.finish)) := by
  cases i with
  | owReset => exact owReset_fails nofun hbound (resetBody_of_busy h)
  | owWriteBit v =>
    rw [exec, execOwWriteBit, withBitOperand_of_le (of_decide_eq_true hlegal),
      withPin_of_bound hbound, writeSlot_of_busy _ _ _ _ h]
    rfl
  | owReadBit =>
    rw [exec, execOwReadBit, withPin_of_bound hbound, readSlot_of_busy _ _ _ h]
    rfl
  | owWrite b =>
    exact (withPin_of_bound hbound).trans (sendBits_of_busy h (byteBits_ne_nil b) 0 1)
  | owWriteBytes n =>
    obtain ⟨hn, hle⟩ := hcount n (.inl rfl)
    have hbytes : bufTake s.owbuf n.toNat ≠ [] := by
      rw [← List.length_pos_iff, bufTake_length]
      exact Nat.pos_of_ne_zero (BitVec.toNat_ne.mp hn)
    rw [exec, execOwWriteBytes, withPin_of_bound hbound, withCount_of_le hle]
    exact sendBits_of_busy h (wireBits_ne_nil hbytes) _ _
  | owRead =>
    rw [exec, execOwRead, withPin_of_bound hbound, readByte_of_busy h]
    rfl
  | owReadBytes n =>
    obtain ⟨hn, hle⟩ := hcount n (.inr rfl)
    rw [exec, execOwReadBytes, withPin_of_bound hbound, withCount_of_le hle,
      readBytes_of_busy h (BitVec.toNat_ne.mp hn)]
    rfl
  | owSelect =>
    exact (withPin_of_bound hbound).trans
      (sendBits_of_busy h (wireBits_ne_nil (List.cons_ne_nil matchRom _)) 0 8)
  | owSelectAll =>
    exact (withPin_of_bound hbound).trans (sendBits_of_busy h (byteBits_ne_nil skipRom) 0 1)
  | owSearch a =>
    rw [exec, execOwSearch, withBitOperand_of_le (of_decide_eq_true hlegal),
      withPin_of_bound hbound, hsearch a rfl, searchRun_of_busy h]
    rfl
  | _ => cases hline

end

/-- Settles O25: the preamble of the first slot fails, and with it the command. -/
theorem stuckLineIsBusBusy : Obligations.StuckLineIsBusBusy := by
  intro i s hline hlegal hready hlow hcount hsearch
  have hpre := preamble_stuck (release_pinState_of_idle _ hready.idle) hlow
  rw [exec_of_busy hpre hline hlegal hready.bound hcount hsearch, ranTo_finish _ _ _ hready]

end Sys2Proof.Machine
end

section
/-! PROOFS. A search on a line that answers at every position (R173, R300): one position on the line, then
the 64 of them, what the working copies hold after each, and the command. -/

namespace Sys2Proof.Machine

/-! ### The waveform with the default timing (R7, R131) -/

theorem ranTo_ranTo (l : OneWire) (t₁ t₂ : Nat) (es₁ es₂ : List PinEvent) :
    (l.ranTo t₁ es₁).ranTo t₂ es₂ = l.ranTo t₂ (es₁ ++ es₂) := by
  simp [OneWire.ranTo]

/-- A write slot of R7's timing lasts 80 µs whatever its bit (R131). -/
theorem default_writeSpan (b : Bool) : ({} : Timing).writeSpan b = 80 := by cases b <;> rfl

theorem default_writeEnd (bits : List Bool) : ∀ t : Nat,
    ({} : Timing).writeEnd t bits = t + 80 * bits.length := by
  induction bits with
  | nil => exact fun _ => rfl
  | cons b bs ih =>
    intro t
    rw [Timing.writeEnd, ih, default_writeSpan, List.length_cons]
    omega

theorem default_writeStarts (bits : List Bool) : ∀ t : Nat, ∀ x ∈ ({} : Timing).writeStarts t bits,
    ∃ k < bits.length, x = t + 80 * k := by
  induction bits with
  | nil => exact fun _ _ hx => nomatch hx
  | cons b bs ih =>
    intro t x hx
    rw [Timing.writeStarts, default_writeSpan] at hx
    obtain rfl | hx := List.mem_cons.mp hx
    · exact ⟨0, by simp, rfl⟩
    · obtain ⟨k, hk, rfl⟩ := ih _ _ hx
      exact ⟨k + 1, by simpa using hk, by omega⟩

section
variable {l : OneWire} (hrel : l.pinState = .rel) (hfree : slaveLow l.slaves l.time = false)
include hrel hfree

/-- A read slot of R7's timing on a free line: 70 µs, sampled after 25 (R130, R131). -/
theorem default_readSlot :
    l.readSlot {} = .ran (!slaveLow l.slaves (l.time + 25))
      (l.ranTo (l.time + 70) (slotEvents l.pin (l.time + 10) 6)) := by
  have hl := release_of_rel l hrel
  have hslot := readSlot_released (tm := {}) (hl.symm ▸ hrel) (releasedAt_of_free hfree)
  rwa [hl] at hslot

/-- A write slot of R7's timing on a free line (R129, R131). -/
theorem default_writeSlot (b : Bool) :
    l.writeSlot {} b = .ran ()
      (l.ranTo (l.time + 80) (slotEvents l.pin (l.time + 10) (if b then 6 else 60))) := by
  have hl := release_of_rel l hrel
  have hslot := writeSlot_free (tm := {}) b (hl.symm ▸ hrel) hfree
  rwa [hl, default_writeSpan] at hslot

end

/-! ### One position -/

/-- A position that starts at `t` meets a free line at each of its three slots, and some device answers:
the bit and its complement are not both 1 (R173). -/
structure AnswersAt (slaves : List (Nat × Nat)) (t : Nat) : Prop where
  freeForBit : slaveLow slaves t = false
  freeForComplement : slaveLow slaves (t + 70) = false
  freeForDirection : slaveLow slaves (t + 140) = false
  answered : slaveLow slaves (t + 25) = true ∨ slaveLow slaves (t + 95) = true

/-- The pin events of a position that starts at `t` and takes direction `dir` (R173, R300). -/
def positionEvents (pin : Byte) (t : Nat) (dir : Bool) : List PinEvent :=
  slotEvents pin (t + 10) 6 ++ slotEvents pin (t + 80) 6 ++
    slotEvents pin (t + 150) (if dir then 6 else 60)

/-- A position on a line that answers takes 220 µs and goes on to the next (R173 step 3, R300). -/
theorem searchBits_of_answersAt {l : OneWire} {entry : Search} (hrel : l.pinState = .rel)
    (h : AnswersAt l.slaves l.time) {id cmp dir : Bool}
    (hid : (!slaveLow l.slaves (l.time + 25)) = id) (hcmp : (!slaveLow l.slaves (l.time + 95)) = cmp)
    (n : Nat) (hdir : searchDirection entry n id cmp = dir) (count : Nat) (p : SearchPath) :
    l.searchBits {} entry (count + 1) n p =
      (l.ranTo (l.time + 220) (positionEvents l.pin l.time dir)).searchBits {} entry count (n + 1)
        (p.record n id cmp dir) := by
  have hsome : ¬ (id = true ∧ cmp = true) := by
    rw [← hid, ← hcmp]
    obtain hlow | hlow := h.answered <;> simp [hlow]
  have hbit : l.readSlot {} = .ran id (l.ranTo (l.time + 70) (slotEvents l.pin (l.time + 10) 6)) :=
    hid ▸ default_readSlot hrel h.freeForBit
  have hcomplement : (l.ranTo (l.time + 70) (slotEvents l.pin (l.time + 10) 6)).readSlot {} =
      .ran cmp (l.ranTo (l.time + 140)
        (slotEvents l.pin (l.time + 10) 6 ++ slotEvents l.pin (l.time + 80) 6)) := by
    rw [default_readSlot rfl h.freeForComplement, ranTo_ranTo, ← hcmp]
    rfl
  have hdirection : (l.ranTo (l.time + 140)
        (slotEvents l.pin (l.time + 10) 6 ++ slotEvents l.pin (l.time + 80) 6)).writeSlot {} dir =
      .ran () (l.ranTo (l.time + 220) (positionEvents l.pin l.time dir)) := by
    rw [default_writeSlot rfl h.freeForDirection, ranTo_ranTo]
    rfl
  rw [OneWire.searchBits, hbit]
  dsimp only
  rw [hcomplement]
  dsimp only
  rw [if_neg hsome, hdir, hdirection]

/-! ### The working copies after each position -/

/-- What the working copies hold once positions 1 to `n` are done (R173 step 3). -/
structure SearchPath.Upto (entry : Search) (id cmp : Nat → Bool) (n : Nat) (p : SearchPath) : Prop where
  rom : ∀ m, 1 ≤ m → m ≤ n → romBit p.rom m = directionTaken entry id cmp m
  noneAfter : ∀ m, 1 ≤ m → m ≤ n → zeroTaken entry id cmp m = true → m ≤ p.lastZero
  lastZero : p.lastZero = 0 ∨
    (1 ≤ p.lastZero ∧ p.lastZero ≤ n ∧ zeroTaken entry id cmp p.lastZero = true)
  lfdKept : (∀ m, 1 ≤ m → m < 9 → m ≤ n → zeroTaken entry id cmp m = false) → p.lfd = entry.lfd
  lfdLast : ∀ m, 1 ≤ m → m < 9 → m ≤ n → zeroTaken entry id cmp m = true →
    (∀ k, m < k → k < 9 → k ≤ n → zeroTaken entry id cmp k = false) → p.lfd.toNat = m

/-- A ROM bit after one is set (R170). -/
theorem romBit_setRomBit (r : RomCode) {m n : Nat} (b : Bool) (hm : 1 ≤ m) (hn : 1 ≤ n) (hn' : n ≤ 64) :
    romBit (setRomBit r n b) m = if m = n then b else romBit r m := by
  have hmask : ((1 : RomCode) <<< (n - 1)).getLsbD (m - 1) = decide (m = n) := by
    change (1#64 <<< (n - 1)).getLsbD (m - 1) = decide (m = n)
    rw [← BitVec.twoPow_eq, BitVec.getLsbD_twoPow]
    simp only [← Bool.decide_and, decide_eq_decide]
    omega
  unfold romBit setRomBit
  cases b with
  | true =>
    rw [if_pos rfl, BitVec.getLsbD_or, hmask]
    by_cases hmn : m = n <;> simp [hmn]
  | false =>
    rw [if_neg Bool.false_ne_true, BitVec.getLsbD_and, BitVec.getLsbD_not, hmask]
    by_cases hmn : m = n
    · simp [hmn]
    · by_cases hlt : m - 1 < 64
      · simp [hmn, hlt]
      · simp [hmn, BitVec.getLsbD_of_ge r (m - 1) (Nat.le_of_not_lt hlt)]

section
variable {entry : Search} {id cmp : Nat → Bool} {n : Nat} {p : SearchPath}

theorem zeroTaken_eq_true :
    zeroTaken entry id cmp n = true ↔ id n = cmp n ∧ directionTaken entry id cmp n = false := by
  simp [zeroTaken]

theorem record_of_zeroTaken (h : zeroTaken entry id cmp n = true) :
    p.record n (id n) (cmp n) (directionTaken entry id cmp n) =
      { rom := setRomBit p.rom n (directionTaken entry id cmp n), lastZero := n
        lfd := if n < 9 then BitVec.ofNat 7 n else p.lfd } := if_pos (zeroTaken_eq_true.mp h)

theorem record_of_not_zeroTaken (h : zeroTaken entry id cmp n = false) :
    p.record n (id n) (cmp n) (directionTaken entry id cmp n) =
      { p with rom := setRomBit p.rom n (directionTaken entry id cmp n) } :=
  if_neg fun hz => Bool.false_ne_true (h.symm.trans (zeroTaken_eq_true.mpr hz))

theorem record_rom (id cmp dir : Bool) : (p.record n id cmp dir).rom = setRomBit p.rom n dir := by
  unfold SearchPath.record
  dsimp only
  split <;> rfl

/-- The working copies at the start of the positions (R173 step 1). -/
theorem SearchPath.upto_zero :
    SearchPath.Upto entry id cmp 0 { rom := entry.srom, lastZero := 0, lfd := entry.lfd } :=
  ⟨fun _ _ _ => by omega, fun _ _ _ => by omega, .inl rfl, fun _ => rfl, fun _ _ _ _ => by omega⟩

/-- One position more (R173 step 3). -/
theorem SearchPath.Upto.record (h : p.Upto entry id cmp n) (hn : n + 1 ≤ 64) :
    (p.record (n + 1) (id (n + 1)) (cmp (n + 1)) (directionTaken entry id cmp (n + 1))).Upto
      entry id cmp (n + 1) := by
  have hrom : ∀ m, 1 ≤ m → m ≤ n + 1 →
      romBit (setRomBit p.rom (n + 1) (directionTaken entry id cmp (n + 1))) m =
        directionTaken entry id cmp m := by
    intro m hm hle
    rw [romBit_setRomBit _ _ hm (by omega) hn]
    split
    · next he => rw [he]
    · exact h.rom m hm (by omega)
  cases hz : zeroTaken entry id cmp (n + 1) with
  | true =>
    rw [record_of_zeroTaken hz]
    refine ⟨hrom, fun m _ hle _ => hle, .inr ⟨by simp, le_rfl, hz⟩, fun hnone => ?_,
      fun m hm hm9 hle htaken hlast => ?_⟩
    · have h9 : ¬ n + 1 < 9 := fun h9 => by simp [hnone (n + 1) (by omega) h9 le_rfl] at hz
      rw [if_neg h9]
      exact h.lfdKept fun m hm hm9 hle => hnone m hm hm9 (by omega)
    · obtain hlt | rfl := Nat.lt_or_eq_of_le hle
      · have h9 : ¬ n + 1 < 9 := fun h9 => by simp [hlast (n + 1) hlt h9 le_rfl] at hz
        rw [if_neg h9]
        exact h.lfdLast m hm hm9 (by omega) htaken fun k hk hk9 hkn => hlast k hk hk9 (by omega)
      · rw [if_pos hm9, BitVec.toNat_ofNat]
        omega
  | false =>
    rw [record_of_not_zeroTaken hz]
    have hbefore {m : Nat} (hle : m ≤ n + 1) (htaken : zeroTaken entry id cmp m = true) : m ≤ n := by
      by_contra hgt
      obtain rfl : m = n + 1 := by omega
      simp [htaken] at hz
    refine ⟨hrom, fun m hm hle htaken => h.noneAfter m hm (hbefore hle htaken) htaken, ?_,
      fun hnone => h.lfdKept fun m hm hm9 hle => hnone m hm hm9 (by omega),
      fun m hm hm9 hle htaken hlast => h.lfdLast m hm hm9 (hbefore hle htaken) htaken
        fun k hk hk9 hkn => hlast k hk hk9 (by omega)⟩
    exact h.lastZero.imp_right fun ⟨hpos, hle, htaken⟩ =>
      ⟨hpos, Nat.le_succ_of_le hle, htaken⟩

end

/-! ### The 64 positions and the whole search -/

section
variable {slaves : List (Nat × Nat)} {t : Nat} {entry : Search} {id cmp : Nat → Bool}

/-- The positions from `n + 1` on, each answered, from working copies that hold what positions 1 to `n`
gave (R173 step 3). -/
theorem searchBits_answered (hanswers : ∀ k < 64, AnswersAt slaves (t + 220 * k))
    (hid : ∀ k, (!slaveLow slaves (t + 220 * k + 25)) = id (k + 1))
    (hcmp : ∀ k, (!slaveLow slaves (t + 220 * k + 95)) = cmp (k + 1)) (count : Nat) :
    ∀ (n : Nat) (p : SearchPath) (l : OneWire), n + count = 64 → p.Upto entry id cmp n →
      l.pinState = .rel → l.slaves = slaves → l.time = t + 220 * n →
      ∃ q : SearchPath, q.Upto entry id cmp 64 ∧
        l.searchBits {} entry count (n + 1) p =
          .found q (l.ranTo (t + 14080) ((List.range' n count).flatMap fun k =>
            positionEvents l.pin (t + 220 * k) (directionTaken entry id cmp (k + 1)))) := by
  induction count with
  | zero =>
    rintro n p l rfl hp hrel - htime
    exact ⟨p, hp, by simp [OneWire.searchBits, OneWire.ranTo, ← hrel, ← htime]⟩
  | succ count ih =>
    intro n p l hn hp hrel hslaves htime
    have hnow : AnswersAt l.slaves l.time := hslaves ▸ htime ▸ hanswers n (by omega)
    obtain ⟨q, hq, hrun⟩ := ih (n + 1) _
      (l.ranTo (l.time + 220) (positionEvents l.pin l.time (directionTaken entry id cmp (n + 1))))
      (by omega) (hp.record (by omega)) rfl hslaves (by simp [OneWire.ranTo, htime]; omega)
    refine ⟨q, hq, ?_⟩
    rw [searchBits_of_answersAt hrel hnow (hslaves ▸ htime ▸ hid n) (hslaves ▸ htime ▸ hcmp n) _ rfl]
    refine hrun.trans ?_
    rw [ranTo_ranTo, htime, List.range'_succ, List.flatMap_cons]
    rfl

/-- A line that answers a whole search from `t` on: free at the start of every slot, with a presence pulse
that ends in time, and an answer at every position (R128, R173). -/
structure AnswersSearch (slaves : List (Nat × Nat)) (t : Nat) : Prop where
  freeForReset : slaveLow slaves t = false
  presence : ∃ tp th, t + 490 < tp ∧ tp ≤ t + 560 ∧ slaveLow slaves tp = true ∧ tp < th ∧
    th ≤ t + 970 ∧ slaveLow slaves th = false
  freeForByte : ∀ k < 8, slaveLow slaves (t + 970 + 80 * k) = false
  positions : ∀ k < 64, AnswersAt slaves (t + 1610 + 220 * k)

/-- The pin events of a search from `t` on that takes direction `dir n` at position `n` (R173, R300). -/
def searchEvents (pin : Byte) (t : Nat) (alert : Bool) (dir : Nat → Bool) : List PinEvent :=
  slotEvents pin (t + 10) 480 ++
    ({} : Timing).writeEvents pin (t + 970) (byteBits (searchRom alert)) ++
    (List.range 64).flatMap fun k => positionEvents pin (t + 1610 + 220 * k) (dir (k + 1))

/-- A search whose reset and command byte go through comes to its positions (R173 steps 1 and 2). -/
theorem searchRun_of_reset {tm : Timing} {alert : Bool} {l l₁ l₂ : OneWire}
    (hreset : l.resetBody tm = (.none, l₁))
    (hbyte : l₁.writeBits tm (byteBits (searchRom alert)) 0 = .ran l₂) :
    l.searchRun tm entry alert =
      l₂.searchBits tm entry 64 1 { rom := entry.srom, lastZero := 0, lfd := entry.lfd } := by
  simp only [OneWire.searchRun, hreset, hbyte]

variable {l : OneWire} (h : AnswersSearch l.slaves l.time)
include h

/-- The reset of such a search sees the presence pulse and takes 970 µs (R128, R300). -/
theorem resetBody_answered (hrel : l.release.pinState = .rel) :
    l.resetBody {} =
      (.none, l.release.ranTo (l.time + 970) (slotEvents l.pin (l.time + 10) 480)) := by
  obtain ⟨tp, th, hwin, hwin', hlow, hlater, hdeadline, hhigh⟩ := h.presence
  have hcode : l.release.presenceCode {} (l.time + 490) = .none :=
    presenceCode_present hrel hwin hwin' (by simpa using hlow) hlater hdeadline (by simpa using hhigh)
  exact (resetBody_released hrel (releasedAt_of_free h.freeForReset)).trans (Prod.ext hcode rfl)

/-- The command byte of such a search, from the end of the reset, takes 640 µs (R131, R173 step 2). -/
theorem writeBits_answered (b : Byte) (es : List PinEvent) :
    (l.release.ranTo (l.time + 970) es).writeBits {} (byteBits b) 0 =
      .ran (l.release.ranTo (l.time + 1610)
        (es ++ ({} : Timing).writeEvents l.pin (l.time + 970) (byteBits b))) := by
  have hlength : (byteBits b).length = 8 := by simp [byteBits]
  have hfree : ∀ x ∈ ({} : Timing).writeStarts (l.time + 970) (byteBits b),
      slaveLow l.release.slaves x = false := by
    intro x hx
    obtain ⟨k, hk, rfl⟩ := default_writeStarts _ _ x hx
    simpa using h.freeForByte k (hlength ▸ hk)
  rw [writeBits_free _ _ _ rfl hfree, ranTo_ranTo, default_writeEnd, hlength]
  simp [OneWire.ranTo]

/-- The whole search (R173 steps 1 to 3, R300). -/
theorem searchRun_answered (hrel : l.release.pinState = .rel) (alert : Bool)
    (hid : ∀ k, (!slaveLow l.slaves (l.time + 1610 + 220 * k + 25)) = id (k + 1))
    (hcmp : ∀ k, (!slaveLow l.slaves (l.time + 1610 + 220 * k + 95)) = cmp (k + 1)) :
    ∃ q : SearchPath, q.Upto entry id cmp 64 ∧
      l.searchRun {} entry alert = .found q (l.release.ranTo (l.time + 15690)
        (searchEvents l.pin l.time alert (directionTaken entry id cmp))) := by
  obtain ⟨q, hq, hrun⟩ := searchBits_answered h.positions hid hcmp 64 0 _
    (l.release.ranTo (l.time + 1610) (slotEvents l.pin (l.time + 10) 480 ++
      ({} : Timing).writeEvents l.pin (l.time + 970) (byteBits (searchRom alert))))
    rfl SearchPath.upto_zero rfl (release_slaves l) (by simp [OneWire.ranTo])
  refine ⟨q, hq, ?_⟩
  rw [searchRun_of_reset (resetBody_answered h hrel) (writeBits_answered h _ _)]
  have hend : l.time + 1610 + 14080 = l.time + 15690 := by omega
  rw [ranTo_ranTo, hend] at hrun
  rw [hrun, searchEvents, List.range_eq_range']
  dsimp only [OneWire.ranTo]
  rw [release_pin]

end

/-! ### The command -/

/-- The command byte by the operand (R98, R173 step 2). -/
theorem searchRom_of_oneBit {a : Byte} (h : OneBitOperand a) :
    searchRom (a.getLsbD 0) = if a = 0 then 0xF0 else 0xEC := by
  obtain rfl | rfl := oneBitOperand_cases h <;> rfl

/-- A search whose transaction ends with working copies `q` commits them (R173 step 4). -/
theorem owSearch_of_found {a : Byte} {s : State} {q : SearchPath} {l : OneWire} (ha : OneBitOperand a)
    (hbound : s.line.bound = true) (hldf : s.search.ldf = false)
    (h : s.line.searchRun s.cfg.timing s.search (a.getLsbD 0) = .found q l) :
    exec (.owSearch a) s =
      .next (done 1 ({ s with addr := q.rom, search := q.commit }.withLine l.finish)) := by
  rw [exec, execOwSearch, withBitOperand_of_le ha, withPin_of_bound hbound, hldf, h]
  rfl

/-- Settles O39: the transaction of `searchRun_answered`, and what its working copies hold. -/
theorem searchOnFreeLine : Obligations.SearchOnFreeLine := by
  intro a s ha hready htiming hldf t0 low start id cmp hreset hpresence hbyte hslots hanswer events
  have hline : AnswersSearch s.line.slaves s.line.time := by
    refine ⟨hreset, hpresence, hbyte, fun k hk => ?_⟩
    obtain ⟨hbit, hcomplement, hdirection⟩ := hslots (k + 1) (by omega) (by omega)
    have hanswered := hanswer (k + 1) (by omega) (by omega)
    exact ⟨hbit, hcomplement, hdirection, by simpa [id, cmp, low, start] using hanswered⟩
  obtain ⟨q, hq, hrun⟩ := searchRun_answered (entry := s.search) (id := id) (cmp := cmp) hline
    (release_pinState_of_idle _ hready.idle) (a.getLsbD 0) (fun _ => rfl) (fun _ => rfl)
  have hevents : searchEvents s.line.pin s.line.time (a.getLsbD 0)
      (directionTaken s.search id cmp) = events := by
    rw [searchEvents, searchRom_of_oneBit ha, ← htiming]
    rfl
  have hexec := owSearch_of_found ha hready.bound hldf (htiming ▸ hrun)
  rw [ranTo_finish _ _ _ hready, hevents] at hexec
  have hld : q.commit.ld.toNat = q.lastZero := by
    have := hq.lastZero
    simp only [SearchPath.commit, BitVec.toNat_ofNat]
    omega
  refine ⟨q.rom, q.commit, hexec, rfl, hq.rom, ?_, ?_, ?_, ?_, ?_⟩
  · rw [hld]
    exact decide_eq_true_iff
  · rw [hld]
    exact hq.noneAfter
  · rw [hld]
    exact hq.lastZero
  · exact fun hnone => hq.lfdKept fun m hm hm9 _ => hnone m hm hm9
  · exact fun m hm hm9 htaken hlast => hq.lfdLast m hm hm9 (by omega) htaken
      fun k hk hk9 _ => hlast k hk hk9

end Sys2Proof.Machine
end

section
/-! PROOFS. The byte commands that fail or stop early (R150 to R153, R158, R159): a count out of range
or 0, and a run of write slots cut where the wait of one of them fails. -/

namespace Sys2Proof.Machine

/-! ### The count operand (R151) -/

section
variable {s : State}

theorem withCount_of_lt {need : Nat} {body : Result} (h : s.cfg.owbufSize < need) :
    withCount need s body = .next (fail .range 0 s) := if_neg (Nat.not_le.mpr h)

/-- A pin at rest is where a command that used no slot leaves it (R123 b). -/
theorem finish_of_ready {l : OneWire} (h : l.Ready) : l.finish = l := pinAt_same _ _ _ h.idle

/-- No bytes, no slots: the command ends where it began. -/
theorem owWriteBytes_zero (h : s.line.Ready) : exec (.owWriteBytes 0) s = .next (done 0 s) := by
  have hend : sendBits [] 0 8 s = .next (done 0 (s.withLine s.line.finish)) := rfl
  rw [finish_of_ready h] at hend
  exact (withPin_of_bound h.bound).trans ((withCount_of_le (Nat.zero_le _)).trans hend)

theorem owReadBytes_zero (h : s.line.Ready) : exec (.owReadBytes 0) s = .next (done 0 s) := by
  have hend : Host.Outcome.next (done 0 (s.withLine s.line.finish)) = (.next (done 0 s) : Result) := by
    rw [finish_of_ready h]
    rfl
  exact (withPin_of_bound h.bound).trans ((withCount_of_le (Nat.zero_le _)).trans hend)

end

/-- Settles O35: the check of the count comes before the first slot. -/
theorem byteCountRange : Obligations.ByteCountRange := fun _ _ hready =>
  ⟨fun hlt => ⟨(withPin_of_bound hready.bound).trans (withCount_of_lt hlt),
    (withPin_of_bound hready.bound).trans (withCount_of_lt hlt)⟩,
    owWriteBytes_zero hready, owReadBytes_zero hready⟩

/-- Settles O34: the word is one of R92's, and both commands send the bits of the same byte. -/
theorem selectAllIsWriteSkipRom : Obligations.SelectAllIsWriteSkipRom := by
  obtain ⟨-, -, -, -, -, hword, -⟩ := specWordsDecode
  exact ⟨hword, fun _ => rfl⟩

/-! ### A run of write slots that meets a stuck bus -/

/-- The slaves hold the line low for the whole of a wait that starts at `t` (R124). -/
def OneWire.StaysLowFrom (tm : Timing) (t : Nat) (l : OneWire) : Prop :=
  ∀ x, t ≤ x → x ≤ t + tm.tBusy → slaveLow l.slaves x = true

/-- The slots of `bits` before slot `k` start on a free line, and the wait of slot `k` fails (R150). -/
def OneWire.WriteCutAt (tm : Timing) (bits : List Bool) (k : Nat) (l : OneWire) : Prop :=
  k < bits.length ∧
  (∀ x ∈ tm.writeStarts l.time (bits.take k), slaveLow l.slaves x = false) ∧
  l.StaysLowFrom tm (tm.writeEnd l.time (bits.take k))

section
variable {tm : Timing} {l : OneWire}

/-- The wait fails after a run of slots: nothing happens on the pin for `T_BUSY` (R125). -/
theorem preamble_ranTo_stuck {te : Nat} (es : List PinEvent) (h : l.StaysLowFrom tm te) :
    (l.ranTo te es).preamble tm = .busBusy (l.ranTo (te + tm.tBusy) es) := by
  have hrelease : (l.ranTo te es).release = l.ranTo te es := release_of_rel _ rfl
  have hpre := preamble_stuck (tm := tm) (l := l.ranTo te es) (hrelease ▸ rfl) h
  rwa [hrelease, ranTo_ranTo, List.append_nil] at hpre

/-- A run of write slots goes on where its first part ended (R150). -/
theorem writeBits_append {xs : List Bool} (ys : List Bool) : ∀ {sent : Nat} {l m : OneWire},
    l.writeBits tm xs sent = .ran m →
      l.writeBits tm (xs ++ ys) sent = m.writeBits tm ys (sent + xs.length) := by
  induction xs with
  | nil =>
    rintro sent l _ ⟨⟩
    rfl
  | cons b bs ih =>
    intro sent l m hrun
    rw [List.cons_append, OneWire.writeBits]
    rw [OneWire.writeBits] at hrun
    cases hslot : l.writeSlot tm b with
    | busBusy l₁ =>
      rw [hslot] at hrun
      cases hrun
    | ran _ l₁ =>
      rw [hslot] at hrun
      rw [List.length_cons, Nat.add_comm bs.length, ← Nat.add_assoc]
      exact ih hrun

/-- The slots before the failing one are sent and counted (R150, R152). -/
theorem writeBits_cut {bits : List Bool} {k : Nat} (hrel : l.pinState = .rel)
    (h : l.WriteCutAt tm bits k) :
    l.writeBits tm bits 0 = .stopped k (l.ranTo (tm.writeEnd l.time (bits.take k) + tm.tBusy)
      (tm.writeEvents l.pin l.time (bits.take k))) := by
  obtain ⟨hk, hfree, hlow⟩ := h
  have hrest : bits.drop k ≠ [] := List.drop_eq_nil_iff.not.mpr (Nat.not_le.mpr hk)
  have hsent := writeBits_append (bits.drop k) (writeBits_free (bits.take k) 0 l hrel hfree)
  rw [List.take_append_drop, List.length_take_of_le hk.le, Nat.zero_add] at hsent
  rw [hsent, writeBits_of_busy (preamble_ranTo_stuck _ hlow) hrest]

end

section
variable {s : State}

/-- A command that sends bits and is cut at slot `k` (R150, R152, R153, R158). -/
theorem sendBits_cut {bits : List Bool} {k : Nat} (okRes : Word) (unit : Nat)
    (hready : s.line.Ready) (h : s.line.WriteCutAt s.cfg.timing bits k) :
    sendBits bits okRes unit s = .next (fail .busBusy (BitVec.ofNat 32 (k / unit)) (s.withLine
      (s.line.after (s.cfg.timing.writeEnd s.line.time (bits.take k) + s.cfg.timing.tBusy)
        (s.cfg.timing.writeEvents s.line.pin s.line.time (bits.take k))))) := by
  obtain ⟨hk, -⟩ := id h
  have hbits : bits ≠ [] := List.ne_nil_of_length_pos (Nat.zero_lt_of_lt hk)
  have hcut : s.line.release.WriteCutAt s.cfg.timing bits k := by
    simpa [OneWire.WriteCutAt, OneWire.StaysLowFrom] using h
  have hrun := writeBits_cut (release_pinState_of_idle _ hready.idle) hcut
  rw [← writeBits_release hbits, release_time, release_pin] at hrun
  rw [sendBits, hrun]
  dsimp only
  rw [ranTo_finish s.line _ _ hready]
  rfl

end

/-- Settles O30: each of the commands sends one run of bits, counted by bits or by bytes. -/
theorem writeFailureCounts : Obligations.WriteFailureCounts := by
  intro s hready
  have hpin {body : Result} : withPin s body = body := withPin_of_bound hready.bound
  refine ⟨fun b k h => ?_, fun k h => ?_, fun k h => ?_, fun n k hcount h => ?_⟩
  · have hsend := sendBits_cut 0 1 hready h
    rw [Nat.div_one] at hsend
    exact hpin.trans hsend
  · have hsend := sendBits_cut 0 1 hready h
    rw [Nat.div_one] at hsend
    exact hpin.trans hsend
  · exact hpin.trans (sendBits_cut 0 8 hready h)
  · exact hpin.trans ((withCount_of_le hcount).trans (sendBits_cut (n.setWidth 32) 8 hready h))

end Sys2Proof.Machine
end

section
/-! PROOFS. Runs of read slots (R130, R150, R154, R155): on a line that is free at the start of each slot
they assemble the samples bit by bit and byte by byte, and a wait that fails ends them with the bytes
read whole. -/

namespace Sys2Proof

/-! ### The waveform of a run cut in two -/

section
variable (tm : Timing)

theorem Timing.readEvents_add (pin : Byte) (a b : Nat) : ∀ t : Nat,
    tm.readEvents pin t (a + b) =
      tm.readEvents pin t a ++ tm.readEvents pin (t + a * tm.readSpan) b := by
  induction a with
  | zero => simp [Timing.readEvents]
  | succ a ih =>
    intro t
    have hstart : t + tm.readSpan + a * tm.readSpan = t + (a + 1) * tm.readSpan := by ring
    rw [Nat.succ_add, Timing.readEvents, Timing.readEvents, ih, hstart, List.append_assoc]

theorem Timing.sampledBit_add (slaves : List (Nat × Nat)) (t a b : Nat) :
    tm.sampledBit slaves (t + a * tm.readSpan) b = tm.sampledBit slaves t (a + b) := by
  simp [Timing.sampledBit, Nat.add_mul, Nat.add_assoc]

end

end Sys2Proof

namespace Sys2Proof.Machine

/-! ### The samples as bytes (R154, R155) -/

/-- The byte whose first `n` bits are those of `f`, assembled from bit 0 up. -/
def packBits (f : Nat → Bool) : Nat → Byte
  | 0 => 0
  | n + 1 => if f n then packBits f n ||| ((1 : Byte) <<< n) else packBits f n

/-- Adding bit `n` changes no other bit. -/
theorem packBits_succ_getLsbD (f : Nat → Bool) (n : Nat) {i : Nat} (hi : i < 8) :
    (packBits f (n + 1)).getLsbD i = ((packBits f n).getLsbD i || (decide (i = n) && f n)) := by
  have hone : ((1 : Byte) <<< n).getLsbD i = decide (i = n) := by
    rw [BitVec.getLsbD_shiftLeft, Bool.eq_iff_iff]
    simp only [BitVec.ofNat_eq_ofNat, BitVec.getLsbD_one, Bool.and_eq_true, Bool.not_eq_true',
      decide_eq_true_eq, decide_eq_false_iff_not]
    omega
  rw [packBits]
  cases f n with
  | false => rw [if_neg Bool.false_ne_true, Bool.and_false, Bool.or_false]
  | true => rw [if_pos rfl, BitVec.getLsbD_or, hone, Bool.and_true]

theorem packBits_getLsbD (f : Nat → Bool) (n : Nat) {i : Nat} (hi : i < 8) :
    (packBits f n).getLsbD i = (decide (i < n) && f i) := by
  induction n with
  | zero => simp [packBits]
  | succ n ih =>
    rw [packBits_succ_getLsbD f n hi, ih]
    rcases Nat.lt_trichotomy i n with hlt | rfl | hgt
    · simp [hlt, hlt.ne, Nat.lt_succ_of_lt hlt]
    · simp
    · simp [hgt.ne', Nat.not_lt.mpr hgt.le, Nat.not_lt.mpr (Nat.succ_le_of_lt hgt)]

/-- The byte that slots `8k` to `8k + 7` of a run from `t` on a free line read. -/
def sampledByte (tm : Timing) (slaves : List (Nat × Nat)) (t k : Nat) : Byte :=
  packBits (fun i => tm.sampledBit slaves t (8 * k + i)) 8

theorem sampledByte_getLsbD (tm : Timing) (slaves : List (Nat × Nat)) (t k : Nat) {i : Nat}
    (hi : i < 8) :
    (sampledByte tm slaves t k).getLsbD i = tm.sampledBit slaves t (8 * k + i) := by
  rw [sampledByte, packBits_getLsbD _ _ hi, decide_eq_true hi, Bool.true_and]

/-- A buffer with its first `n` bytes replaced by those of `f`. -/
def fillBytes (f : Nat → Byte) (buf : List Byte) : Nat → List Byte
  | 0 => buf
  | n + 1 => bufWrite (fillBytes f buf n) n (f n)

section
variable (f : Nat → Byte) (buf : List Byte)

@[simp] theorem fillBytes_length (n : Nat) : (fillBytes f buf n).length = buf.length := by
  induction n with
  | zero => rfl
  | succ n ih => exact List.length_set.trans ih

theorem bufRead_fillBytes_kept {n k : Nat} (hk : n ≤ k) :
    bufRead (fillBytes f buf n) k = bufRead buf k := by
  induction n with
  | zero => rfl
  | succ n ih =>
    exact (bufRead_bufWrite_other _ _ _ _ (Nat.ne_of_gt hk)).trans (ih (Nat.le_of_succ_le hk))

theorem bufRead_fillBytes_filled {n k : Nat} (hk : k < n) (hn : n ≤ buf.length) :
    bufRead (fillBytes f buf n) k = f k := by
  induction n with
  | zero => cases hk
  | succ n ih =>
    rcases Nat.lt_succ_iff_lt_or_eq.mp hk with hlt | rfl
    · exact (bufRead_bufWrite_other _ _ _ _ hlt.ne).trans (ih hlt (Nat.le_of_succ_le hn))
    · exact bufRead_bufWrite_same _ _ _ (by rwa [fillBytes_length])

end

/-! ### Read slots on a free line -/

/-- The line is free at the start of each of the next `count` read slots (R150). -/
def OneWire.FreeForReads (tm : Timing) (count : Nat) (l : OneWire) : Prop :=
  ∀ k < count, slaveLow l.slaves (l.time + k * tm.readSpan) = false

/-- The line after the next `count` read slots, each on a free line (R130, R150). -/
def OneWire.afterReads (tm : Timing) (count : Nat) (l : OneWire) : OneWire :=
  l.ranTo (l.time + count * tm.readSpan) (tm.readEvents l.pin l.time count)

/-- The line when the wait has failed that follows those slots (R124, R150). -/
def OneWire.afterCutReads (tm : Timing) (count : Nat) (l : OneWire) : OneWire :=
  l.ranTo (l.time + count * tm.readSpan + tm.tBusy) (tm.readEvents l.pin l.time count)

section
variable {tm : Timing} {l : OneWire}

theorem afterReads_zero (hrel : l.pinState = .rel) : l.afterReads tm 0 = l := by
  simp [OneWire.afterReads, OneWire.ranTo, Timing.readEvents, ← hrel]

theorem afterReads_add (a b : Nat) : (l.afterReads tm a).afterReads tm b = l.afterReads tm (a + b) := by
  simp [OneWire.afterReads, OneWire.ranTo, Timing.readEvents_add, Nat.add_mul, Nat.add_assoc]

theorem afterReads_afterCutReads (a b : Nat) :
    (l.afterReads tm a).afterCutReads tm b = l.afterCutReads tm (a + b) := by
  simp [OneWire.afterReads, OneWire.afterCutReads, OneWire.ranTo, Timing.readEvents_add, Nat.add_mul,
    Nat.add_assoc]

theorem OneWire.FreeForReads.mono {a b : Nat} (h : l.FreeForReads tm b) (hab : a ≤ b) :
    l.FreeForReads tm a := fun k hk => h k (hk.trans_le hab)

/-- A free run is free from the middle on. -/
theorem OneWire.FreeForReads.rest {a b : Nat} (h : l.FreeForReads tm (a + b)) :
    (l.afterReads tm a).FreeForReads tm b := by
  intro k hk
  have hslot := h (a + k) (Nat.add_lt_add_left hk a)
  rwa [Nat.add_mul, ← Nat.add_assoc] at hslot

/-- One read slot on a free line (R130). -/
theorem readSlot_free (hrel : l.pinState = .rel) (hfree : l.FreeForReads tm 1) :
    l.readSlot tm = .ran (tm.sampledBit l.slaves l.time 0) (l.afterReads tm 1) := by
  have hrelease := release_of_rel l hrel
  have hnow : slaveLow l.slaves l.time = false := by simpa using hfree 0 Nat.one_pos
  rw [readSlot_released (hrelease.symm ▸ hrel) (releasedAt_of_free hnow), hrelease]
  simp [OneWire.afterReads, Timing.sampledBit, Timing.readEvents]

/-! ### The bits of a byte (R154) -/

/-- A run of read slots goes on where its first part ended. -/
theorem readBits_add (a b : Nat) : ∀ {i : Nat} {v w : Byte} {l m : OneWire},
    l.readBits tm a i v = .ran w m → l.readBits tm (a + b) i v = m.readBits tm b (i + a) w := by
  induction a with
  | zero =>
    rintro i v _ l _ ⟨⟩
    rw [Nat.zero_add, Nat.add_zero]
  | succ a ih =>
    intro i v w l m hrun
    rw [Nat.succ_add, OneWire.readBits]
    rw [OneWire.readBits] at hrun
    cases hslot : l.readSlot tm with
    | busBusy l₁ =>
      rw [hslot] at hrun
      cases hrun
    | ran s l₁ =>
      rw [hslot] at hrun
      rw [Nat.add_comm a 1, ← Nat.add_assoc]
      exact ih hrun

/-- Each slot on a free line sets its bit to its sample (R154). -/
theorem readBits_free (hrel : l.pinState = .rel) : ∀ {count : Nat}, l.FreeForReads tm count →
    l.readBits tm count 0 0 =
      .ran (packBits (tm.sampledBit l.slaves l.time) count) (l.afterReads tm count)
  | 0, _ => by rw [afterReads_zero hrel]; rfl
  | count + 1, hfree => by
    have hlast : (l.afterReads tm count).readSlot tm =
        .ran (tm.sampledBit l.slaves l.time count) (l.afterReads tm (count + 1)) := by
      rw [readSlot_free rfl hfree.rest, afterReads_add]
      exact congrArg (Slot.ran · _) (tm.sampledBit_add l.slaves l.time count 0)
    rw [readBits_add count 1 (readBits_free hrel (hfree.mono (Nat.le_succ count))),
      OneWire.readBits, hlast, Nat.zero_add]
    rfl

/-- A run of read slots that is cut where the wait of slot `k` fails (R150, R154). -/
theorem readBits_cut {count k : Nat} (hrel : l.pinState = .rel) (hk : k < count)
    (hfree : l.FreeForReads tm k) (hlow : l.StaysLowFrom tm (l.time + k * tm.readSpan)) :
    l.readBits tm count 0 0 = .busBusy (l.afterCutReads tm k) := by
  obtain ⟨rest, rfl⟩ := Nat.exists_eq_add_of_lt hk
  rw [Nat.add_assoc, readBits_add k (rest + 1) (readBits_free hrel hfree), OneWire.readBits,
    OneWire.afterReads, readSlot_of_busy _ _ _ (preamble_ranTo_stuck _ hlow)]
  rfl

/-! ### Runs of bytes (R155) -/

/-- A run of byte reads goes on where its first part ended. -/
theorem readBytes_add (a b : Nat) : ∀ {k : Nat} {buf buf₁ : List Byte} {l m : OneWire},
    l.readBytes tm a k buf = .ran buf₁ m →
      l.readBytes tm (a + b) k buf = m.readBytes tm b (k + a) buf₁ := by
  induction a with
  | zero =>
    rintro k buf _ l _ ⟨⟩
    rw [Nat.zero_add, Nat.add_zero]
  | succ a ih =>
    intro k buf buf₁ l m hrun
    rw [Nat.succ_add, OneWire.readBytes]
    rw [OneWire.readBytes] at hrun
    cases hbyte : l.readByte tm with
    | busBusy l₁ =>
      rw [hbyte] at hrun
      cases hrun
    | ran v l₁ =>
      rw [hbyte] at hrun
      rw [Nat.add_comm a 1, ← Nat.add_assoc]
      exact ih hrun

/-- Byte `k` of a run on a free line. -/
theorem readByte_free {k : Nat} (hfree : l.FreeForReads tm (8 * k + 8)) :
    (l.afterReads tm (8 * k)).readByte tm =
      .ran (sampledByte tm l.slaves l.time k) (l.afterReads tm (8 * (k + 1))) := by
  have hsamples : tm.sampledBit l.slaves (l.time + 8 * k * tm.readSpan) =
      fun i => tm.sampledBit l.slaves l.time (8 * k + i) :=
    funext (tm.sampledBit_add l.slaves l.time (8 * k))
  rw [OneWire.readByte, readBits_free rfl hfree.rest, afterReads_add]
  exact congrArg (fun f => Slot.ran (packBits f 8) _) hsamples

/-- A run of byte reads on a free line fills the buffer with the samples (R155). -/
theorem readBytes_free (hrel : l.pinState = .rel) (buf : List Byte) : ∀ {count : Nat},
    l.FreeForReads tm (8 * count) →
      l.readBytes tm count 0 buf =
        .ran (fillBytes (sampledByte tm l.slaves l.time) buf count) (l.afterReads tm (8 * count))
  | 0, _ => by rw [Nat.mul_zero, afterReads_zero hrel]; rfl
  | count + 1, hfree => by
    rw [readBytes_add count 1 (readBytes_free hrel buf (hfree.mono (by omega))),
      OneWire.readBytes, readByte_free hfree, Nat.zero_add]
    rfl

/-- A run of byte reads that is cut where the wait of slot `k` fails keeps the bytes before (R155). -/
theorem readBytes_cut {count k : Nat} (buf : List Byte) (hrel : l.pinState = .rel)
    (hk : k < 8 * count) (hfree : l.FreeForReads tm k)
    (hlow : l.StaysLowFrom tm (l.time + k * tm.readSpan)) :
    l.readBytes tm count 0 buf =
      .stopped (k / 8) (fillBytes (sampledByte tm l.slaves l.time) buf (k / 8))
        (l.afterCutReads tm k) := by
  have hsplit : 8 * (k / 8) + k % 8 = k := Nat.div_add_mod k 8
  obtain ⟨rest, hrest⟩ := Nat.exists_eq_add_of_lt (Nat.div_lt_of_lt_mul hk)
  have hwhole := readBytes_free hrel buf (count := k / 8) (hfree.mono (Nat.mul_div_le k 8))
  have hcut : (l.afterReads tm (8 * (k / 8))).readByte tm = .busBusy (l.afterCutReads tm k) := by
    have hstart : (l.afterReads tm (8 * (k / 8))).time + k % 8 * tm.readSpan =
        l.time + k * tm.readSpan := by
      rw [← congrArg (· * tm.readSpan) hsplit, Nat.add_mul, ← Nat.add_assoc]
      rfl
    rw [← hsplit] at hfree
    rw [OneWire.readByte, readBits_cut rfl (Nat.mod_lt k (by decide)) hfree.rest
      (hstart.symm ▸ hlow), afterReads_afterCutReads, hsplit]
  rw [hrest, Nat.add_assoc, readBytes_add (k / 8) (rest + 1) hwhole, OneWire.readBytes, hcut,
    Nat.zero_add]

/-- A run of byte reads that stops has counted bytes of its own range and written no others (R155). -/
theorem readBytes_stopped (count : Nat) : ∀ {k got : Nat} {buf buf₁ : List Byte} {l m : OneWire},
    l.readBytes tm count k buf = .stopped got buf₁ m →
      k ≤ got ∧ got < k + count ∧ ∀ j, got ≤ j → bufRead buf₁ j = bufRead buf j := by
  induction count with
  | zero => nofun
  | succ count ih =>
    intro k got buf buf₁ l m hrun
    rw [OneWire.readBytes] at hrun
    cases hbyte : l.readByte tm with
    | busBusy l₁ =>
      rw [hbyte] at hrun
      cases hrun
      exact ⟨le_rfl, Nat.lt_add_of_pos_right (Nat.succ_pos count), fun _ _ => rfl⟩
    | ran v l₁ =>
      rw [hbyte] at hrun
      obtain ⟨hge, hlt, hkept⟩ := ih hrun
      refine ⟨Nat.le_of_succ_le hge, by omega, fun j hj => ?_⟩
      exact (hkept j hj).trans (bufRead_bufWrite_other buf k j v (Nat.ne_of_gt (hge.trans hj)))

/-! ### The first slot releases the pin (R123 a, R125) -/

theorem readBits_release {count : Nat} (hcount : count ≠ 0) (i : Nat) (v : Byte) :
    l.readBits tm count i v = l.release.readBits tm count i v := by
  obtain ⟨n, rfl⟩ := Nat.exists_eq_succ_of_ne_zero hcount
  simp [OneWire.readBits, OneWire.readSlot, OneWire.preamble]

theorem readByte_release : l.readByte tm = l.release.readByte tm :=
  readBits_release (by decide) 0 0

theorem readBytes_release {count : Nat} (hcount : count ≠ 0) (k : Nat) (buf : List Byte) :
    l.readBytes tm count k buf = l.release.readBytes tm count k buf := by
  obtain ⟨n, rfl⟩ := Nat.exists_eq_succ_of_ne_zero hcount
  rw [OneWire.readBytes, OneWire.readBytes, readByte_release]

theorem freeForReads_release {count : Nat} (h : l.FreeForReads tm count) :
    l.release.FreeForReads tm count := by simpa [OneWire.FreeForReads] using h

theorem staysLowFrom_release {t : Nat} (h : l.StaysLowFrom tm t) : l.release.StaysLowFrom tm t := by
  simpa [OneWire.StaysLowFrom] using h

section
variable (h : l.Ready)
include h

theorem afterReads_finish (count : Nat) :
    (l.release.afterReads tm count).finish =
      l.after (l.time + count * tm.readSpan) (tm.readEvents l.pin l.time count) := by
  rw [OneWire.afterReads, ranTo_finish l _ _ h, release_time, release_pin]

theorem afterCutReads_finish (count : Nat) :
    (l.release.afterCutReads tm count).finish =
      l.after (l.time + count * tm.readSpan + tm.tBusy) (tm.readEvents l.pin l.time count) := by
  rw [OneWire.afterCutReads, ranTo_finish l _ _ h, release_time, release_pin]

theorem readByte_free_of_ready (hfree : l.FreeForReads tm 8) :
    l.readByte tm = .ran (packBits (tm.sampledBit l.slaves l.time) 8) (l.release.afterReads tm 8) := by
  rw [readByte_release, OneWire.readByte, readBits_free (release_pinState_of_idle l h.idle)
    (freeForReads_release hfree), release_slaves, release_time]

theorem readByte_cut_of_ready {k : Nat} (hk : k < 8) (hfree : l.FreeForReads tm k)
    (hlow : l.StaysLowFrom tm (l.time + k * tm.readSpan)) :
    l.readByte tm = .busBusy (l.release.afterCutReads tm k) := by
  rw [readByte_release, OneWire.readByte]
  exact readBits_cut (release_pinState_of_idle l h.idle) hk (freeForReads_release hfree)
    (by simpa using staysLowFrom_release hlow)

theorem readBytes_free_of_ready {count : Nat} (hcount : count ≠ 0) (buf : List Byte)
    (hfree : l.FreeForReads tm (8 * count)) :
    l.readBytes tm count 0 buf = .ran (fillBytes (sampledByte tm l.slaves l.time) buf count)
      (l.release.afterReads tm (8 * count)) := by
  rw [readBytes_release hcount, readBytes_free (release_pinState_of_idle l h.idle) buf
    (freeForReads_release hfree), release_slaves, release_time]

theorem readBytes_cut_of_ready {count k : Nat} (hk : k < 8 * count) (buf : List Byte)
    (hfree : l.FreeForReads tm k) (hlow : l.StaysLowFrom tm (l.time + k * tm.readSpan)) :
    l.readBytes tm count 0 buf =
      .stopped (k / 8) (fillBytes (sampledByte tm l.slaves l.time) buf (k / 8))
        (l.release.afterCutReads tm k) := by
  have hcount : count ≠ 0 := by omega
  rw [readBytes_release hcount, readBytes_cut buf (release_pinState_of_idle l h.idle) hk
    (freeForReads_release hfree) (by simpa using staysLowFrom_release hlow), release_slaves,
    release_time]

end

end

/-! ### The commands that read bytes -/

section
variable {s : State}

theorem owRead_of_ran {v : Byte} {l : OneWire} (hbound : s.line.bound = true)
    (h : s.line.readByte s.cfg.timing = .ran v l) :
    exec .owRead s = .next (done (v.setWidth 32) (s.withLine l.finish)) := by
  rw [exec, execOwRead, withPin_of_bound hbound, h]
  rfl

theorem owRead_of_busy {l : OneWire} (hbound : s.line.bound = true)
    (h : s.line.readByte s.cfg.timing = .busBusy l) :
    exec .owRead s = .next (fail .busBusy 0 (s.withLine l.finish)) := by
  rw [exec, execOwRead, withPin_of_bound hbound, h]
  rfl

section
variable {n : Byte} {buf : List Byte} {l : OneWire} (hbound : s.line.bound = true)
  (hcount : n.toNat ≤ s.cfg.owbufSize)
include hbound hcount

theorem owReadBytes_of_ran (h : s.line.readBytes s.cfg.timing n.toNat 0 s.owbuf = .ran buf l) :
    exec (.owReadBytes n) s =
      .next (done (n.setWidth 32) ({ s with owbuf := buf }.withLine l.finish)) := by
  rw [exec, execOwReadBytes, withPin_of_bound hbound, withCount_of_le hcount, h]
  rfl

theorem owReadBytes_of_stopped {got : Nat}
    (h : s.line.readBytes s.cfg.timing n.toNat 0 s.owbuf = .stopped got buf l) :
    exec (.owReadBytes n) s =
      .next (fail .busBusy (BitVec.ofNat 32 got) ({ s with owbuf := buf }.withLine l.finish)) := by
  rw [exec, execOwReadBytes, withPin_of_bound hbound, withCount_of_le hcount, h]
  rfl

end

/-- A failure with `BUS_BUSY` is a run of byte reads that stopped (R155). -/
theorem owReadBytes_busBusy {n : Byte} {t : State} (h : exec (.owReadBytes n) s = .next t)
    (herr : t.err = .busBusy) : ∃ got buf l,
      s.line.readBytes s.cfg.timing n.toNat 0 s.owbuf = .stopped got buf l ∧
      t = fail .busBusy (BitVec.ofNat 32 got) ({ s with owbuf := buf }.withLine l.finish) := by
  rw [exec, execOwReadBytes, withPin_next, withCount_next] at h
  obtain ⟨hbound, ⟨hcount, hbody⟩ | ⟨-, rfl⟩⟩ | ⟨-, rfl⟩ := h
  · cases hrun : s.line.readBytes s.cfg.timing n.toNat 0 s.owbuf with
    | ran buf l =>
      rw [hrun] at hbody
      cases hbody
      cases herr
    | stopped got buf l =>
      rw [hrun] at hbody
      cases hbody
      exact ⟨got, buf, l, rfl, rfl⟩
  · cases herr
  · cases herr

/-- On every `BUS_BUSY` fewer than `n` bytes are counted, and the others are kept (R155). -/
theorem owReadBytes_busBusy_keeps {n : Byte} {t : State} (h : exec (.owReadBytes n) s = .next t)
    (herr : t.err = .busBusy) :
    t.ok = false ∧ t.res.toNat < n.toNat ∧ t.owbuf.length = s.owbuf.length ∧
      ∀ k, t.res.toNat ≤ k → bufRead t.owbuf k = bufRead s.owbuf k := by
  obtain ⟨got, buf, l, hrun, rfl⟩ := owReadBytes_busBusy h herr
  obtain ⟨-, hlt, hkept⟩ := readBytes_stopped n.toNat hrun
  obtain ⟨-, hlen⟩ := readBytes_advances s.cfg.timing n.toNat 0 s.owbuf s.line
  rw [hrun] at hlen
  rw [Nat.zero_add] at hlt
  have hres : (BitVec.ofNat 32 got).toNat = got := by
    have hn := n.isLt
    rw [BitVec.toNat_ofNat]
    omega
  rw [fail_res, hres]
  exact ⟨rfl, hlt, hlen, hkept⟩

end

/-- The samples of the bytes read stand in the buffer bit by bit (R155). -/
theorem fillBytes_sampledByte_getLsbD (tm : Timing) (slaves : List (Nat × Nat)) (t : Nat)
    {buf : List Byte} {n k i : Nat} (hn : n ≤ buf.length) (hk : k < n) (hi : i < 8) :
    (bufRead (fillBytes (sampledByte tm slaves t) buf n) k).getLsbD i =
      tm.sampledBit slaves t (8 * k + i) := by
  rw [bufRead_fillBytes_filled _ _ hk hn, sampledByte_getLsbD _ _ _ _ hi]

/-- Settles O31: the byte is the 8 samples packed. -/
theorem readByteOnFreeLine : Obligations.ReadByteOnFreeLine := by
  intro s hready hfree
  have hexec := owRead_of_ran hready.bound (readByte_free_of_ready hready hfree)
  rw [afterReads_finish hready] at hexec
  refine ⟨_, hexec, fun k hk => ?_⟩
  rw [packBits_getLsbD _ _ hk, decide_eq_true hk, Bool.true_and]

/-- Settles O32: the buffer is filled with the bytes sampled. -/
theorem readBytesOnFreeLine : Obligations.ReadBytesOnFreeLine := by
  intro n s hready hn hcount hlen hfree
  have hexec := owReadBytes_of_ran hready.bound hcount
    (readBytes_free_of_ready hready (BitVec.toNat_ne.mp hn) s.owbuf hfree)
  rw [afterReads_finish hready] at hexec
  exact ⟨_, hexec, fillBytes_length _ _ _,
    fun k hk i hi => fillBytes_sampledByte_getLsbD _ _ _ (hcount.trans hlen.ge) hk hi,
    fun k hk => bufRead_fillBytes_kept _ _ hk⟩

/-- Settles O33: a stopped run writes only the bytes it counts; one cut at slot `k` has read `k / 8`. -/
theorem failedReadsCountWholeBytes : Obligations.FailedReadsCountWholeBytes := by
  refine ⟨fun n s t => owReadBytes_busBusy_keeps,
    fun s k hready hfree hlow => ⟨fun hk => ?_, fun n hcount hlen hk => ?_⟩⟩
  · rw [owRead_of_busy hready.bound (readByte_cut_of_ready hready hk hfree hlow),
      afterCutReads_finish hready]
  · have hexec := owReadBytes_of_stopped hready.bound hcount
      (readBytes_cut_of_ready hready hk s.owbuf hfree hlow)
    rw [afterCutReads_finish hready] at hexec
    have hwhole : k / 8 ≤ s.owbuf.length := by omega
    exact ⟨_, hexec, fillBytes_length _ _ _,
      fun j hj i hi => fillBytes_sampledByte_getLsbD _ _ _ hwhole hj hi,
      fun j hj => bufRead_fillBytes_kept _ _ hj⟩

end Sys2Proof.Machine
end

section
/-! PROOFS. The commands of the ROM search at their edges (R171 to R173): the two search states they create,
and what a search commits when it ends, whatever the line does. -/

namespace Sys2Proof.Machine

/-! ### The search states created (R171, R172) -/

/-- Settles O36: the word is the command's encoding (R92), and R171's assignments are its whole effect. -/
theorem searchBeginClears : Obligations.SearchBeginClears :=
  ⟨decodeEncodeLegalCommand .owSearchBegin rfl, fun _ => rfl⟩

/-- A byte widened to a ROM code is the family byte of a code whose other bytes are 0 (R99, R172). -/
theorem romByte_setWidth (family : Byte) (k : Nat) :
    romByte (family.setWidth 64) k = if k = 0 then family else 0 := by
  refine BitVec.eq_of_getLsbD_eq fun i hi => ?_
  rw [romByte, BitVec.getLsbD_extractLsb', BitVec.getLsbD_setWidth]
  split
  · next hk =>
    subst hk
    simp [hi, show i < 64 by omega]
  · next hk =>
    have hbeyond : family.getLsbD (8 * k + i) = false := BitVec.getLsbD_of_ge _ _ (by omega)
    simp [hbeyond]

/-- Settles O37: the seed byte by byte. -/
theorem searchBeginFamilySeeds : Obligations.SearchBeginFamilySeeds := fun family _ =>
  ⟨_, rfl, romByte_setWidth family 0,
    fun k hk _ => (romByte_setWidth family k).trans (if_neg (Nat.pos_iff_ne_zero.mp hk)), rfl, rfl, rfl⟩

/-! ### What a search commits (R173) -/

section
variable {a : Byte} {s t : State}

/-- An exhausted search state turns the command away before its reset (R173). -/
theorem owSearch_of_exhausted (ha : OneBitOperand a) (hbound : s.line.bound = true)
    (hldf : s.search.ldf = true) : exec (.owSearch a) s = .next (fail .searchDone 0 s) := by
  rw [exec, execOwSearch, withBitOperand_of_le ha, withPin_of_bound hbound, if_pos hldf]

/-- The two ends of a search. It fails, turned away or on the line, with nothing changed but the line; or
it started from a state not exhausted and commits the working copies of its transaction (R93, R126, R173). -/
theorem owSearch_ends (h : exec (.owSearch a) s = .next t) :
    (∃ e l, t = fail e 0 (s.withLine l)) ∨
      (s.search.ldf = false ∧
        ∃ (p : SearchPath) (l : OneWire),
          t = done 1 ({ s with addr := p.rom, search := p.commit }.withLine l)) := by
  rw [exec, execOwSearch, withBitOperand_next, withPin_next] at h
  obtain ⟨-, ⟨-, hbody⟩ | ⟨-, hunbound⟩⟩ | ⟨-, hillegal⟩ := h
  · split at hbody
    · cases hbody
      exact .inl ⟨_, s.line, rfl⟩
    · next hldf =>
      split at hbody
      · cases hbody
        exact .inl ⟨_, _, rfl⟩
      · next p l _ =>
        cases hbody
        exact .inr ⟨eq_false_of_ne_true hldf, p, l.finish, rfl⟩
  · exact .inl ⟨_, s.line, hunbound⟩
  · exact .inl ⟨_, s.line, hillegal⟩

end

/-- Settles O38: the two ends of a search, read off `owSearch_ends`. -/
theorem searchCommitsOnSuccessOnly : Obligations.SearchCommitsOnSuccessOnly := by
  refine fun a s => ⟨owSearch_of_exhausted, fun t h => ?_⟩
  obtain ⟨e, l, rfl⟩ | ⟨hldf, p, l, rfl⟩ := owSearch_ends h
  · exact ⟨fun _ => ⟨rfl, rfl⟩, nofun⟩
  · exact ⟨nofun, fun _ => ⟨rfl, rfl, hldf⟩⟩

end Sys2Proof.Machine
end

section
/-! PROOFS. The CRC unit: the two functions as serial registers fed one bit at a time (R190, R192), what such
a register holds after its own content (R196), and the three commands (R191, R193, R194). -/

namespace Sys2Proof.Machine

/-! ### The serial register on words -/

/-- The low bits of a word, bit 0 first. -/
def lowBits {w : Nat} (c : BitVec w) (k : Nat) : List Bool := (List.range k).map c.getLsbD

/-- One shift of a reflected CRC register while bit `b` arrives (R190, R192). -/
def serialStep {w : Nat} (poly c : BitVec w) (b : Bool) : BitVec w :=
  (c >>> 1) ^^^ if c.getLsbD 0 ^^ b then poly else 0

/-- The register after the bits arrived, first one first. -/
def shiftIn {w : Nat} (poly c : BitVec w) (bits : List Bool) : BitVec w :=
  bits.foldl (serialStep poly) c

section
variable {w : Nat} (poly c d : BitVec w)

theorem lowBits_add (j k : Nat) :
    lowBits c (j + k) = lowBits c j ++ (List.range k).map fun i => c.getLsbD (j + i) := by
  rw [lowBits, List.range_add, List.map_append, List.map_map]
  rfl

theorem serialStep_eq_ite (b : Bool) :
    serialStep poly c b = if c.getLsbD 0 ^^ b then (c >>> 1) ^^^ poly else c >>> 1 := by
  rw [serialStep]
  split <;> simp

theorem serialStep_toNat (b : Bool) :
    (serialStep poly c b).toNat =
      if decide (c.toNat % 2 = 1) ≠ b then (c.toNat / 2) ^^^ poly.toNat else c.toNat / 2 := by
  have hhalf : (c >>> 1).toNat = c.toNat / 2 := by simp [Nat.shiftRight_eq_div_pow]
  have hlow : c.getLsbD 0 = decide (c.toNat % 2 = 1) := Nat.testBit_zero _
  rw [serialStep_eq_ite, hlow, apply_ite BitVec.toNat, BitVec.toNat_xor, hhalf]
  simp only [Bool.xor_iff_ne]

/-- A shift is linear over exclusive or, in the register and the bit together. -/
theorem serialStep_xor (a b : Bool) :
    serialStep poly (c ^^^ d) (a ^^ b) = serialStep poly c a ^^^ serialStep poly d b := by
  have hpoly (x y : Bool) : (if x ^^ y then poly else 0) =
      (if x then poly else 0) ^^^ if y then poly else 0 := by
    cases x <;> cases y <;> simp
  simp only [serialStep, BitVec.getLsbD_xor, hpoly, BitVec.ushiftRight_xor_distrib]
  ac_rfl

/-- The arrival of the register's own low bit adds no polynomial. -/
theorem serialStep_own_bit : serialStep poly c (c.getLsbD 0) = c >>> 1 := by
  simp [serialStep]

/-- Adding a word to the register is the arrival of its low bit, the rest of it staying beside. -/
theorem serialStep_added : serialStep poly (c ^^^ d) false =
    serialStep poly c (d.getLsbD 0) ^^^ (d >>> 1) := by
  rw [← Bool.xor_self (d.getLsbD 0), serialStep_xor, serialStep_own_bit]

theorem shiftIn_cons (b : Bool) (bits : List Bool) :
    shiftIn poly c (b :: bits) = shiftIn poly (serialStep poly c b) bits := rfl

theorem shiftIn_append (first later : List Bool) :
    shiftIn poly c (first ++ later) = shiftIn poly (shiftIn poly c first) later :=
  List.foldl_append

theorem shiftIn_lowBits_succ (k : Nat) : shiftIn poly c (lowBits d (k + 1)) =
    serialStep poly (shiftIn poly c (lowBits d k)) (d.getLsbD k) := by
  rw [lowBits_add, shiftIn_append]
  rfl

/-- The register on words is the one of the statements. -/
theorem shiftIn_toNat (bits : List Bool) :
    (shiftIn poly 0 bits).toNat = serialCrc poly.toNat bits :=
  (List.foldl_hom BitVec.toNat fun r b => (serialStep_toNat poly r b).symm).symm

/-- A register fed its own bits shifts them out and never adds the polynomial. -/
theorem shiftIn_own_bits (k : Nat) : shiftIn poly c (lowBits c k) = c >>> k := by
  induction k with
  | zero => exact (BitVec.ushiftRight_zero c).symm
  | succ k ih =>
    have hbit : c.getLsbD k = (c >>> k).getLsbD 0 := by simp
    rw [shiftIn_lowBits_succ, ih, hbit, serialStep_own_bit, BitVec.shiftRight_add]

/-- By linearity, complemented bits act as the bits themselves and, beside them, as ones. -/
theorem shiftIn_complement (bits : List Bool) :
    shiftIn poly (c ^^^ d) (bits.map not) =
      shiftIn poly c bits ^^^ shiftIn poly d (List.replicate bits.length true) := by
  induction bits generalizing c d with
  | nil => rfl
  | cons b bits ih =>
    rw [List.map_cons, shiftIn_cons, ← Bool.xor_true, serialStep_xor, ih]
    rfl

end

/-! ### The two functions as serial registers (R190, R192) -/

theorem byteBits_eq_lowBits (b : Byte) : byteBits b = lowBits b 8 := rfl

theorem crc8Bits_succ (k : Nat) (c b : Byte) :
    crc8Bits (k + 1) c b = serialStep 0x8C (crc8Bits k c b) (b.getLsbD k) := by
  induction k generalizing c b with
  | zero => rw [serialStep_eq_ite, ← BitVec.getLsbD_xor]; rfl
  | succ k ih =>
    rw [crc8Bits, ih, BitVec.getLsbD_ushiftRight, Nat.add_comm 1 k]
    rfl

theorem crc8Bits_eq_shiftIn (k : Nat) (c b : Byte) :
    crc8Bits k c b = shiftIn 0x8C c (lowBits b k) := by
  induction k with
  | zero => rfl
  | succ k ih => rw [crc8Bits_succ, ih, shiftIn_lowBits_succ]

theorem crc16Bits_succ (k : Nat) (c : Half) :
    crc16Bits (k + 1) c = serialStep 0xA001 (crc16Bits k c) false := by
  induction k generalizing c with
  | zero => rw [serialStep_eq_ite, Bool.xor_false]; rfl
  | succ k ih =>
    rw [crc16Bits, ih]
    rfl

/-- Adding a word to the register at once is feeding it bit by bit, but for the bits not yet shifted out. -/
theorem crc16Bits_added (k : Nat) (c x : Half) :
    crc16Bits k (c ^^^ x) = shiftIn 0xA001 c (lowBits x k) ^^^ (x >>> k) := by
  induction k with
  | zero => rfl
  | succ k ih =>
    have hbit : x.getLsbD k = (x >>> k).getLsbD 0 := by simp
    rw [crc16Bits_succ, ih, serialStep_added, shiftIn_lowBits_succ, hbit, BitVec.shiftRight_add]

theorem crc8Step_eq_shiftIn (c b : Byte) : crc8Step c b = shiftIn 0x8C c (byteBits b) :=
  crc8Bits_eq_shiftIn 8 c b

theorem crc16Step_eq_shiftIn (c : Half) (b : Byte) :
    crc16Step c b = shiftIn 0xA001 c (byteBits b) := by
  have hbits : lowBits (b.setWidth 16) 8 = byteBits b :=
    List.map_congr_left fun i hi => by
      have := List.mem_range.mp hi
      simp [show i < 16 by omega]
  have hout : b.setWidth 16 >>> 8 = 0 := by bv_omega
  rw [crc16Step, crc16Bits_added, hbits, hout]
  exact BitVec.xor_zero

theorem crc8_eq_shiftIn (m : List Byte) : crc8 m = shiftIn 0x8C 0 (m.flatMap byteBits) := by
  rw [shiftIn, List.foldl_flatMap, crc8, funext₂ crc8Step_eq_shiftIn]
  rfl

theorem crc16_eq_shiftIn (m : List Byte) : crc16 m = shiftIn 0xA001 0 (m.flatMap byteBits) := by
  rw [shiftIn, List.foldl_flatMap, crc16, funext₂ crc16Step_eq_shiftIn]
  rfl

/-! ### A sequence followed by its own CRC (R196) -/

/-- The CRC-8 of a sequence goes on from that of its beginning. -/
theorem crc8_append (m later : List Byte) :
    crc8 (m ++ later) = shiftIn 0x8C (crc8 m) (later.flatMap byteBits) := by
  rw [crc8_eq_shiftIn, crc8_eq_shiftIn, List.flatMap_append, shiftIn_append]

/-- The CRC-16 of a sequence goes on from that of its beginning. -/
theorem crc16_append (m later : List Byte) :
    crc16 (m ++ later) = shiftIn 0xA001 (crc16 m) (later.flatMap byteBits) := by
  rw [crc16_eq_shiftIn, crc16_eq_shiftIn, List.flatMap_append, shiftIn_append]

theorem crc8_append_self (m : List Byte) : crc8 (m ++ [crc8 m]) = 0 := by
  rw [crc8_append, List.flatMap_singleton, byteBits_eq_lowBits, shiftIn_own_bits]
  exact BitVec.ushiftRight_eq_zero le_rfl

theorem byteBits_extractLsb' {w : Nat} (c : BitVec w) (start : Nat) :
    byteBits (c.extractLsb' start 8) = (List.range 8).map fun i => c.getLsbD (start + i) :=
  List.map_congr_left fun i hi => by simp [List.mem_range.mp hi]

/-- The two bytes of a half word, low byte first, are its 16 bits. -/
theorem flatMap_byteBits_half (c : Half) :
    [c.extractLsb' 0 8, c.extractLsb' 8 8].flatMap byteBits = lowBits c 16 := by
  rw [List.flatMap_cons, List.flatMap_singleton, byteBits_extractLsb', byteBits_extractLsb']
  simp only [Nat.zero_add]
  exact (lowBits_add c 8 8).symm

theorem byteBits_not (b : Byte) : byteBits (~~~b) = (byteBits b).map not := by
  rw [byteBits, byteBits, List.map_map]
  refine List.map_congr_left fun i hi => ?_
  simp [List.mem_range.mp hi]

/-- A CRC-16 register fed its own 16 bits ends at 0. -/
theorem shiftIn_own_half (poly c : Half) : shiftIn poly c (lowBits c 16) = 0#16 :=
  (shiftIn_own_bits poly c 16).trans (BitVec.ushiftRight_eq_zero le_rfl)

theorem crc16_append_self (m : List Byte) :
    crc16 (m ++ [(crc16 m).extractLsb' 0 8, (crc16 m).extractLsb' 8 8]) = 0 := by
  rw [crc16_append, flatMap_byteBits_half]
  exact shiftIn_own_half _ _

/-- The residue is what 16 ones leave in an empty register. -/
theorem crc16_append_complement (m : List Byte) :
    crc16 (m ++ [~~~((crc16 m).extractLsb' 0 8), ~~~((crc16 m).extractLsb' 8 8)]) = 0xB001 := by
  have hbits (x y : Byte) : [~~~x, ~~~y].flatMap byteBits = ([x, y].flatMap byteBits).map not := by
    simp [byteBits_not]
  have hones : shiftIn 0xA001#16 0#16 (List.replicate 16 true) = 0xB001 := by decide
  have hlinear := shiftIn_complement 0xA001 (crc16 m) 0#16 (lowBits (crc16 m) 16)
  rw [BitVec.xor_zero, shiftIn_own_half, BitVec.zero_xor] at hlinear
  rw [crc16_append, hbits, flatMap_byteBits_half, hlinear]
  exact hones

/-- Settles O43: both functions are the register on words; the residues are what it does with its own bits. -/
theorem crcRoundTrips : Obligations.CrcRoundTrips := by
  refine ⟨by simp [crc8, crc8Step, crc8Bits],
    by simp [crc16, crc16Step, crc16Bits], fun m =>
    ⟨?_, ?_, crc8_append_self m, crc16_append_self m, crc16_append_complement m⟩⟩
  · rw [crc8_eq_shiftIn]
    exact shiftIn_toNat 0x8C _
  · rw [crc16_eq_shiftIn]
    exact shiftIn_toNat 0xA001 _

/-! ### The three commands (R191, R193, R194, R195) -/

/-- Settles O40: the count decides between the CRC and `RANGE`; an empty count is always in range. -/
theorem crc8Command : Obligations.Crc8Command := fun n s =>
  ⟨decodeEncodeLegalCommand (.crc8 n) rfl, withCount_of_le (s := spend s),
    withCount_of_le (s := spend s) (Nat.zero_le _), withCount_of_lt (s := spend s)⟩

/-- Settles O41: the count decides between the CRC and `RANGE`. -/
theorem crc16Command : Obligations.Crc16Command := fun n s =>
  ⟨decodeEncodeLegalCommand (.crc16 n) rfl, withCount_of_le (s := spend s),
    withCount_of_lt (s := spend s)⟩

/-- The received CRC as a number, low byte first (R194). -/
theorem receivedCrc16_toNat (buf : List Byte) (n : Nat) :
    (receivedCrc16 buf n).toNat = (bufRead buf n).toNat + 256 * (bufRead buf (n + 1)).toNat := by
  rw [receivedCrc16, BitVec.toNat_append, ← Nat.shiftLeft_add_eq_or_of_lt (bufRead buf n).isLt,
    Nat.shiftLeft_eq]
  omega

/-- Settles O42: within the buffer the command succeeds, and the words agree when their numbers do. -/
theorem checkCrc16Command : Obligations.CheckCrc16Command := by
  refine fun n s => ⟨decodeEncodeLegalCommand (.checkCrc16 n) rfl,
    fun hcount => ⟨_, withCount_of_le (s := spend s) hcount, ?_⟩, withCount_of_lt (s := spend s)⟩
  simp only [← receivedCrc16_toNat, BitVec.toNat_inj]

end Sys2Proof.Machine
end

section
/-! PROOFS. Where sectors and pages lie (R66), what a sector reads after a device call that does not reach
it, and what a program makes of an erased one (R62 to R64, R68, R230). -/

namespace Sys2Proof.Machine

section
variable {c : Config} {m m' : Memory} {i j w p : Nat}

/-! ### Where sectors lie -/

/-- A sector ends inside its page (R66). -/
theorem sector_end_le_page (hspp : 0 < c.spp) (i : Nat) :
    c.secAddr i + c.ss ≤ c.pageOf i * c.ps + c.ps := by
  have hslot : i % c.spp * c.ss + c.ss ≤ c.ps :=
    calc i % c.spp * c.ss + c.ss
      _ = (i % c.spp + 1) * c.ss := (Nat.succ_mul _ _).symm
      _ ≤ c.spp * c.ss := Nat.mul_le_mul_right _ (Nat.mod_lt _ hspp)
      _ ≤ c.ps := Nat.div_mul_le_self _ _
  simp only [Config.secAddr, Config.pageOf]
  omega

/-- A sector starts inside its page (R66). -/
theorem page_start_le_secAddr (c : Config) (i : Nat) : c.pageOf i * c.ps ≤ c.secAddr i :=
  Nat.le_add_right _ _

/-- Pages do not overlap (R66). -/
theorem page_end_le_page_start (c : Config) {p q : Nat} (h : p < q) : p * c.ps + c.ps ≤ q * c.ps :=
  (Nat.succ_mul p c.ps).symm.trans_le (Nat.mul_le_mul_right _ h)

/-- Sectors do not overlap (R66). -/
theorem sector_end_le_sector_start (hspp : 0 < c.spp) (h : i < j) :
    c.secAddr i + c.ss ≤ c.secAddr j := by
  rcases (Nat.div_le_div_right h.le : i / c.spp ≤ j / c.spp).lt_or_eq with hpage | hpage
  · exact ((sector_end_le_page hspp i).trans (page_end_le_page_start c hpage)).trans
      (page_start_le_secAddr c j)
  · have hslot : i % c.spp < j % c.spp := by
      have hi := Nat.div_add_mod i c.spp
      have hj := Nat.div_add_mod j c.spp
      rw [hpage] at hi
      omega
    have hoff : i % c.spp * c.ss + c.ss ≤ j % c.spp * c.ss :=
      (Nat.succ_mul _ _).symm.trans_le (Nat.mul_le_mul_right _ hslot)
    simp only [Config.secAddr, hpage]
    omega

/-- Later sectors lie at higher addresses (R66). -/
theorem secAddr_mono (hspp : 0 < c.spp) (h : i ≤ j) : c.secAddr i ≤ c.secAddr j := by
  rcases h.eq_or_lt with rfl | h
  · exact le_rfl
  · exact (Nat.le_add_right _ _).trans (sector_end_le_sector_start hspp h)

/-- Two sectors lie one before the other. -/
theorem sectors_apart (hspp : 0 < c.spp) (h : i ≠ j) :
    c.secAddr i + c.ss ≤ c.secAddr j ∨ c.secAddr j + c.ss ≤ c.secAddr i :=
  h.lt_or_gt.imp (sector_end_le_sector_start hspp) (sector_end_le_sector_start hspp)

/-- The sectors of page `p`, by their place in it (R66). -/
theorem pageOf_slot {k : Nat} (hk : k < c.spp) : c.pageOf (p * c.spp + k) = p := by
  refine Nat.div_eq_of_lt_le (Nat.le_add_right _ _) ?_
  rw [Nat.succ_mul]
  omega

/-- The first sector of page `p` is in it (R66). -/
theorem pageOf_first (hspp : 0 < c.spp) (p : Nat) : c.pageOf (p * c.spp) = p :=
  Nat.mul_div_cancel p hspp

/-- Page `p` starts with its first sector (R66). -/
theorem secAddr_first (hspp : 0 < c.spp) (p : Nat) : c.secAddr (p * c.spp) = p * c.ps := by
  simp [Config.secAddr, Nat.mul_div_cancel _ hspp]

/-- A sector that is not before page `p` does not lie before it either (R66). -/
theorem page_start_le_secAddr_of_le (hspp : 0 < c.spp) (h : p * c.spp ≤ i) : p * c.ps ≤ c.secAddr i :=
  (secAddr_first hspp p).symm.trans_le (secAddr_mono hspp h)

/-- The sectors of page `p` are `SPP` consecutive ones (R66). -/
theorem pageOf_eq_iff (hspp : 0 < c.spp) :
    c.pageOf i = p ↔ p * c.spp ≤ i ∧ i < p * c.spp + c.spp := by
  rw [Config.pageOf, Nat.div_eq_iff hspp]
  omega

/-- The sectors of a page are sectors of the flash (R6). -/
theorem lt_total_of_pageOf (hspp : 0 < c.spp) (h : c.pageOf i < c.pages) : i < c.total :=
  (Nat.div_lt_iff_lt_mul hspp).mp h

/-! ### Reading sectors -/

/-- A sector reads the same when its bytes do. -/
theorem sectorAt_congr
    (h : ∀ k < c.ss, Memory.read m (c.secAddr i + k) = Memory.read m' (c.secAddr i + k)) :
    sectorAt c m i = sectorAt c m' i := flashRead_congr _ _ _ _ h

/-- The payload of a sector is its last `SDS` bytes (R67). -/
theorem sectorPayload_sectorAt (c : Config) (m : Memory) (i : Nat) :
    sectorPayload (sectorAt c m i) = flashRead m (c.secAddr i + 2) c.sds := by
  refine List.ext_getElem (by simp [sectorPayload, Config.ss]) fun k _ _ => ?_
  simp [sectorPayload, sectorAt, flashRead, Nat.add_assoc]

/-- The header of a sector is its first byte (R67). -/
theorem sectorHeader_sectorAt (c : Config) (m : Memory) (i : Nat) :
    sectorHeader (sectorAt c m i) = Memory.read m (c.secAddr i) :=
  flashRead_getD m _ _ 0 _ (Nat.succ_pos _)

/-- An erased sector is free, by its header (R68). -/
theorem sectorFree_of_erased (h : sectorErased c m i) : sectorFree (sectorAt c m i) = true := by
  rw [sectorFree, sectorHeader_sectorAt]
  exact decide_eq_true (h 0 (Nat.succ_pos _))

/-- Every sector of an erased page is erased. -/
theorem sectorErased_of_pageErased (hspp : 0 < c.spp) (h : pageErased c m (c.pageOf i)) :
    sectorErased c m i := by
  intro k hk
  have hstart := page_start_le_secAddr c i
  have hend := sector_end_le_page hspp i
  have hread := h (c.secAddr i + k - c.pageOf i * c.ps) (by omega)
  rwa [Nat.add_sub_cancel' (by omega)] at hread

/-- A valid sector is not free (R68). -/
theorem sectorFree_of_valid {sec : List Byte} (h : sectorValid sec = true) : sectorFree sec = false := by
  simp only [sectorValid, Bool.and_eq_true, Bool.not_eq_true'] at h
  exact h.1

/-- A valid sector is not bad (R68). -/
theorem sectorBad_of_valid {sec : List Byte} (h : sectorValid sec = true) : sectorBad sec = false := by
  simp [sectorBad, h]

/-- A sector that is not free is valid or bad (R68). -/
theorem sectorValid_of_not_bad {sec : List Byte} (hfree : sectorFree sec = false)
    (hbad : sectorBad sec = false) : sectorValid sec = true := by
  simpa [sectorBad, hfree] using hbad

/-! ### Sectors after a device call -/

/-- Programming one sector leaves the others alone (R63). -/
theorem sectorAt_program_other (hspp : 0 < c.spp) {bytes : List Byte} (hlen : bytes.length = c.ss)
    (event : Nat) (h : i ≠ w) :
    sectorAt c (programBytes event m (c.secAddr w) bytes) i = sectorAt c m i := by
  have hapart := sectors_apart hspp h
  exact sectorAt_congr fun k hk => read_programBytes_other event bytes m _ _ (by omega)

/-- It leaves the others erased, too. -/
theorem sectorErased_program_other (hspp : 0 < c.spp) {bytes : List Byte} (hlen : bytes.length = c.ss)
    (event : Nat) (h : i ≠ w) (herased : sectorErased c m i) :
    sectorErased c (programBytes event m (c.secAddr w) bytes) i := by
  have hapart := sectors_apart hspp h
  intro k hk
  rw [read_programBytes_other event bytes m _ _ (by omega), herased k hk]

/-- Programming an erased sector gives it the bytes of the call (R63). -/
theorem sectorAt_program_erased {bytes : List Byte} (hlen : bytes.length = c.ss) (event : Nat)
    (hwf : Memory.wf m = true) (h : sectorErased c m w) :
    sectorAt c (programBytes event m (c.secAddr w) bytes) w = bytes := by
  refine List.ext_getElem (by simp [hlen]) fun k hk hk' => ?_
  rw [sectorAt_length] at hk
  rw [← List.getD_eq_getElem (sectorAt ..) erasedByte, ← List.getD_eq_getElem bytes erasedByte,
    sectorAt, flashRead_getD _ _ _ _ _ hk]
  exact read_programBytes_erased event bytes m _ k hwf hk' (h k hk)

/-- Erasing a page leaves the sectors of the others alone (R64). -/
theorem sectorAt_erase_other (hspp : 0 < c.spp) (h : c.pageOf i ≠ p) :
    sectorAt c (Memory.eraseRange m (p * c.ps) c.ps) i = sectorAt c m i := by
  have hstart := page_start_le_secAddr c i
  have hend := sector_end_le_page hspp i
  refine sectorAt_congr fun k hk => ?_
  rw [read_eraseRange, if_neg]
  rcases h.lt_or_gt with h | h
  all_goals have := page_end_le_page_start c h; omega

/-- An erased page is erased (R64). -/
theorem pageErased_eraseRange (c : Config) (m : Memory) (p : Nat) :
    pageErased c (Memory.eraseRange m (p * c.ps) c.ps) p := by
  intro k hk
  rw [read_eraseRange, if_pos ⟨Nat.le_add_right _ _, by omega⟩]

/-- Erasing a page leaves every byte outside it alone (R64). -/
theorem read_erase_other (c : Config) (m : Memory) {p a : Nat}
    (h : a < p * c.ps ∨ p * c.ps + c.ps ≤ a) :
    Memory.read (Memory.eraseRange m (p * c.ps) c.ps) a = Memory.read m a := by
  rw [read_eraseRange, if_neg (by omega)]

end

end Sys2Proof.Machine
end

section
/-! PROOFS. What a scan finds (R202 to R205): sector by sector it keeps the first free sector, the number of
bad ones and, for each file, the most recent valid sector it has met; where the store is located follows. -/

namespace Sys2Proof.Machine

/-! ### The most recent sector of a file so far (R204) -/

/-- Sector `i` is a valid sector of file `id` (R68). -/
def ValidOf (c : Config) (m : Memory) (id i : Nat) : Prop :=
  sectorValid (sectorAt c m i) = true ∧ sectorFile (sectorAt c m i) = id

/-- Sector `i` is the most recent valid sector of file `id` among sectors `0 .. k-1` (R204). -/
structure NewestBelow (c : Config) (m : Memory) (id k i : Nat) : Prop where
  below : i < k
  validOf : ValidOf c m id i
  newest : ∀ j < k, ValidOf c m id j →
    areaOf c m i < areaOf c m j ∨ (areaOf c m i = areaOf c m j ∧ j ≤ i)

/-- The entry and the area a scan of sectors `0 .. k-1` has for file `id` (R203, R204). -/
inductive Recorded (c : Config) (m : Memory) (id k : Nat) : Option Nat → Option Nat → Prop
  | nothing : (∀ i < k, ¬ ValidOf c m id i) → Recorded c m id k none none
  | newest (i : Nat) : NewestBelow c m id k i →
      Recorded c m id k (if sectorTomb (sectorAt c m i) then none else some i) (some (areaOf c m i))

section
variable {c : Config} {m : Memory} {id k i j : Nat} {entry area : Option Nat}

/-- The whole scan's most recent sector is that of R204. -/
theorem newestBelow_total_iff : NewestBelow c m id c.total i ↔ IsNewest c m id i := by
  refine ⟨fun h => ⟨h.below, h.validOf.1, h.validOf.2, fun j hj hv hf => h.newest j hj ⟨hv, hf⟩⟩,
    fun h => ⟨h.inRange, ⟨h.valid, h.file⟩, fun j hj hv => h.newest j hj hv.1 hv.2⟩⟩

/-- A file has at most one most recent sector. -/
theorem NewestBelow.unique (hi : NewestBelow c m id k i) (hj : NewestBelow c m id k j) : i = j := by
  have h := hi.newest j hj.below hj.validOf
  have h' := hj.newest i hi.below hi.validOf
  omega

/-- It stays the most recent when the next sector is in a later area, or none of the file's. -/
theorem NewestBelow.next (h : NewestBelow c m id k i)
    (hk : ValidOf c m id k → areaOf c m i < areaOf c m k) : NewestBelow c m id (k + 1) i where
  below := h.below.trans k.lt_succ_self
  validOf := h.validOf
  newest j hj hv := by
    rcases Nat.lt_succ_iff_lt_or_eq.mp hj with hj | rfl
    · exact h.newest j hj hv
    · exact .inl (hk hv)

/-- A sector that is none of the file's changes nothing for it. -/
theorem Recorded.skip (h : Recorded c m id k entry area) (hk : ¬ ValidOf c m id k) :
    Recorded c m id (k + 1) entry area := by
  cases h with
  | nothing hno =>
    refine .nothing fun j hj => ?_
    rcases Nat.lt_succ_iff_lt_or_eq.mp hj with hj | rfl
    · exact hno j hj
    · exact hk
  | newest i hi => exact .newest i (hi.next fun hv => absurd hv hk)

/-- Nor does a sector of the file in a later area than the one recorded (R204). -/
theorem Recorded.later {r : Nat} (h : Recorded c m id k entry (some r)) (hr : r < areaOf c m k) :
    Recorded c m id (k + 1) entry (some r) := by
  cases h with
  | newest i hi => exact .newest i (hi.next fun _ => hr)

/-- A sector of the file in an area no later than the one recorded takes its place (R204). -/
theorem Recorded.replace (h : Recorded c m id k entry area) (hk : ValidOf c m id k)
    (hr : ∀ r, area = some r → areaOf c m k ≤ r) :
    Recorded c m id (k + 1) (if sectorTomb (sectorAt c m k) then none else some k)
      (some (areaOf c m k)) := by
  refine .newest k ⟨k.lt_succ_self, hk, fun j hj hv => ?_⟩
  rcases Nat.lt_succ_iff_lt_or_eq.mp hj with hj | rfl
  · cases h with
    | nothing hno => exact absurd hv (hno j hj)
    | newest i hi =>
      have hle := hr _ rfl
      have hnew := hi.newest j hj hv
      omega
  · exact .inr ⟨rfl, le_rfl⟩

end

/-! ### One sector of the scan (R203) -/

/-- The entry of a file after one entry was set. -/
theorem getD_set_entry (dir : List (Option Nat)) {j : Nat} (hj : j < dir.length) (k : Nat)
    (e : Option Nat) : (dir.set j e).getD k none = if k = j then e else dir.getD k none := by
  rw [List.getD_eq_getElem?_getD, List.getElem?_set]
  split
  · next h => rw [if_pos h.symm, Option.getD_some]
  · next h => rw [if_neg (Ne.symm h), List.getD_eq_getElem?_getD]

/-- A sector is as recent as what is recorded when its area is no later (R204). -/
theorem accepts_iff (a : Scan) (n : Nat) :
    a.accepts n = true ↔ ∀ r, a.darea.getD n none = some r → a.area ≤ r := by
  unfold Scan.accepts
  cases a.darea.getD n none <;> simp

section
variable (c : Config) (i : Nat) {sec : List Byte} {a : Scan}

theorem scanSector_free (h : sectorFree sec = true) :
    a.sector c i sec = { a with area := a.area + 1, head := some (a.head.getD i) } := if_pos h

theorem scanSector_bad (h : sectorBad sec = true) :
    a.sector c i sec = { a with err := satInc a.err } := by
  have hfree : sectorFree sec = false := by
    simp only [sectorBad, Bool.and_eq_true, Bool.not_eq_true'] at h
    exact h.1
  simp [Scan.sector, hfree, h]

theorem scanSector_recorded (hv : sectorValid sec = true)
    (h : sectorFile sec < c.n ∧ a.accepts (sectorFile sec) = true) :
    a.sector c i sec = { a with
      dir := a.dir.set (sectorFile sec) (if sectorTomb sec then none else some i)
      darea := a.darea.set (sectorFile sec) (some a.area) } := by
  simp [Scan.sector, sectorFree_of_valid hv, sectorBad_of_valid hv, h]

theorem scanSector_passed (hv : sectorValid sec = true)
    (h : ¬ (sectorFile sec < c.n ∧ a.accepts (sectorFile sec) = true)) : a.sector c i sec = a := by
  simp only [Scan.sector, sectorFree_of_valid hv, sectorBad_of_valid hv, h, if_false, Bool.false_eq_true]

end

/-- The saturating increment counts, below its limit (R41). -/
theorem satInc_ofNat {n : Nat} (h : n < 2 ^ 32 - 1) :
    satInc (BitVec.ofNat 32 n) = BitVec.ofNat 32 (n + 1) := by
  have hne : BitVec.ofNat 32 n ≠ BitVec.allOnes 32 := by
    intro heq
    have := congrArg BitVec.toNat heq
    simp only [BitVec.toNat_ofNat, BitVec.toNat_allOnes] at this
    omega
  rw [satInc, if_neg hne, BitVec.ofNat_add]
  rfl

/-! ### The scan so far (R203) -/

/-- How many of sectors `0 .. k-1` are bad (R203). -/
def badBelow (c : Config) (m : Memory) (k : Nat) : Nat :=
  (List.range k).countP fun i => sectorBad (sectorAt c m i)

/-- What a scan of sectors `0 .. k-1` of flash `m` has found (R203). -/
structure Scan.Follows (c : Config) (m : Memory) (k : Nat) (a : Scan) : Prop where
  area : a.area = areaOf c m k
  head : a.head = (List.range k).find? fun i => sectorFree (sectorAt c m i)
  err : a.err = BitVec.ofNat 32 (badBelow c m k)
  dirSize : a.dir.length = c.n
  dareaSize : a.darea.length = c.n
  entries : ∀ id < c.n, Recorded c m id k (a.dir.getD id none) (a.darea.getD id none)

section
variable {c : Config} {m : Memory} {k : Nat} {a : Scan}

theorem areaOf_succ (c : Config) (m : Memory) (k : Nat) :
    areaOf c m (k + 1) = areaOf c m k + if sectorFree (sectorAt c m k) then 1 else 0 := by
  simp [areaOf, List.range_succ]

theorem badBelow_succ (c : Config) (m : Memory) (k : Nat) :
    badBelow c m (k + 1) = badBelow c m k + if sectorBad (sectorAt c m k) then 1 else 0 := by
  simp [badBelow, List.range_succ]

theorem badBelow_le (c : Config) (m : Memory) (k : Nat) : badBelow c m k ≤ k :=
  List.countP_le_length.trans_eq List.length_range

theorem firstFree_succ (c : Config) (m : Memory) (k : Nat) :
    ((List.range (k + 1)).find? fun i => sectorFree (sectorAt c m i)) =
      ((List.range k).find? fun i => sectorFree (sectorAt c m i)).or
        (if sectorFree (sectorAt c m k) then some k else none) := by
  rw [List.range_succ, List.find?_append, List.find?_singleton]

/-- A sector that is not valid leaves what is recorded of every file. -/
theorem Scan.Follows.skip_all (h : a.Follows c m k) (hv : sectorValid (sectorAt c m k) = false) :
    ∀ id < c.n, Recorded c m id (k + 1) (a.dir.getD id none) (a.darea.getD id none) :=
  fun id hid => (h.entries id hid).skip fun hof => Bool.false_ne_true (hv.symm.trans hof.1)

/-- A free sector begins a new area, and is the head when it is the first (R203). -/
theorem Scan.Follows.free (h : a.Follows c m k) (hfree : sectorFree (sectorAt c m k) = true) :
    (a.sector c k (sectorAt c m k)).Follows c m (k + 1) := by
  have hvalid : sectorValid (sectorAt c m k) = false := by simp [sectorValid, hfree]
  have hbad : sectorBad (sectorAt c m k) = false := by simp [sectorBad, hfree]
  rw [scanSector_free c k hfree]
  refine ⟨?_, ?_, ?_, h.dirSize, h.dareaSize, h.skip_all hvalid⟩
  · rw [areaOf_succ, if_pos hfree, ← h.area]
  · rw [firstFree_succ, if_pos hfree, ← h.head]
    cases a.head <;> rfl
  · rw [badBelow_succ, hbad]
    exact h.err

/-- A bad sector counts (R203). -/
theorem Scan.Follows.bad (h : a.Follows c m k) (hk : k < 2 ^ 32 - 1)
    (hbad : sectorBad (sectorAt c m k) = true) :
    (a.sector c k (sectorAt c m k)).Follows c m (k + 1) := by
  obtain ⟨hfree, hvalid⟩ :
      sectorFree (sectorAt c m k) = false ∧ sectorValid (sectorAt c m k) = false := by
    simpa only [sectorBad, Bool.and_eq_true, Bool.not_eq_true'] using hbad
  rw [scanSector_bad c k hbad]
  refine ⟨?_, ?_, ?_, h.dirSize, h.dareaSize, h.skip_all hvalid⟩
  · rw [areaOf_succ, hfree]
    exact h.area
  · rw [firstFree_succ, hfree, ← h.head]
    simp
  · rw [badBelow_succ, if_pos hbad, ← satInc_ofNat ((badBelow_le c m k).trans_lt hk), ← h.err]

/-- A valid sector is recorded when it is as recent as what is recorded of its file (R203, R204). -/
theorem Scan.Follows.valid (h : a.Follows c m k) (hvalid : sectorValid (sectorAt c m k) = true) :
    (a.sector c k (sectorAt c m k)).Follows c m (k + 1) := by
  have hfree := sectorFree_of_valid hvalid
  have hbad := sectorBad_of_valid hvalid
  have harea : a.area = areaOf c m (k + 1) := by rw [areaOf_succ, hfree]; exact h.area
  have hhead : a.head = (List.range (k + 1)).find? fun i => sectorFree (sectorAt c m i) := by
    rw [firstFree_succ, hfree, ← h.head]
    simp
  have herr : a.err = BitVec.ofNat 32 (badBelow c m (k + 1)) := by
    rw [badBelow_succ, hbad]
    exact h.err
  by_cases hrec : sectorFile (sectorAt c m k) < c.n ∧ a.accepts (sectorFile (sectorAt c m k)) = true
  · rw [scanSector_recorded c k hvalid hrec]
    refine ⟨harea, hhead, herr, List.length_set.trans h.dirSize, List.length_set.trans h.dareaSize,
      fun id hid => ?_⟩
    dsimp only
    rw [getD_set_entry _ (h.dirSize.symm ▸ hrec.1), getD_set_entry _ (h.dareaSize.symm ▸ hrec.1)]
    split
    · next heq =>
      subst heq
      have hle := (accepts_iff a _).mp hrec.2
      rw [h.area] at hle ⊢
      exact (h.entries _ hid).replace ⟨hvalid, rfl⟩ hle
    · next hne => exact (h.entries id hid).skip fun hof => hne hof.2.symm
  · rw [scanSector_passed c k hvalid hrec]
    refine ⟨harea, hhead, herr, h.dirSize, h.dareaSize, fun id hid => ?_⟩
    by_cases heq : sectorFile (sectorAt c m k) = id
    · subst heq
      obtain ⟨r, hr, hlt⟩ : ∃ r, a.darea.getD (sectorFile (sectorAt c m k)) none = some r ∧
          r < a.area := by
        simpa only [hid, true_and, accepts_iff, not_forall, not_le, exists_prop] using hrec
      have hentry := h.entries _ hid
      rw [hr] at hentry ⊢
      exact hentry.later (h.area ▸ hlt)
    · exact (h.entries id hid).skip fun hof => heq hof.2

theorem scanUpTo_follows (c : Config) (m : Memory) (k : Nat) (hk : k < 2 ^ 32) :
    (scanUpTo c m k).Follows c m k := by
  induction k with
  | zero =>
    refine ⟨rfl, rfl, rfl, List.length_replicate, List.length_replicate, fun id hid => ?_⟩
    simp only [scanUpTo, Scan.init, List.getD_replicate _ hid]
    exact .nothing fun i hi => absurd hi (Nat.not_lt_zero i)
  | succ k ih =>
    have h := ih (by omega)
    rw [scanUpTo]
    cases hfree : sectorFree (sectorAt c m k) with
    | true => exact h.free hfree
    | false =>
      cases hbad : sectorBad (sectorAt c m k) with
      | true => exact h.bad (by omega) hbad
      | false => exact h.valid (sectorValid_of_not_bad hfree hbad)

end

/-! ### The whole scan -/

section
variable {c : Config} (hc : c.Valid) (m : Memory)
include hc

/-- R6 keeps the sectors few enough for the bad ones to be counted. -/
theorem scan_follows : (scan c m).Follows c m c.total := by
  obtain ⟨-, -, -, -, -, -, htotal, -⟩ := hc
  exact scanUpTo_follows c m c.total (by omega)

/-- A scan records for a file exactly its most recent valid sector, unless that is a tombstone (R204). -/
theorem scan_entry_eq_some {id : Nat} (hid : id < c.n) {i : Nat} :
    (scan c m).dir.getD id none = some i ↔
      IsNewest c m id i ∧ sectorTomb (sectorAt c m i) = false := by
  have hrec := (scan_follows hc m).entries id hid
  generalize (scan c m).dir.getD id none = entry, (scan c m).darea.getD id none = area at hrec
  rw [← newestBelow_total_iff]
  cases hrec with
  | nothing hno => simpa using fun h : NewestBelow .. => absurd h.validOf (hno i h.below)
  | newest i' hi' =>
    constructor
    · intro h
      split at h
      · cases h
      · next htomb =>
        cases h
        exact ⟨hi', Bool.eq_false_of_not_eq_true htomb⟩
    · rintro ⟨hi, htomb⟩
      rw [hi'.unique hi, htomb]
      rfl

/-- The directory of a scan is the one of R203 and R204. -/
theorem scan_directoryOf : DirectoryOf c m (scan c m).dir where
  size := (scan_follows hc m).dirSize
  recorded id hid i hi := by
    cases htomb : sectorTomb (sectorAt c m i) with
    | false => exact (scan_entry_eq_some hc m hid).mpr ⟨hi, htomb⟩
    | true =>
      rw [if_pos rfl, Option.eq_none_iff_forall_ne_some]
      intro j hj
      obtain ⟨hnew, hlive⟩ := (scan_entry_eq_some hc m hid).mp hj
      have hsame := (newestBelow_total_iff.mpr hi).unique (newestBelow_total_iff.mpr hnew)
      rw [← hsame, htomb] at hlive
      cases hlive
  missing id hid hno := by
    rw [Option.eq_none_iff_forall_ne_some]
    intro j hj
    obtain ⟨hnew, -⟩ := (scan_entry_eq_some hc m hid).mp hj
    exact hno j hnew.inRange hnew.valid hnew.file

/-- The pages marked by the directory of a scan are those that hold a live sector (R205). -/
theorem pageMarked_scan (p : Nat) :
    pageMarked c (scan c m).dir p = true ↔ PageMarked c m p := by
  rw [pageMarked, List.any_eq_true]
  constructor
  · rintro ⟨e, he, hp⟩
    obtain ⟨id, hid, rfl⟩ := List.mem_iff_getElem.mp he
    rw [← List.getD_eq_getElem _ none hid] at hp
    rw [(scan_follows hc m).dirSize] at hid
    split at hp
    · next i hi =>
      obtain ⟨hnew, hlive⟩ := (scan_entry_eq_some hc m hid).mp hi
      exact ⟨id, hid, i, hnew, hlive, of_decide_eq_true hp⟩
    · cases hp
  · rintro ⟨id, hid, i, hnew, hlive, hp⟩
    have hi := (scan_entry_eq_some hc m hid).mpr ⟨hnew, hlive⟩
    rw [← (scan_follows hc m).dirSize] at hid
    rw [List.getD_eq_getElem _ none hid] at hi
    exact ⟨some i, List.mem_of_getElem hi, decide_eq_true hp⟩

/-! ### Locating the store (R202, R205) -/

/-- With no free sector the page sacrificed is the lowest without a live sector, else the last (R205). -/
theorem sacrificePage_scan :
    (¬ PageMarked c m (sacrificePage c (scan c m).dir) ∧
      ∀ p < sacrificePage c (scan c m).dir, PageMarked c m p) ∨
    (sacrificePage c (scan c m).dir = c.pages - 1 ∧ ∀ p < c.pages, PageMarked c m p) := by
  rw [sacrificePage]
  cases hfind : (List.range c.pages).find? fun p => !pageMarked c (scan c m).dir p with
  | none =>
    refine .inr ⟨rfl, fun p hp => (pageMarked_scan hc m p).mp ?_⟩
    simpa using List.find?_range_eq_none.mp hfind p hp
  | some p =>
    obtain ⟨hp, -, hfirst⟩ := List.find?_range_eq_some.mp hfind
    refine .inl ⟨fun hmarked => ?_, fun q hq => (pageMarked_scan hc m q).mp ?_⟩
    · simp [(pageMarked_scan hc m p).mpr hmarked] at hp
    · simpa using hfirst q hq

/-- The write pointer and the free page located after a scan are those of R202 and R205. -/
theorem locate_located :
    Located c m (locate c (findHint c m) (scan c m).head (scan c m).dir).1
      (locate c (findHint c m) (scan c m).head (scan c m).dir).2 := by
  have hspp := hc.spp_pos
  have hhead := (scan_follows hc m).head
  have hsac := sacrificePage_scan hc m
  generalize (scan c m).head = head, (scan c m).dir = dir at hhead hsac
  cases head with
  | none =>
    have hnone := List.find?_range_eq_none.mp hhead.symm
    have hfull : ∀ k < c.total, sectorFree (sectorAt c m k) = false := by simpa using hnone
    refine ⟨fun h hlt hfree _ => ?_, fun p hp hfree _ => ?_, ?_, fun _ => ⟨rfl, hsac⟩⟩
    · simp [hfull h hlt] at hfree
    · simp [hfull _ (Nat.mul_lt_mul_of_pos_right hp hspp)] at hfree
    · rintro ⟨h, hlt, hfree⟩
      simp [hfull h hlt] at hfree
  | some w =>
    obtain ⟨hwfree, hw, hwfirst⟩ := List.find?_range_eq_some.mp hhead.symm
    refine ⟨fun h _ hfree hfirst => ?_, fun p hp hfree hfirst => ?_, fun _ hno => ?_, fun hfull => ?_⟩
    · rcases Nat.lt_trichotomy w h with hlt | heq | hlt
      · simp [hfirst w hlt] at hwfree
      · exact heq
      · exact absurd hfree (by simpa using hwfirst h hlt)
    · have hhint : findHint c m = some p :=
        List.find?_range_eq_some.mpr ⟨hfree, List.mem_range.mpr hp, by simpa using hfirst⟩
      rw [hhint]
      rfl
    · have hhint : findHint c m = none := List.find?_range_eq_none.mpr (by simpa using hno)
      rw [hhint]
      rfl
    · simp [hfull w (List.mem_range.mp hw)] at hwfree

end

end Sys2Proof.Machine
end

section
/-! PROOFS. The rescan (R200 to R208), the read path (R211, R212), the error counter (R215) and the listing
(R216, R217), and the obligations on them. -/

namespace Sys2Proof.Machine

/-! ### The rescan (R201 to R208) -/

section
variable {c : Config} (hc : c.Valid) (f : Fsc)

/-- The page a rescan names free is erased (R206). -/
theorem rescan_pageErased (c : Config) (f : Fsc) :
    pageErased c (f.rescan c).flash (f.rescan c).free := pageErased_eraseRange c f.flash _

/-- Outside that page a rescan leaves the flash alone (R206). -/
theorem rescan_read_other (c : Config) (f : Fsc) {a : Nat}
    (h : a < (f.rescan c).free * c.ps ∨ (f.rescan c).free * c.ps + c.ps ≤ a) :
    Memory.read (f.rescan c).flash a = Memory.read f.flash a := read_erase_other c f.flash h

include hc

/-- A rescan locates the store on the flash as it was (R205, R208). -/
theorem rescan_located : Located c f.flash (f.rescan c).wp (f.rescan c).free :=
  locate_located hc f.flash

/-- The write pointer and the free page of a rescan are a sector and a page (R39, R40). -/
theorem rescan_pointers : (f.rescan c).wp < c.total ∧ (f.rescan c).free < c.pages :=
  locate_inRange c hc _ _ _ (fun _ hp => List.mem_range.mp (List.mem_of_find?_eq_some hp))
    (scanUpTo_below c f.flash c.total).head

/-- The directory of a rescan is the one of the flash after its erase (R203, R204, R207). -/
theorem rescan_directoryOf : DirectoryOf c (f.rescan c).flash (f.rescan c).dir :=
  scan_directoryOf hc _

/-- `CRCERR` after a rescan is the number of bad sectors (R203, R208). -/
theorem rescan_crcerr :
    (f.rescan c).crcerr = BitVec.ofNat 32 (badBelow c (f.rescan c).flash c.total) :=
  (scan_follows hc _).err

/-- Every entry of a rescan points outside the page erased at a valid live sector of its file (R204,
R206): the sectors of that page are free. -/
theorem rescan_entryLive {id : Nat} (hid : id < c.n) :
    entryLive c (f.rescan c).flash (f.rescan c).free id ((f.rescan c).dir.getD id none) = true := by
  cases hentry : (f.rescan c).dir.getD id none with
  | none => rfl
  | some i =>
    obtain ⟨hnew, hlive⟩ := (scan_entry_eq_some hc (f.rescan c).flash hid).mp hentry
    have hpage : c.pageOf i ≠ (f.rescan c).free := by
      intro hpage
      have herased := sectorErased_of_pageErased hc.spp_pos (hpage ▸ rescan_pageErased c f)
      have hfree := sectorFree_of_erased herased
      rw [sectorFree_of_valid hnew.valid] at hfree
      cases hfree
    simp [entryLive, hnew.inRange, hpage, hnew.valid, hnew.file, hlive]

end

/-- What a live entry says of the sector it points at (R241 b). -/
theorem entryLive_some {c : Config} {m : Memory} {free id i : Nat}
    (h : entryLive c m free id (some i) = true) :
    i < c.total ∧ c.pageOf i ≠ free ∧ sectorValid (sectorAt c m i) = true ∧
      sectorFile (sectorAt c m i) = id := by
  simp only [entryLive, Option.all_some, Bool.and_eq_true, decide_eq_true_eq] at h
  obtain ⟨⟨⟨⟨hi, hpage⟩, hvalid⟩, hfile⟩, -⟩ := h
  exact ⟨hi, hpage, hvalid, hfile⟩

/-- Settles O45: `FS_BEGIN` is one rescan, whose parts the lemmas above describe. -/
theorem beginRebuildsDirectory : Obligations.BeginRebuildsDirectory := by
  intro s hc _
  obtain ⟨hwp, hfree⟩ := rescan_pointers hc s.fsc
  have hrun : exec .fsBegin s = .next (done 0 { spend s with fsc := s.fsc.rescan s.cfg }) := by
    rw [exec, execFsBegin]
    exact (withGeometry_next s _ _).mpr ⟨hc, rfl⟩
  exact ⟨s.fsc.rescan s.cfg, hrun, rfl, rfl, rfl, rfl, rfl, rfl, hfree, hwp,
    rescan_located hc s.fsc, rescan_directoryOf hc s.fsc, rescan_pageErased _ _,
    fun _ hid => rescan_entryLive hc s.fsc hid, rescan_crcerr hc s.fsc, rfl,
    fun _ ha => rescan_read_other s.cfg s.fsc ha⟩

/-! ### Reading a file (R211, R212) -/

/-- What a look at an entry of the directory finds, with the payload as the flash holds it (R211). -/
theorem lookup_good {c : Config} {id i : Nat} {f : Fsc} (hd : f.dir.getD id none = some i)
    (hi : i < c.total) (hv : sectorValid (sectorAt c f.flash i) = true) :
    f.lookup c id = .valid i (flashRead f.flash (c.secAddr i + 2) c.sds) := by
  rw [lookup_valid c id i f hd hi hv, sectorPayload_sectorAt]

theorem lookup_invalid {c : Config} {id i : Nat} {f : Fsc} (hd : f.dir.getD id none = some i)
    (hi : i < c.total) (hv : sectorValid (sectorAt c f.flash i) = false) :
    f.lookup c id = .invalid := by
  simp only [Fsc.lookup, hd, if_pos hi, hv, if_false, Bool.false_eq_true]

/-- A live entry is found at the first look (R211, R241 b). -/
theorem lookup_live {c : Config} {free id i : Nat} {f : Fsc} (hd : f.dir.getD id none = some i)
    (hlive : entryLive c f.flash free id (f.dir.getD id none) = true) :
    f.lookup c id = .valid i (flashRead f.flash (c.secAddr i + 2) c.sds) := by
  rw [hd] at hlive
  obtain ⟨hi, -, hv, -⟩ := entryLive_some hlive
  exact lookup_good hd hi hv

/-- A file found at the first look is read without touching the store (R211). -/
theorem readProc_valid {c : Config} {id i : Nat} {p : List Byte} {f : Fsc}
    (h : f.lookup c id = .valid i p) : f.readProc c id = .found i p f := by
  simp only [Fsc.readProc, h]

theorem readProc_absent {c : Config} {id : Nat} {f : Fsc} (h : f.lookup c id = .absent) :
    f.readProc c id = .notFound f := by
  simp only [Fsc.readProc, h]

/-- A file whose sector is bad is looked up again after a rescan; with nothing decaying in between the entry
is live or absent then, so that the retry never fails (R208, R211). -/
theorem readProc_rescanned {c : Config} (hc : c.Valid) {id : Nat} (hid : id < c.n) {f : Fsc}
    (hdecay : f.decay = []) (h : f.lookup c id = .invalid) :
    (∃ i < c.total, (f.rescan c).dir.getD id none = some i ∧ f.readProc c id =
      .found i (flashRead (f.rescan c).flash (c.secAddr i + 2) c.sds) (f.rescan c)) ∨
    ((f.rescan c).dir.getD id none = none ∧ f.readProc c id = .notFound (f.rescan c)) := by
  have hlive := rescan_entryLive hc f hid
  simp only [Fsc.readProc, h, strike_of_no_decay c (f.rescan c) hdecay]
  cases hd : (f.rescan c).dir.getD id none with
  | none =>
    rw [lookup_absent c id _ hd]
    exact .inr ⟨rfl, rfl⟩
  | some i =>
    rw [lookup_live hd hlive]
    exact .inl ⟨i, (entryLive_some (hd ▸ hlive)).1, rfl, rfl⟩

section
variable {id : Byte} {s : State} (hc : s.cfg.Valid) (hready : s.fsc.ready = true)
  (hid : id.toNat < s.cfg.n)
include hc hready hid

/-- `FS_READ_FILE` of a file that is found (R212). -/
theorem fsReadFile_of_found {i : Nat} {p : List Byte} {f : Fsc}
    (h : s.fsc.readProc s.cfg id.toNat = .found i p f) :
    exec (.fsReadFile id) s =
      .next (done (BitVec.ofNat 32 i) { spend s with fsc := f, dbuf := p }) := by
  rw [exec, execFsReadFile, withFile_runs _ _ _ hc hready hid]
  simp only [spend_fsc, spend_cfg, h]

/-- `FS_READ_FILE` of a file that is not found (R212). -/
theorem fsReadFile_of_notFound {f : Fsc} (h : s.fsc.readProc s.cfg id.toNat = .notFound f) :
    exec (.fsReadFile id) s = .next (fail .notFound 0 { spend s with fsc := f }) := by
  rw [exec, execFsReadFile, withFile_runs _ _ _ hc hready hid]
  simp only [spend_fsc, spend_cfg, h]

/-- `FS_READ_FILE` of a file found at the first look (R211, R212). -/
theorem fsReadFile_of_valid {i : Nat} {p : List Byte} (h : s.fsc.lookup s.cfg id.toNat = .valid i p) :
    exec (.fsReadFile id) s = .next (done (BitVec.ofNat 32 i) { spend s with dbuf := p }) :=
  fsReadFile_of_found hc hready hid (readProc_valid h)

/-- `FS_READ_FILE` of a file with no entry (R211, R212). -/
theorem fsReadFile_of_absent (h : s.fsc.dir.getD id.toNat none = none) :
    exec (.fsReadFile id) s = .next (fail .notFound 0 (spend s)) :=
  fsReadFile_of_notFound hc hready hid (readProc_absent (lookup_absent s.cfg id.toNat s.fsc h))

end

/-- Settles O47: one look at the entry decides. -/
theorem readFileOfGoodEntry : Obligations.ReadFileOfGoodEntry := fun _ _ hc hready hid =>
  ⟨fun _ hd hi hv => fsReadFile_of_valid hc hready hid (lookup_good hd hi hv),
    fun hd => fsReadFile_of_absent hc hready hid hd⟩

/-- A sector number fits in `RES` (R6 bounds `T`). -/
theorem sectorNumber_toNat {c : Config} (hc : c.Valid) {i : Nat} (hi : i < c.total) :
    (BitVec.ofNat 32 i).toNat = i := by
  obtain ⟨-, -, -, -, -, -, htotal, -⟩ := hc
  exact BitVec.toNat_ofNat _ _ ▸ Nat.mod_eq_of_lt (by omega)

/-- Settles O48: after the rescan the entry is live or absent. -/
theorem badSectorIsRescanned : Obligations.BadSectorIsRescanned := by
  intro id s i hs hready hid hdecay hd hbad
  have hc := hs.cfgValid
  have hlook := lookup_invalid hd (hs.fscInRange.dir.getD_lt hd) hbad
  obtain ⟨j, hj, hentry, hread⟩ | ⟨hentry, hread⟩ := readProc_rescanned hc hid hdecay hlook
  · refine ⟨_, fsReadFile_of_found hc hready hid hread, rfl, rfl, .inl ⟨rfl, rfl, ?_, ?_⟩⟩
    · rw [done_res, sectorNumber_toNat hc hj]
      exact hentry
    · rw [done_res, sectorNumber_toNat hc hj]
      rfl
  · exact ⟨_, fsReadFile_of_notFound hc hready hid hread, rfl, rfl,
      .inr ⟨rfl, rfl, rfl, hentry, rfl⟩⟩

/-! ### The error counter (R215) -/

/-- Settles O49: the store's readiness decides, and register 7 reads the same element. -/
theorem crcErrorCounterRead : Obligations.CrcErrorCounterRead := by
  refine ⟨by decide, rfl, fun s hc => ⟨fun hready => ?_, fun hready => ?_, fun hidle => ?_⟩⟩
  · rw [exec, execFsCrcerr]
    exact (withStore_next s _ _).mpr ⟨hc, .inr ⟨hready, rfl⟩⟩
  · rw [exec, execFsCrcerr, withStore_runs s _ hc hready, spend_fsc]
  · rw [readReg, answerUnlessBusy_idle _ hidle]
    rfl

/-! ### Listing (R216, R217) -/

section
variable {c : Config} {f : Fsc}

/-- The `k`-th sector of a listing from `LIST_BASE`, and whether it is yielded (R217). -/
def Fsc.listedAt (c : Config) (f : Fsc) (k : Nat) : Bool :=
  sectorListed f.listId.toNat (sectorAt c f.flash ((f.listBase + k) % c.total))

/-- A listing yields the first sector of its file from the cursor on (R217). -/
theorem listStep_eq_some {k : Nat} (hpos : f.listPos ≤ k) (hk : k < c.total)
    (hlisted : f.listedAt c k = true)
    (hskip : ∀ x, f.listPos ≤ x → x < k → f.listedAt c x = false) :
    f.listStep c (c.total - f.listPos) =
      (some ((f.listBase + k) % c.total), { f with listPos := k + 1 }) := by
  obtain ⟨r, g, hstep⟩ : ∃ r g, f.listStep c (c.total - f.listPos) = (r, g) := ⟨_, _, rfl⟩
  rw [hstep]
  cases r with
  | none =>
    obtain ⟨hno, -⟩ := listStep_none c _ f g hstep
    have hk' := hno (k - f.listPos) (by omega)
    rw [Nat.add_sub_cancel' hpos] at hk'
    exact absurd (hlisted.symm.trans hk') nofun
  | some i =>
    obtain ⟨y, -, rfl, hfound, hbefore, rfl⟩ := listStep_some c _ f g i hstep
    have hy : f.listPos + y = k := by
      rcases Nat.lt_trichotomy (f.listPos + y) k with hlt | heq | hlt
      · exact absurd (hfound.symm.trans (hskip _ (Nat.le_add_right _ _) hlt)) nofun
      · exact heq
      · have hk' := hbefore (k - f.listPos) (by omega)
        rw [Nat.add_sub_cancel' hpos] at hk'
        exact absurd (hlisted.symm.trans hk') nofun
    rw [hy]

/-- A listing with no further sector of its file ends at `T` (R217). -/
theorem listStep_eq_none (hpos : f.listPos ≤ c.total)
    (hno : ∀ k, f.listPos ≤ k → k < c.total → f.listedAt c k = false) :
    f.listStep c (c.total - f.listPos) =
      (none, { f with listPos := c.total, listActive := false }) := by
  obtain ⟨r, g, hstep⟩ : ∃ r g, f.listStep c (c.total - f.listPos) = (r, g) := ⟨_, _, rfl⟩
  rw [hstep]
  cases r with
  | none =>
    obtain ⟨-, rfl⟩ := listStep_none c _ f g hstep
    rw [Nat.add_sub_cancel' hpos]
  | some i =>
    obtain ⟨y, hy, rfl, hfound, -, -⟩ := listStep_some c _ f g i hstep
    exact absurd (hfound.symm.trans (hno (f.listPos + y) (Nat.le_add_right _ _) (by omega))) nofun

end

section
variable {t : State}

/-- One revision is yielded: its sector in `RES`, its payload in `DBUF`, the cursor behind it (R217). -/
theorem listOnce_yields {k : Nat} (hpos : t.fsc.listPos ≤ k) (hk : k < t.cfg.total)
    (hlisted : t.fsc.listedAt t.cfg k = true)
    (hskip : ∀ x, t.fsc.listPos ≤ x → x < k → t.fsc.listedAt t.cfg x = false) :
    listOnce t = .next (done (BitVec.ofNat 32 ((t.fsc.listBase + k) % t.cfg.total)) { t with
      fsc := { t.fsc with listPos := k + 1 }
      dbuf := flashRead t.fsc.flash
        (t.cfg.secAddr ((t.fsc.listBase + k) % t.cfg.total) + 2) t.cfg.sds }) := by
  simp only [listOnce, listStep_eq_some hpos hk hlisted hskip, sectorPayload_sectorAt]

/-- No revision is left: the listing ends (R217). -/
theorem listOnce_ends (hpos : t.fsc.listPos ≤ t.cfg.total)
    (hno : ∀ k, t.fsc.listPos ≤ k → k < t.cfg.total → t.fsc.listedAt t.cfg k = false) :
    listOnce t = .next (fail .listEnd 0 { t with
      fsc := { t.fsc with listPos := t.cfg.total, listActive := false } }) := by
  simp only [listOnce, listStep_eq_none hpos hno]

/-- The visits of a listing that `FS_LIST_FIRST id` starts (R216). -/
theorem listedAt_listStart {c : Config} (hc : c.Valid) {id : Byte} (hid : id.toNat < c.n) (f : Fsc)
    (k : Nat) : (f.listStart c id).listedAt c k =
      sectorListed id.toNat (sectorAt c f.flash (listSector c f k)) := by
  obtain ⟨-, -, -, hn, -⟩ := hc
  have hnum : (id.setWidth 7).toNat = id.toNat := by
    rw [BitVec.toNat_setWidth]
    omega
  rw [← hnum]
  rfl

end

/-- Settles O50: the listing starts at the first sector of the page after `FREE` with its cursor at 0. -/
theorem listFirstYieldsFirstVisited : Obligations.ListFirstYieldsFirstVisited := by
  intro id s hs hready hid
  have hc := hs.cfgValid
  have hrun : exec (.fsListFirst id) s =
      listOnce { spend s with fsc := s.fsc.listStart s.cfg id } := by
    rw [exec, execFsListFirst, withFile_runs _ _ _ hc hready hid]
    rfl
  have hvisit := listedAt_listStart hc hid s.fsc
  refine ⟨fun k hk hlisted hskip => ?_, fun hno => ?_⟩
  · exact hrun.trans (listOnce_yields (Nat.zero_le k) hk ((hvisit k).trans hlisted)
      fun x _ hx => (hvisit x).trans (hskip x hx))
  · exact hrun.trans (listOnce_ends (Nat.zero_le _) fun k _ hk => (hvisit k).trans (hno k hk))

/-- Settles O51: the same from the cursor of the active listing. -/
theorem listNextContinues : Obligations.ListNextContinues := by
  intro s hs hready
  have hrun : exec .fsListNext s =
      if s.fsc.listActive then listOnce (spend s) else .next (fail .listEnd 0 (spend s)) := by
    rw [exec, execFsListNext, withStore_runs s _ hs.cfgValid hready, spend_fsc]
  refine ⟨fun hactive => ?_, fun hactive => ⟨fun k hpos hk hlisted hskip => ?_, fun hno => ?_⟩⟩
  · rw [hrun, hactive, if_neg Bool.false_ne_true]
  · rw [hrun, if_pos hactive]
    exact listOnce_yields (t := spend s) hpos hk hlisted hskip
  · rw [hrun, if_pos hactive]
    exact listOnce_ends (t := spend s) hs.listPosRange hno

end Sys2Proof.Machine
end

section
/-! PROOFS. Copying a victim page forward (R235): where each live sector goes, what happens to its entry, and
what stays of the flash, in terms of the FSC unit before the first copy. -/

namespace Sys2Proof.Machine

/-! ### Live sectors of other files -/

/-- Sector `i` is the live sector of a file other than `id` (R233). -/
def liveAt (c : Config) (dir : List (Option Nat)) (id i : Nat) : Bool :=
  (List.range c.n).any fun j => decide (j ≠ id) && decide (dir.getD j none = some i)

section
variable {c : Config} {dir : List (Option Nat)} {id i j : Nat}

theorem liveAt_iff :
    liveAt c dir id i = true ↔ ∃ j < c.n, j ≠ id ∧ dir.getD j none = some i := by
  simp only [liveAt, List.any_eq_true, List.mem_range, Bool.and_eq_true, decide_eq_true_eq]

/-- The owner found for a sector is one: a file other than `id` with that entry (R235). -/
theorem liveOwner_some (h : liveOwner c dir id i = some j) :
    j < c.n ∧ j ≠ id ∧ dir.getD j none = some i := by
  have hp := List.find?_some h
  simp only [Bool.and_eq_true, decide_eq_true_eq] at hp
  exact ⟨List.mem_range.mp (List.mem_of_find?_eq_some h), hp⟩

/-- A sector without an owner is the live sector of no other file (R235). -/
theorem liveOwner_none (h : liveOwner c dir id i = none) : liveAt c dir id i = false := by
  rw [liveAt, List.any_eq_false]
  exact List.find?_eq_none.mp h

/-- A sector with an owner is live (R235). -/
theorem liveAt_of_owner (h : liveOwner c dir id i = some j) : liveAt c dir id i = true :=
  liveAt_iff.mpr ⟨j, liveOwner_some h⟩

end

/-! ### The live sectors among the first of a page -/

/-- The live sectors of files other than `id` among the first `k` of page `v` (R235). -/
def liveBelow (c : Config) (dir : List (Option Nat)) (id v k : Nat) : List Nat :=
  ((List.range k).map fun x => v * c.spp + x).filter (liveAt c dir id)

/-- Those of them that are copied (R235). -/
def copiedBelow (c : Config) (p : Fsc) (id v k : Nat) : List Nat :=
  (liveBelow c p.dir id v k).filter fun i => sectorValid (sectorAt c p.flash i)

/-- How many of them are dropped (R235). -/
def droppedBelow (c : Config) (p : Fsc) (id v k : Nat) : Nat :=
  (liveBelow c p.dir id v k).countP fun i => !sectorValid (sectorAt c p.flash i)

/-- Where sector `i` of page `v` goes, when it is copied: behind those copied before it (R235). -/
def copyTarget (c : Config) (p : Fsc) (id v i : Nat) : Nat :=
  p.wp + (copiedSectors c p id v).countP fun x => decide (x < i)

section
variable {c : Config} {p : Fsc} {id v i k : Nat}

theorem copiedBelow_spp : copiedBelow c p id v c.spp = copiedSectors c p id v := rfl

theorem droppedBelow_spp : droppedBelow c p id v c.spp = droppedCount c p id v := rfl

theorem liveBelow_succ (c : Config) (dir : List (Option Nat)) (id v k : Nat) :
    liveBelow c dir id v (k + 1) =
      liveBelow c dir id v k ++ if liveAt c dir id (v * c.spp + k) then [v * c.spp + k] else [] := by
  simp [liveBelow, List.range_succ, List.filter_cons]

/-- A sector that is not live is neither copied nor dropped. -/
theorem below_succ_of_not_live (h : liveAt c p.dir id (v * c.spp + k) = false) :
    copiedBelow c p id v (k + 1) = copiedBelow c p id v k ∧
      droppedBelow c p id v (k + 1) = droppedBelow c p id v k := by
  simp [copiedBelow, droppedBelow, liveBelow_succ, h]

/-- A valid live sector is copied. -/
theorem below_succ_of_valid (h : liveAt c p.dir id (v * c.spp + k) = true)
    (hv : sectorValid (sectorAt c p.flash (v * c.spp + k)) = true) :
    copiedBelow c p id v (k + 1) = copiedBelow c p id v k ++ [v * c.spp + k] ∧
      droppedBelow c p id v (k + 1) = droppedBelow c p id v k := by
  simp [copiedBelow, droppedBelow, liveBelow_succ, h, hv]

/-- An invalid live sector is dropped. -/
theorem below_succ_of_invalid (h : liveAt c p.dir id (v * c.spp + k) = true)
    (hv : sectorValid (sectorAt c p.flash (v * c.spp + k)) = false) :
    copiedBelow c p id v (k + 1) = copiedBelow c p id v k ∧
      droppedBelow c p id v (k + 1) = droppedBelow c p id v k + 1 := by
  simp [copiedBelow, droppedBelow, liveBelow_succ, h, hv]

theorem mem_liveBelow {dir : List (Option Nat)} :
    i ∈ liveBelow c dir id v k ↔
      (v * c.spp ≤ i ∧ i < v * c.spp + k) ∧ liveAt c dir id i = true := by
  simp only [liveBelow, List.mem_filter, List.mem_map, List.mem_range, and_congr_left_iff]
  refine fun _ => ⟨?_, fun ⟨hlo, hhi⟩ => ⟨i - v * c.spp, by omega, by omega⟩⟩
  rintro ⟨x, hx, rfl⟩
  omega

/-- The sectors copied before the `k`-th of the page are those among the first `k`. -/
theorem countP_copiedBelow {m : Nat} (hk : k ≤ m) :
    (copiedBelow c p id v m).countP (fun x => decide (x < v * c.spp + k)) =
      (copiedBelow c p id v k).length := by
  induction m, hk using Nat.le_induction with
  | base =>
    refine List.countP_eq_length.mpr fun x hx => decide_eq_true ?_
    exact (mem_liveBelow.mp (List.mem_of_mem_filter hx)).1.2
  | succ m hm ih =>
    cases hlive : liveAt c p.dir id (v * c.spp + m) with
    | false => rw [(below_succ_of_not_live hlive).1, ih]
    | true =>
      cases hv : sectorValid (sectorAt c p.flash (v * c.spp + m)) with
      | false => rw [(below_succ_of_invalid hlive hv).1, ih]
      | true =>
        rw [(below_succ_of_valid hlive hv).1, List.countP_append, ih]
        simpa using hm

/-- The `k`-th sector of the page goes behind those copied of the first `k`. -/
theorem copyTarget_slot (hk : k ≤ c.spp) :
    copyTarget c p id v (v * c.spp + k) = p.wp + (copiedBelow c p id v k).length :=
  congrArg (p.wp + ·) (countP_copiedBelow hk)

/-- A copied sector goes before the next free place behind it. -/
theorem copyTarget_lt (hk : k ≤ c.spp) (h : i ∈ copiedBelow c p id v k) :
    copyTarget c p id v i < p.wp + (copiedBelow c p id v k).length := by
  obtain ⟨hmem, hv⟩ := List.mem_filter.mp h
  obtain ⟨⟨hlo, hhi⟩, hlive⟩ := mem_liveBelow.mp hmem
  obtain ⟨x, rfl⟩ := Nat.exists_eq_add_of_le hlo
  have hlen : (copiedBelow c p id v (x + 1)).length ≤ (copiedBelow c p id v k).length :=
    (countP_copiedBelow (by omega)).symm.trans_le List.countP_le_length
  rw [(below_succ_of_valid hlive hv).1, List.length_append, List.length_singleton] at hlen
  rw [copyTarget_slot (by omega)]
  omega

end

/-! ### Copying forward -/

/-- The entry a live sector `i` of page `v` leaves its file: its copy, or nothing when it is invalid
(R235). -/
def movedEntry (c : Config) (p : Fsc) (id v i : Nat) : Option Nat :=
  if sectorValid (sectorAt c p.flash i) then some (copyTarget c p id v i) else none

/-- What copying the first `k` sectors of page `v` makes of the directory (R235): their entries have
moved, the other entries of the page are still there, and entries outside it stay. -/
structure DirCopied (c : Config) (v id : Nat) (p : Fsc) (k : Nat) (dir : List (Option Nat)) : Prop where
  pending : ∀ j ≠ id, ∀ i, c.pageOf i = v → v * c.spp + k ≤ i →
    (dir.getD j none = some i ↔ p.dir.getD j none = some i)
  stay : ∀ j, (∀ i, p.dir.getD j none = some i → c.pageOf i ≠ v) →
    dir.getD j none = p.dir.getD j none
  moved : ∀ j < c.n, j ≠ id → ∀ i, p.dir.getD j none = some i → c.pageOf i = v →
    i < v * c.spp + k → (∀ j' < c.n, j' ≠ id → p.dir.getD j' none = some i → j' = j) →
    dir.getD j none = movedEntry c p id v i

section
variable {c : Config} {v id k : Nat} {p : Fsc} {dir : List (Option Nat)}

theorem DirCopied.start (hspp : 0 < c.spp) : DirCopied c v id p 0 p.dir where
  pending _ _ _ _ _ := Iff.rfl
  stay _ _ := rfl
  moved _ _ _ _ _ hpage hlt _ := absurd hlt (Nat.not_lt.mpr ((pageOf_eq_iff hspp).mp hpage).1)

/-- The next sector of the page is the live sector of no other file. -/
theorem DirCopied.skip (h : DirCopied c v id p k dir)
    (hno : liveAt c p.dir id (v * c.spp + k) = false) : DirCopied c v id p (k + 1) dir where
  pending j hj i hpage hle := h.pending j hj i hpage (by omega)
  stay := h.stay
  moved j hj hjid i hi hpage hlt huniq := by
    refine h.moved j hj hjid i hi hpage ?_ huniq
    refine lt_of_le_of_ne (by omega) fun heq => ?_
    rw [← heq, liveAt_iff.mpr ⟨j, hj, hjid, hi⟩] at hno
    cases hno

/-- The next sector of the page has the owner `j`, whose entry moves. -/
theorem DirCopied.move (h : DirCopied c v id p k dir) {j : Nat} {e : Option Nat}
    (hk : c.pageOf (v * c.spp + k) = v) (hj : liveOwner c dir id (v * c.spp + k) = some j)
    (he : e = movedEntry c p id v (v * c.spp + k)) (hout : ∀ x, e = some x → c.pageOf x ≠ v) :
    DirCopied c v id p (k + 1) (dir.set j e) := by
  obtain ⟨-, hjid, hentry⟩ := liveOwner_some hj
  have horig := (h.pending j hjid _ hk le_rfl).mp hentry
  have hlen : j < dir.length := by
    by_contra hge
    rw [List.getD_eq_default _ _ (Nat.le_of_not_lt hge)] at hentry
    cases hentry
  refine ⟨fun j' hj' i hpage hle => ?_, fun j' hstay => ?_, fun j' hj' hjid' i hi hpage hlt huniq => ?_⟩
  · rw [getD_set_entry dir hlen]
    split
    · next heq =>
      subst heq
      refine ⟨fun hx => absurd hpage (hout i hx), fun hx => ?_⟩
      have := Option.some.inj (horig.symm.trans hx)
      omega
    · exact h.pending j' hj' i hpage (by omega)
  · rw [getD_set_entry dir hlen, if_neg]
    · exact h.stay j' hstay
    · rintro rfl
      exact hstay _ horig hk
  · rw [getD_set_entry dir hlen]
    rcases Nat.lt_or_ge i (v * c.spp + k) with hlt' | hge
    · rw [if_neg]
      · exact h.moved j' hj' hjid' i hi hpage hlt' huniq
      · rintro rfl
        have := Option.some.inj (horig.symm.trans hi)
        omega
    · obtain rfl : i = v * c.spp + k := by omega
      rw [if_pos (huniq j (liveOwner_some hj).1 hjid horig).symm, he]

end

/-- What copying the first `k` sectors of page `v` makes of the FSC unit `p` (R235). -/
structure Fsc.Copied (c : Config) (v id : Nat) (p : Fsc) (k : Nat) (g : Fsc) : Prop where
  copying : g.Copying c v id
  free : g.free = p.free
  wp : g.wp = p.wp + (copiedBelow c p id v k).length
  crcerr : g.crcerr.toNat = min (p.crcerr.toNat + droppedBelow c p id v k) 0xFFFFFFFF
  dir : DirCopied c v id p k g.dir
  flash : ∀ a, (a < c.secAddr p.wp ∨ p.free * c.ps + c.ps ≤ a) →
    Memory.read g.flash a = Memory.read p.flash a

/-- The saturating increment as a number (R41). -/
theorem satInc_toNat (x : Word) : (satInc x).toNat = min (x.toNat + 1) 0xFFFFFFFF := by
  unfold satInc
  split
  · next h => rw [h]; rfl
  · next h =>
    have hne : x.toNat ≠ 0xFFFFFFFF := fun heq => h (BitVec.eq_of_toNat_eq heq)
    have hlt := x.isLt
    rw [BitVec.toNat_add]
    have hone : (1 : Word).toNat = 1 := rfl
    omega

/-- A saturating count goes on by one. -/
theorem satInc_count {x : Word} {a n : Nat} (h : x.toNat = min (a + n) 0xFFFFFFFF) :
    (satInc x).toNat = min (a + (n + 1)) 0xFFFFFFFF := by
  rw [satInc_toNat]
  omega

section
variable {c : Config} {v id k i : Nat} {p g : Fsc}

/-- While there is a live sector to copy, the write pointer is in the free page (R233, R235). -/
theorem Fsc.Copying.pageOf_wp (h : g.Copying c v id) {j : Nat} (hi : c.pageOf i = v)
    (hj : liveOwner c g.dir id i = some j) : c.pageOf g.wp = g.free := by
  obtain ⟨hjn, hjid, hentry⟩ := liveOwner_some hj
  have hlt := liveCount_set_lt c g.dir id v i j none hjn hjid hentry hi nofun
  have hroom := h.room
  refine Nat.div_eq_of_lt_le h.start ?_
  rw [Nat.succ_mul]
  omega

/-- Copying changes no sector outside the free page, nor one before the first place copied to. -/
theorem Fsc.Copied.sectorAt_eq (hspp : 0 < c.spp) (h : p.Copied c v id k g)
    (hstart : p.free * c.spp ≤ p.wp) (hi : c.pageOf i ≠ p.free ∨ i < p.wp) :
    sectorAt c g.flash i = sectorAt c p.flash i := by
  refine sectorAt_congr fun x hx => h.flash _ ?_
  rcases hi with hi | hi
  · have hfree := page_start_le_secAddr_of_le hspp hstart
    have hlo := page_start_le_secAddr c i
    have hhi := sector_end_le_page hspp i
    rcases hi.lt_or_gt with hi | hi
    · have := page_end_le_page_start c hi
      omega
    · have := page_end_le_page_start c hi
      omega
  · have := sector_end_le_sector_start hspp hi
    omega

/-- Whether the next sector of the page is live is not changed by the copies before it. -/
theorem DirCopied.liveAt_eq {dir : List (Option Nat)} (h : DirCopied c v id p k dir)
    (hk : c.pageOf (v * c.spp + k) = v) :
    liveAt c dir id (v * c.spp + k) = liveAt c p.dir id (v * c.spp + k) := by
  rw [Bool.eq_iff_iff, liveAt_iff, liveAt_iff]
  exact exists_congr fun j => and_congr_right fun _ => and_congr_right fun hj =>
    h.pending j hj _ hk le_rfl

theorem Fsc.Copied.start (hspp : 0 < c.spp) (h : p.Copying c v id) : p.Copied c v id 0 p where
  copying := h
  free := rfl
  wp := rfl
  crcerr := by
    have hlt := p.crcerr.isLt
    simp only [droppedBelow, liveBelow, List.range_zero, List.map_nil, List.filter_nil, List.countP_nil]
    omega
  dir := .start hspp
  flash _ _ := rfl

/-- Copying one sector of the page, the next (R235). -/
theorem Fsc.Copied.step (hspp : 0 < c.spp) (h : p.Copied c v id k g) (hk : k < c.spp)
    (hstart : p.free * c.spp ≤ p.wp) :
    p.Copied c v id (k + 1) (g.copySector c id (v * c.spp + k)) := by
  have hpage : c.pageOf (v * c.spp + k) = v := pageOf_slot hk
  have hother : v ≠ p.free := h.free ▸ h.copying.other.symm
  have hsec := h.sectorAt_eq hspp hstart (.inl (hpage.trans_ne hother))
  have hcopying := (h.copying.copySector hpage).1
  have hlive := h.dir.liveAt_eq hpage
  have hplace : copyTarget c p id v (v * c.spp + k) = g.wp := (copyTarget_slot hk.le).trans h.wp.symm
  obtain ⟨hno, hg⟩ | ⟨j, hj, hv, hg⟩ | ⟨j, hj, hv, hg⟩ :=
    copySector_cases c id (v * c.spp + k) g <;> rw [hg] at hcopying ⊢
  · rw [liveOwner_none hno] at hlive
    obtain ⟨hcopied, hdropped⟩ := below_succ_of_not_live hlive.symm
    exact ⟨hcopying, h.free, hcopied ▸ h.wp, hdropped ▸ h.crcerr, h.dir.skip hlive.symm, h.flash⟩
  · rw [liveAt_of_owner hj] at hlive
    have hfree := h.copying.pageOf_wp hpage hj
    rw [hsec] at hv
    obtain ⟨hcopied, hdropped⟩ := below_succ_of_valid hlive.symm hv
    refine ⟨hcopying, h.free, ?_, hdropped ▸ h.crcerr, h.dir.move hpage hj ?_ ?_, fun a ha => ?_⟩
    · rw [hcopied, List.length_append, ← Nat.add_assoc, ← h.wp]
      rfl
    · rw [movedEntry, if_pos hv, hplace]
    · rintro x hx rfl
      cases hx
      exact hother (hfree.trans h.free)
    · rw [← h.flash a ha]
      refine read_programBytes_other _ _ _ _ _ ?_
      rw [sectorAt_length]
      have hmono : c.secAddr p.wp ≤ c.secAddr g.wp := secAddr_mono hspp (h.wp ▸ Nat.le_add_right _ _)
      have hend := sector_end_le_page hspp g.wp
      rw [hfree, h.free] at hend
      omega
  · rw [liveAt_of_owner hj] at hlive
    rw [hsec] at hv
    obtain ⟨hcopied, hdropped⟩ := below_succ_of_invalid hlive.symm hv
    refine ⟨hcopying, h.free, hcopied ▸ h.wp, ?_, h.dir.move hpage hj ?_ nofun, h.flash⟩
    · rw [hdropped]
      exact satInc_count h.crcerr
    · rw [movedEntry, hv, if_neg Bool.false_ne_true]

/-- Copying a page forward (R235). -/
theorem copyForward_copied (hspp : 0 < c.spp) (h : p.Copying c v id) (hk : k ≤ c.spp) :
    p.Copied c v id k (p.copyForward c v id k) := by
  induction k with
  | zero => exact .start hspp h
  | succ k ih => exact (ih (by omega)).step hspp hk h.start

/-- A copied sector goes to the free page, which has room for all of them (R233). -/
theorem Fsc.Copied.pageOf_copyTarget (hspp : 0 < c.spp) (h : p.Copied c v id c.spp g)
    (hstart : p.free * c.spp ≤ p.wp) (hi : i ∈ copiedSectors c p id v) :
    c.pageOf (copyTarget c p id v i) = p.free := by
  have hlt := copyTarget_lt le_rfl hi
  have hroom := h.copying.room
  rw [← h.wp] at hlt
  rw [h.free] at hroom
  exact (pageOf_eq_iff hspp).mpr ⟨hstart.trans (Nat.le_add_right _ _), by omega⟩

/-! ### What the copies hold -/

/-- From an erased rest of the free page, each copy reads as its source did and the rest stays erased
(R235, R241 d). -/
structure Fsc.CopiesHold (c : Config) (v id : Nat) (p : Fsc) (k : Nat) (g : Fsc) : Prop where
  form : Memory.wf g.flash = true
  ahead : ∀ i, c.pageOf i = p.free → g.wp ≤ i → sectorErased c g.flash i
  copies : ∀ i ∈ copiedBelow c p id v k,
    sectorAt c g.flash (copyTarget c p id v i) = sectorAt c p.flash i

/-- Copying one sector of the page, the next. -/
theorem Fsc.CopiesHold.step (hspp : 0 < c.spp) (h : p.CopiesHold c v id k g)
    (hg : p.Copied c v id k g) (hk : k < c.spp) (hstart : p.free * c.spp ≤ p.wp) :
    p.CopiesHold c v id (k + 1) (g.copySector c id (v * c.spp + k)) := by
  have hpage : c.pageOf (v * c.spp + k) = v := pageOf_slot hk
  have hother : v ≠ p.free := hg.free ▸ hg.copying.other.symm
  have hsec := hg.sectorAt_eq hspp hstart (.inl (hpage.trans_ne hother))
  have hlive := hg.dir.liveAt_eq hpage
  obtain ⟨hno, he⟩ | ⟨j, hj, hv, he⟩ | ⟨j, hj, hv, he⟩ :=
    copySector_cases c id (v * c.spp + k) g <;> rw [he]
  · rw [liveOwner_none hno] at hlive
    exact ⟨h.form, h.ahead, (below_succ_of_not_live hlive.symm).1 ▸ h.copies⟩
  · rw [liveAt_of_owner hj] at hlive
    have hfree := (hg.copying.pageOf_wp hpage hj).trans hg.free
    have hlen := sectorAt_length c g.flash (v * c.spp + k)
    refine ⟨wf_programBytes _ _ _ _ h.form, fun i hi hle => ?_, ?_⟩
    · exact sectorErased_program_other hspp hlen _ (Nat.ne_of_gt hle) (h.ahead i hi (Nat.le_of_succ_le hle))
    · rw [(below_succ_of_valid hlive.symm (hsec ▸ hv)).1]
      intro i hi
      rcases List.mem_append.mp hi with hi | hi
      · have hlt := copyTarget_lt hk.le hi
        rw [← hg.wp] at hlt
        exact (sectorAt_program_other hspp hlen _ hlt.ne).trans (h.copies i hi)
      · rw [List.mem_singleton.mp hi, copyTarget_slot hk.le, ← hg.wp]
        exact (sectorAt_program_erased hlen _ h.form (h.ahead g.wp hfree le_rfl)).trans hsec
  · rw [liveAt_of_owner hj] at hlive
    exact ⟨h.form, h.ahead, (below_succ_of_invalid hlive.symm (hsec ▸ hv)).1 ▸ h.copies⟩

/-- Copying a page forward into an erased rest of the free page (R235). -/
theorem copyForward_copiesHold (hspp : 0 < c.spp) (h : p.Copying c v id)
    (hwf : Memory.wf p.flash = true)
    (hahead : ∀ i, c.pageOf i = p.free → p.wp ≤ i → sectorErased c p.flash i) (hk : k ≤ c.spp) :
    p.CopiesHold c v id k (p.copyForward c v id k) := by
  induction k with
  | zero => exact ⟨hwf, hahead, nofun⟩
  | succ k ih => exact (ih (by omega)).step hspp (copyForward_copied hspp h (by omega)) hk h.start

end

end Sys2Proof.Machine
end

section
/-! PROOFS. One append (R230 to R237): what it makes of the FSC unit from elements in range, and what the
files read afterwards when the store had its invariant; the obligations on the commands that append. -/

namespace Sys2Proof.Machine

/-! ### A made sector (R230) -/

/-- The header of a sector made for a file, as a number (R230). -/
theorem makeHeader_toNat {id : Nat} (hid : id < 128) (tomb : Bool) :
    (makeHeader id tomb).toNat = (if tomb then 128 else 0) + id := by
  have hflag : ((BitVec.ofBool tomb).setWidth 8 <<< 7).toNat = 2 ^ 7 * tomb.toNat := by
    cases tomb <;> rfl
  have hnum : (BitVec.ofNat 8 id).toNat = id := Nat.mod_eq_of_lt (by omega)
  rw [makeHeader, BitVec.toNat_or, hflag, hnum, ← Nat.two_pow_add_eq_or_of_lt hid]
  cases tomb <;> rfl

/-- The sector made for a file is valid: R6 keeps its header from being 0xFF (R68, R230). -/
theorem makeSector_valid {id : Nat} (hid : id < 127) (tomb : Bool) (payload : List Byte) :
    sectorValid (makeSector id tomb payload) = true := by
  have hne : makeHeader id tomb ≠ erasedByte := by
    intro heq
    have hnum := makeHeader_toNat (Nat.lt_succ_of_lt hid) tomb
    rw [heq, erasedByte] at hnum
    cases tomb <;> simp at hnum <;> omega
  simp [sectorValid, sectorFree, makeSector, sectorHeader, sectorPayload, sectorCrc, hne]

/-- The payload of a sector made for a file is the one given (R230). -/
theorem makeSector_payload (id : Nat) (tomb : Bool) (payload : List Byte) :
    sectorPayload (makeSector id tomb payload) = payload := rfl

/-! ### The new sector in place (R231, R232) -/

section
variable {c : Config} {id v i j : Nat} {tomb : Bool} {payload : List Byte} {f : Fsc}

/-- Entries of other files are not touched by a new entry. -/
theorem getD_set_other (dir : List (Option Nat)) (e : Option Nat) (h : j ≠ id) :
    (dir.set id e).getD j none = dir.getD j none := by
  rw [List.getD_eq_getElem?_getD, List.getElem?_set_ne h.symm, List.getD_eq_getElem?_getD]

theorem liveAt_congr {dir dir' : List (Option Nat)}
    (h : ∀ j ≠ id, dir.getD j none = dir'.getD j none) : liveAt c dir id = liveAt c dir' id := by
  funext i
  rw [Bool.eq_iff_iff, liveAt_iff, liveAt_iff]
  exact exists_congr fun j => and_congr_right fun _ => and_congr_right fun hj => by rw [h j hj]

/-- Placing the new sector changes no other sector. -/
theorem placedInFree_sectorAt (hspp : 0 < c.spp) (hpay : payload.length = c.sds)
    (h : i ≠ f.free * c.spp) :
    sectorAt c (f.placedInFree c id tomb payload).flash i = sectorAt c f.flash i :=
  sectorAt_program_other hspp (congrArg (· + 2) hpay) _ h

section
variable (hspp : 0 < c.spp) (hpay : payload.length = c.sds) (hother : f.free ≠ v)
include hspp

/-- The sectors of another page are not the first of the free page. -/
theorem ne_first_of_page (h : c.pageOf i ≠ f.free) : i ≠ f.free * c.spp := by
  rintro rfl
  exact h (pageOf_first hspp _)

/-- A live sector listed for page `v` is in it. -/
theorem pageOf_liveSector {dir : List (Option Nat)} (h : i ∈ liveSectors c dir id v) :
    c.pageOf i = v :=
  (pageOf_eq_iff hspp).mpr (mem_liveBelow (k := c.spp).mp h).1

include hpay hother

/-- The new sector does not change which sectors of the victim are copied. -/
theorem copiedSectors_placedInFree :
    copiedSectors c (f.placedInFree c id tomb payload) id v = copiedSectors c f id v := by
  have hlive : liveSectors c (f.placedInFree c id tomb payload).dir id v = liveSectors c f.dir id v :=
    congrArg (List.filter · _) (liveAt_congr fun j hj => getD_set_other f.dir _ hj)
  rw [copiedSectors, hlive]
  refine List.filter_congr fun i hi => ?_
  rw [placedInFree_sectorAt hspp hpay
    (ne_first_of_page hspp (pageOf_liveSector hspp hi ▸ hother.symm))]

/-- Nor how many are dropped. -/
theorem droppedCount_placedInFree :
    droppedCount c (f.placedInFree c id tomb payload) id v = droppedCount c f id v := by
  have hlive : liveSectors c (f.placedInFree c id tomb payload).dir id v = liveSectors c f.dir id v :=
    congrArg (List.filter · _) (liveAt_congr fun j hj => getD_set_other f.dir _ hj)
  rw [droppedCount, hlive]
  refine List.countP_congr fun i hi => ?_
  rw [placedInFree_sectorAt hspp hpay
    (ne_first_of_page hspp (pageOf_liveSector hspp hi ▸ hother.symm))]

/-- The entry a sector of the victim leaves its file, in terms of the FSC unit before the append (R235). -/
theorem movedEntry_placedInFree (hi : c.pageOf i = v) :
    movedEntry c (f.placedInFree c id tomb payload) id v i =
      if sectorValid (sectorAt c f.flash i) then
        some (f.free * c.spp + 1 + (copiedSectors c f id v).countP fun x => decide (x < i))
      else none := by
  rw [movedEntry, copyTarget, copiedSectors_placedInFree hspp hpay hother,
    placedInFree_sectorAt hspp hpay (ne_first_of_page hspp (hi ▸ hother.symm))]
  rfl

end

/-! ### Both paths of an append -/

section
variable (hf : f.InRange c) (hid : id < c.n)
include hf hid

/-- From elements in range an append writes: a victim page is always found (R233). -/
theorem append_writes (hc : c.Valid) (tomb : Bool) (payload : List Byte) :
    (f.wp % c.spp ≠ 0 ∧ f.append c id tomb payload =
      .written (appendTarget c f) (f.appendDirect c id tomb payload)) ∨
    (∃ v, f.wp % c.spp = 0 ∧ selectVictim c f.dir f.free id = some v ∧ f.append c id tomb payload =
      .written (appendTarget c f) (f.appendDefrag c id tomb payload v)) := by
  obtain ⟨hwp, -, h⟩ | ⟨v, hwp, -, hv, h⟩ | ⟨-, -, hv, -⟩ | ⟨-, h⟩ :=
    append_cases c id tomb payload f
  · exact .inl ⟨hwp, by rw [h, appendTarget, if_pos hwp]⟩
  · exact .inr ⟨v, hwp, hv, by rw [h, appendTarget, if_neg (not_not.mpr hwp)]⟩
  · obtain ⟨k, -, -, hk, -⟩ := victimPageIsFound c f.dir f.free id hc hf.free hid
    rw [hv] at hk
    cases hk
  · exact absurd h (append_ne_outside hf)

/-- The direct path as seen from outside (R231, R237). -/
theorem appended_direct (hpay : payload.length = c.sds) (hwp : f.wp % c.spp ≠ 0) :
    Appended c id tomb payload f (f.appendDirect c id tomb payload) := by
  have htarget : appendTarget c f = f.wp := if_pos hwp
  exact {
    entry := by
      rw [htarget]
      exact (getD_set_entry f.dir (hf.dir.1.symm ▸ hid) id _).trans (if_pos rfl)
    programmedFirst := ⟨[], by rw [htarget]; rfl⟩
    listingEnds := rfl
    ready := rfl
    cursor := ⟨rfl, rfl, rfl⟩
    decay := rfl
    absentStay := fun j _ hj hnone => (getD_set_other f.dir _ hj).trans hnone
    direct := fun _ => ⟨rfl, rfl, rfl, rfl, rfl, fun a ha =>
      read_programBytes_other _ _ _ _ _ (by rwa [makeSector_length, hpay])⟩
    defrag := fun h => absurd h hwp }

end

/-- The victim becomes the free page (R232). -/
theorem appendDefrag_free (c : Config) (id : Nat) (tomb : Bool) (payload : List Byte) (v : Nat)
    (f : Fsc) : (f.appendDefrag c id tomb payload v).free = v := rfl

/-- What the victim's copying starts from and ends with (R232, R235). -/
theorem appendDefrag_copied (hc : c.Valid) (hf : f.InRange c)
    (hv : selectVictim c f.dir f.free id = some v) (tomb : Bool) (payload : List Byte) :
    (f.placedInFree c id tomb payload).Copied c v id c.spp
      ((f.placedInFree c id tomb payload).copyForward c v id c.spp) :=
  copyForward_copied hc.spp_pos (placedInFree_copying c hc tomb payload hf hv) le_rfl

section
variable (hc : c.Valid) (hf : f.InRange c)
  (hv : selectVictim c f.dir f.free id = some v)
include hc hf hv

/-- The entry of the file written is that of the new sector (R232). -/
theorem appendDefrag_entry (hid : id < c.n) :
    (f.appendDefrag c id tomb payload v).dir.getD id none =
      if tomb then none else some (f.free * c.spp) := by
  have hother := (selectVictim_page c hc hf.free hv).2
  have hplaced : (f.placedInFree c id tomb payload).dir.getD id none =
      if tomb then none else some (f.free * c.spp) :=
    (getD_set_entry f.dir (hf.dir.1.symm ▸ hid) id _).trans (if_pos rfl)
  rw [← hplaced]
  refine (appendDefrag_copied hc hf hv tomb payload).dir.stay id fun i hi => ?_
  rw [hplaced] at hi
  split at hi
  · cases hi
  · cases hi
    rwa [pageOf_first hc.spp_pos]

/-- Entries of other files that are absent or point outside the victim stay (R232). -/
theorem appendDefrag_entry_stays (hj : j ≠ id)
    (hout : ∀ i, f.dir.getD j none = some i → c.pageOf i ≠ v) :
    (f.appendDefrag c id tomb payload v).dir.getD j none = f.dir.getD j none := by
  have hplaced : (f.placedInFree c id tomb payload).dir.getD j none = f.dir.getD j none :=
    getD_set_other f.dir _ hj
  rw [← hplaced] at hout ⊢
  exact (appendDefrag_copied hc hf hv tomb payload).dir.stay j hout

/-- The entry of another file into the victim moves with its sector (R235). -/
theorem appendDefrag_entry_moves (hj : j < c.n) (hjid : j ≠ id) (hi : f.dir.getD j none = some i)
    (hpage : c.pageOf i = v)
    (huniq : ∀ j' < c.n, j' ≠ id → f.dir.getD j' none = some i → j' = j) :
    (f.appendDefrag c id tomb payload v).dir.getD j none =
      movedEntry c (f.placedInFree c id tomb payload) id v i := by
  have hplaced : ∀ x ≠ id, (f.placedInFree c id tomb payload).dir.getD x none = f.dir.getD x none :=
    fun x hx => getD_set_other f.dir _ hx
  refine (appendDefrag_copied hc hf hv tomb payload).dir.moved j hj hjid i
    ((hplaced j hjid).trans hi) hpage ((pageOf_eq_iff hc.spp_pos).mp hpage).2 fun j' hj' hjid' h => ?_
  exact huniq j' hj' hjid' ((hplaced j' hjid').symm.trans h)

/-- Outside the old free page and the victim the flash is unchanged (R232). -/
theorem appendDefrag_read_other (hpay : payload.length = c.sds) {a : Nat}
    (hfree : a < f.free * c.ps ∨ f.free * c.ps + c.ps ≤ a)
    (hvictim : a < v * c.ps ∨ v * c.ps + c.ps ≤ a) :
    Memory.read (f.appendDefrag c id tomb payload v).flash a = Memory.read f.flash a := by
  have hspp := hc.spp_pos
  have hstart : c.secAddr (f.free * c.spp) = f.free * c.ps := secAddr_first hspp f.free
  have hend := sector_end_le_page hspp (f.free * c.spp)
  rw [pageOf_first hspp] at hend
  have hnext : c.secAddr (f.free * c.spp) ≤ c.secAddr (f.free * c.spp + 1) :=
    secAddr_mono hspp (Nat.le_succ _)
  calc Memory.read (f.appendDefrag c id tomb payload v).flash a
    _ = Memory.read ((f.placedInFree c id tomb payload).copyForward c v id c.spp).flash a :=
      read_erase_other c _ hvictim
    _ = Memory.read (f.placedInFree c id tomb payload).flash a :=
      (appendDefrag_copied hc hf hv tomb payload).flash a
        (hfree.imp_left fun h => (hstart ▸ h).trans_le hnext)
    _ = Memory.read f.flash a :=
      read_programBytes_other _ _ _ _ _ (by
        rw [makeSector_length, hpay]
        exact hfree.imp (fun h => hstart ▸ h) fun h => hend.trans h)

/-- The defragmentation path as seen from outside (R232, R235, R237). -/
theorem appended_defrag (hid : id < c.n) (hpay : payload.length = c.sds) (hwp : f.wp % c.spp = 0) :
    Appended c id tomb payload f (f.appendDefrag c id tomb payload v) := by
  have hspp := hc.spp_pos
  have hother := (selectVictim_page c hc hf.free hv).2
  have htarget : appendTarget c f = f.free * c.spp := if_neg (not_not.mpr hwp)
  have hcopied := appendDefrag_copied hc hf hv tomb payload
  have hsectors : copiedSectors c (f.placedInFree c id tomb payload) id v = copiedSectors c f id v :=
    copiedSectors_placedInFree hspp hpay hother
  have hdropped : droppedCount c (f.placedInFree c id tomb payload) id v = droppedCount c f id v :=
    droppedCount_placedInFree hspp hpay hother
  obtain ⟨hready, -, -, hlistId, hlistPos, hlistBase, hdecay, -⟩ :=
    copyForward_keeps c v id c.spp (f.placedInFree c id tomb payload)
  obtain ⟨es, -, hlog, -⟩ := copyForward_performs c v id c.spp (f.placedInFree c id tomb payload)
  exact {
    entry := htarget ▸ appendDefrag_entry hc hf hv hid
    programmedFirst := by
      refine ⟨es ++ [.erase v], ?_⟩
      rw [htarget, appendDefrag_eq, device_log, hlog]
      simp only [Fsc.placedInFree, Fsc.place, device_log, List.append_assoc, List.cons_append,
        List.nil_append]
    listingEnds := rfl
    ready := hready
    cursor := ⟨hlistId, hlistPos, hlistBase⟩
    decay := hdecay
    absentStay := fun j _ hjid hnone =>
      (appendDefrag_entry_stays hc hf hv hjid fun i hi => nomatch hnone.symm.trans hi).trans hnone
    direct := fun h => absurd hwp h
    defrag := fun _ => by
      refine ⟨hv, pageErased_eraseRange c _ v,
        fun a hfree hvictim => appendDefrag_read_other hc hf hv hpay hfree hvictim, ?_, ?_,
        fun j hj hjid i hi huniq => ?_⟩
      · rw [appendDefrag_eq, ← hsectors, ← copiedBelow_spp]
        exact congrArg (· % c.total) hcopied.wp
      · rw [appendDefrag_eq, ← hdropped, ← droppedBelow_spp]
        exact hcopied.crcerr
      · rw [appendDefrag_free c id tomb payload v f]
        by_cases hpage : c.pageOf i = v
        · rw [if_neg (not_not.mpr hpage), appendDefrag_entry_moves hc hf hv hj hjid hi hpage huniq,
            movedEntry_placedInFree hspp hpay hother hpage]
        · rw [if_pos hpage, ← hi]
          refine appendDefrag_entry_stays hc hf hv hjid fun x hx => ?_
          rwa [← Option.some.inj (hi.symm.trans hx)] }

end

end

/-- From elements in range an append writes its target and leaves what `Appended` says (R231, R232). -/
theorem append_appended {c : Config} (hc : c.Valid) {f : Fsc} (hf : f.InRange c) {id : Nat}
    (hid : id < c.n) (tomb : Bool) {payload : List Byte} (hpay : payload.length = c.sds) :
    ∃ g, f.append c id tomb payload = .written (appendTarget c f) g ∧
      Appended c id tomb payload f g := by
  obtain ⟨hwp, h⟩ | ⟨v, hwp, hv, h⟩ := append_writes hf hid hc tomb payload
  · exact ⟨_, h, appended_direct hf hid hpay hwp⟩
  · exact ⟨_, h, appended_defrag hc hf hv hid hpay hwp⟩

/-! ### The commands that append (R238 to R240) -/

/-- A command that ends with an append that writes (R238 to R240). -/
theorem appendCommand_of_written {id : Byte} {tomb : Bool} {payload : List Byte} {w : Nat} {g : Fsc}
    (okRes : Nat → Word) {t : State}
    (h : t.fsc.append t.cfg id.toNat tomb payload = .written w g) :
    appendCommand id tomb payload okRes t = .next (done (okRes w) { t with fsc := g }) := by
  simp only [appendCommand, h]

/-- The first bytes of a buffer, as many as it has, are the buffer. -/
theorem bufTake_self {b : List Byte} {n : Nat} (h : b.length = n) : bufTake b n = b := by
  subst h
  refine List.ext_getElem (by simp) fun k _ hk => ?_
  simp [bufTake, bufRead, List.getD_eq_getElem?_getD, hk]

section
variable {id : Byte} {s : State} (hs : s.WellShaped) (hready : s.fsc.ready = true)
  (hid : id.toNat < s.cfg.n)
include hs hready hid

/-- `FS_WRITE_FILE` whose append writes (R238). -/
theorem fsWriteFile_of_written {w : Nat} {g : Fsc}
    (h : s.fsc.append s.cfg id.toNat false s.dbuf = .written w g) :
    exec (.fsWriteFile id) s = .next (done (BitVec.ofNat 32 w) { spend s with fsc := g }) := by
  rw [exec, execFsWriteFile, withFile_runs _ _ _ hs.cfgValid hready hid]
  simp only [spend_dbuf, spend_cfg, bufTake_self hs.dbufSize]
  exact appendCommand_of_written (t := spend s) _ h

/-- `FS_ERASE_FILE` whose append writes (R240). -/
theorem fsEraseFile_of_written {w : Nat} {g : Fsc}
    (h : s.fsc.append s.cfg id.toNat true (List.replicate s.cfg.sds 0xFF) = .written w g) :
    exec (.fsEraseFile id) s = .next (done (BitVec.ofNat 32 w) { spend s with fsc := g }) := by
  rw [exec, execFsEraseFile, withFile_runs _ _ _ hs.cfgValid hready hid]
  exact appendCommand_of_written (t := spend s) _ h

/-- `FS_UPDATE_FILE` of a file that holds `DBUF` at the first look (R239). -/
theorem fsUpdateFile_of_same {i : Nat} (h : s.fsc.lookup s.cfg id.toNat = .valid i s.dbuf) :
    exec (.fsUpdateFile id) s = .next (done 0 (spend s)) := by
  rw [exec, execFsUpdateFile, withFile_runs _ _ _ hs.cfgValid hready hid]
  simp only [spend_dbuf, spend_cfg, spend_fsc, bufTake_self hs.dbufSize, readProc_valid h, if_true]
  rfl

/-- `FS_UPDATE_FILE` of a file that is absent or holds something else at the first look (R239). -/
theorem fsUpdateFile_of_changed {w : Nat} {g : Fsc}
    (hlook : s.fsc.lookup s.cfg id.toNat = .absent ∨
      ∃ i p, s.fsc.lookup s.cfg id.toNat = .valid i p ∧ p ≠ s.dbuf)
    (h : s.fsc.append s.cfg id.toNat false s.dbuf = .written w g) :
    exec (.fsUpdateFile id) s = .next (done 1 { spend s with fsc := g }) := by
  rw [exec, execFsUpdateFile, withFile_runs _ _ _ hs.cfgValid hready hid]
  simp only [spend_dbuf, spend_cfg, spend_fsc, bufTake_self hs.dbufSize]
  obtain hlook | ⟨i, p, hlook, hne⟩ := hlook
  · simp only [readProc_absent hlook]
    exact appendCommand_of_written (t := spend s) _ h
  · simp only [readProc_valid hlook, if_neg hne]
    exact appendCommand_of_written (t := spend s) _ h

end

/-- Settles O55: a tombstone makes the entry absent, which is what the read looks at. -/
theorem eraseFileAppendsTombstone : Obligations.EraseFileAppendsTombstone := by
  intro id s hs hready hid
  obtain ⟨g, hwritten, happ⟩ :=
    append_appended hs.cfgValid hs.fscInRange hid true (payload := List.replicate s.cfg.sds 0xFF)
      List.length_replicate
  refine ⟨g, fsEraseFile_of_written hs hready hid hwritten, happ, ?_⟩
  rintro t rfl
  exact fsReadFile_of_absent hs.cfgValid (happ.ready.trans hready) hid happ.entry

/-- Settles O56: under the invariant the first look decides, and an append always writes. -/
theorem updateFileWritesOnlyChanges : Obligations.UpdateFileWritesOnlyChanges := by
  intro id s hs hinv hid
  have hlive := hinv.entriesLive id.toNat hid
  refine ⟨fun i hd hsame => ?_, fun hchanged => ?_⟩
  · exact fsUpdateFile_of_same hs hinv.ready hid (hsame ▸ lookup_live hd hlive)
  · obtain ⟨g, hwritten, happ⟩ := append_appended hs.cfgValid hs.fscInRange hid false hs.dbufSize
    refine ⟨g, fsUpdateFile_of_changed hs hinv.ready hid ?_ hwritten, happ⟩
    cases hd : s.fsc.dir.getD id.toNat none with
    | none => exact .inl (lookup_absent _ _ _ hd)
    | some i => exact .inr ⟨i, _, lookup_live hd hlive, hchanged i hd⟩

/-! ### What the files read after an append (R212, R242) -/

/-- After an append the sector written holds what was made for it, and every other file has its sector
somewhere, unchanged (R238, R242). -/
structure Readable (c : Config) (id : Nat) (sec : List Byte) (f : Fsc) (w : Nat) (g : Fsc) : Prop where
  written : w < c.total ∧ sectorAt c g.flash w = sec
  others : ∀ j < c.n, j ≠ id → ∀ i, f.dir.getD j none = some i →
    ∃ i' < c.total, g.dir.getD j none = some i' ∧ sectorAt c g.flash i' = sectorAt c f.flash i

/-- Distinct files have distinct entries: the sector names its file (R241 c). -/
theorem State.StoreInv.owner_unique {s : State} (h : s.StoreInv) {i j j' : Nat} (hj : j < s.cfg.n)
    (hj' : j' < s.cfg.n) (hi : s.fsc.dir.getD j none = some i)
    (hi' : s.fsc.dir.getD j' none = some i) : j' = j := by
  obtain ⟨-, -, -, hfile⟩ := entryLive_some (hi ▸ h.entriesLive j hj)
  obtain ⟨-, -, -, hfile'⟩ := entryLive_some (hi' ▸ h.entriesLive j' hj')
  exact hfile'.symm.trans hfile

section
variable {s : State} {id v : Nat} {tomb : Bool} {payload : List Byte}
  (hs : s.WellShaped) (hinv : s.StoreInv) (hpay : payload.length = s.cfg.sds)
include hs hinv hpay

/-- On the direct path the write pointer's sector is erased, so no entry points at it (R241 d). -/
theorem appendDirect_readable (hwp : s.fsc.wp % s.cfg.spp ≠ 0) :
    Readable s.cfg id (makeSector id tomb payload) s.fsc s.fsc.wp
      (s.fsc.appendDirect s.cfg id tomb payload) := by
  have hspp := hs.cfgValid.spp_pos
  have hlen : (makeSector id tomb payload).length = s.cfg.ss := congrArg (· + 2) hpay
  have herased : sectorErased s.cfg s.fsc.flash s.fsc.wp :=
    (hinv.headroom.resolve_left hwp).2 _ hs.wpRange le_rfl rfl
  refine ⟨⟨hs.wpRange, sectorAt_program_erased hlen _ hs.flashForm herased⟩, fun j hj hjid i hi => ?_⟩
  obtain ⟨hlt, -, hvalid, -⟩ := entryLive_some (hi ▸ hinv.entriesLive j hj)
  have hne : i ≠ s.fsc.wp := by
    rintro rfl
    exact absurd ((sectorFree_of_erased herased).symm.trans (sectorFree_of_valid hvalid)) nofun
  exact ⟨i, hlt, (getD_set_other s.fsc.dir _ hjid).trans hi, sectorAt_program_other hspp hlen _ hne⟩

/-- On the defragmentation path the new sector goes to the first place of the erased free page, where
neither the copies nor the erase reach it (R232, R241 a). -/
theorem appendDefrag_written (hv : selectVictim s.cfg s.fsc.dir s.fsc.free id = some v) :
    sectorAt s.cfg (s.fsc.appendDefrag s.cfg id tomb payload v).flash (s.fsc.free * s.cfg.spp) =
      makeSector id tomb payload := by
  have hc := hs.cfgValid
  have hspp := hc.spp_pos
  have hf := hs.fscInRange
  have hother := (selectVictim_page s.cfg hc hf.free hv).2
  have hfirst : s.cfg.pageOf (s.fsc.free * s.cfg.spp) = s.fsc.free := pageOf_first hspp _
  calc sectorAt s.cfg (s.fsc.appendDefrag s.cfg id tomb payload v).flash (s.fsc.free * s.cfg.spp)
    _ = sectorAt s.cfg ((s.fsc.placedInFree s.cfg id tomb payload).copyForward s.cfg v id
          s.cfg.spp).flash (s.fsc.free * s.cfg.spp) :=
      sectorAt_erase_other hspp (hfirst.trans_ne hother)
    _ = sectorAt s.cfg (s.fsc.placedInFree s.cfg id tomb payload).flash (s.fsc.free * s.cfg.spp) :=
      (appendDefrag_copied hc hf hv tomb payload).sectorAt_eq hspp (Nat.le_succ _)
        (.inr (Nat.lt_succ_self _))
    _ = makeSector id tomb payload :=
      sectorAt_program_erased (congrArg (· + 2) hpay) _ hs.flashForm
        (sectorErased_of_pageErased hspp (hfirst.symm ▸ hinv.freeErased))

/-- A live sector of another file in the victim is copied unchanged, and its entry follows it (R235). -/
theorem appendDefrag_moves_sector (hv : selectVictim s.cfg s.fsc.dir s.fsc.free id = some v)
    {i j : Nat} (hj : j < s.cfg.n) (hjid : j ≠ id) (hi : s.fsc.dir.getD j none = some i)
    (hpage : s.cfg.pageOf i = v) :
    ∃ i' < s.cfg.total, (s.fsc.appendDefrag s.cfg id tomb payload v).dir.getD j none = some i' ∧
      sectorAt s.cfg (s.fsc.appendDefrag s.cfg id tomb payload v).flash i' =
        sectorAt s.cfg s.fsc.flash i := by
  have hc := hs.cfgValid
  have hspp := hc.spp_pos
  have hf := hs.fscInRange
  have hother := (selectVictim_page s.cfg hc hf.free hv).2
  have hahead : ∀ x, s.cfg.pageOf x = s.fsc.free → s.fsc.free * s.cfg.spp + 1 ≤ x →
      sectorErased s.cfg (s.fsc.placedInFree s.cfg id tomb payload).flash x := fun x hx hle =>
    sectorErased_program_other hspp (congrArg (· + 2) hpay) _ (Nat.ne_of_gt hle)
      (sectorErased_of_pageErased hspp (hx ▸ hinv.freeErased))
  have hhold := copyForward_copiesHold hspp (placedInFree_copying s.cfg hc tomb payload hf hv)
    (wf_programBytes _ _ _ _ hs.flashForm) hahead le_rfl
  obtain ⟨-, hnotfree, hvalid, -⟩ := entryLive_some (hi ▸ hinv.entriesLive j hj)
  have hplaced : sectorAt s.cfg (s.fsc.placedInFree s.cfg id tomb payload).flash i =
      sectorAt s.cfg s.fsc.flash i :=
    placedInFree_sectorAt hspp hpay (ne_first_of_page hspp hnotfree)
  have hlive : liveAt s.cfg (s.fsc.placedInFree s.cfg id tomb payload).dir id i = true :=
    liveAt_iff.mpr ⟨j, hj, hjid, (getD_set_other s.fsc.dir _ hjid).trans hi⟩
  have hmem : i ∈ copiedSectors s.cfg (s.fsc.placedInFree s.cfg id tomb payload) id v :=
    List.mem_filter.mpr ⟨mem_liveBelow.mpr ⟨(pageOf_eq_iff hspp).mp hpage, hlive⟩, hplaced ▸ hvalid⟩
  have htarget := (appendDefrag_copied hc hf hv tomb payload).pageOf_copyTarget hspp
    (Nat.le_succ _) hmem
  refine ⟨_, lt_total_of_pageOf hspp (htarget ▸ hf.free), ?_, ?_⟩
  · exact (appendDefrag_entry_moves hc hf hv hj hjid hi hpage fun j' hj' _ hi' =>
      hinv.owner_unique hj hj' hi hi').trans (if_pos (hplaced ▸ hvalid))
  · exact ((sectorAt_erase_other hspp (htarget.trans_ne hother)).trans
      (hhold.copies i hmem)).trans hplaced

/-- Outside the victim a live sector of another file stays where it is (R232). -/
theorem appendDefrag_keeps_sector (hv : selectVictim s.cfg s.fsc.dir s.fsc.free id = some v)
    {i j : Nat} (hj : j < s.cfg.n) (hjid : j ≠ id) (hi : s.fsc.dir.getD j none = some i)
    (hpage : s.cfg.pageOf i ≠ v) :
    (s.fsc.appendDefrag s.cfg id tomb payload v).dir.getD j none = some i ∧
      sectorAt s.cfg (s.fsc.appendDefrag s.cfg id tomb payload v).flash i =
        sectorAt s.cfg s.fsc.flash i := by
  have hc := hs.cfgValid
  have hspp := hc.spp_pos
  have hf := hs.fscInRange
  obtain ⟨-, hnotfree, -, -⟩ := entryLive_some (hi ▸ hinv.entriesLive j hj)
  refine ⟨(appendDefrag_entry_stays hc hf hv hjid fun x hx => ?_).trans hi, ?_⟩
  · rwa [← Option.some.inj (hi.symm.trans hx)]
  · exact ((sectorAt_erase_other hspp hpage).trans
      ((appendDefrag_copied hc hf hv tomb payload).sectorAt_eq hspp (Nat.le_succ _)
        (.inl hnotfree))).trans
      (placedInFree_sectorAt hspp hpay (ne_first_of_page hspp hnotfree))

/-- The defragmentation path leaves the new sector and every other file readable (R235, R242). -/
theorem appendDefrag_readable (hv : selectVictim s.cfg s.fsc.dir s.fsc.free id = some v) :
    Readable s.cfg id (makeSector id tomb payload) s.fsc (s.fsc.free * s.cfg.spp)
      (s.fsc.appendDefrag s.cfg id tomb payload v) := by
  refine ⟨⟨Nat.mul_lt_mul_of_pos_right hs.freeRange hs.cfgValid.spp_pos,
    appendDefrag_written hs hinv hpay hv⟩, fun j hj hjid i hi => ?_⟩
  by_cases hpage : s.cfg.pageOf i = v
  · exact appendDefrag_moves_sector hs hinv hpay hv hj hjid hi hpage
  · obtain ⟨hlt, -⟩ := entryLive_some (hi ▸ hinv.entriesLive j hj)
    exact ⟨i, hlt, appendDefrag_keeps_sector hs hinv hpay hv hj hjid hi hpage⟩

/-- Whichever path the append takes (R231, R232, R242). -/
theorem append_readable (hid : id < s.cfg.n) (tomb : Bool) :
    ∃ g, s.fsc.append s.cfg id tomb payload = .written (appendTarget s.cfg s.fsc) g ∧
      Appended s.cfg id tomb payload s.fsc g ∧
      Readable s.cfg id (makeSector id tomb payload) s.fsc (appendTarget s.cfg s.fsc) g := by
  obtain ⟨g, hwritten, happ⟩ := append_appended hs.cfgValid hs.fscInRange hid tomb hpay
  refine ⟨g, hwritten, happ, ?_⟩
  obtain ⟨hwp, h⟩ | ⟨v, hwp, hv, h⟩ := append_writes hs.fscInRange hid hs.cfgValid tomb payload
  · obtain ⟨-, rfl⟩ := (AppendEnd.written.injEq ..).mp (hwritten.symm.trans h)
    rw [appendTarget, if_pos hwp]
    exact appendDirect_readable hs hinv hpay hwp
  · obtain ⟨-, rfl⟩ := (AppendEnd.written.injEq ..).mp (hwritten.symm.trans h)
    rw [appendTarget, if_neg (not_not.mpr hwp)]
    exact appendDefrag_readable hs hinv hpay hv

end

/-- A file whose sector reads the same in two stores reads the same. -/
theorem fsReadFile_agrees {s t : State} {j : Byte} (hc : s.cfg.Valid) (hcfg : t.cfg = s.cfg)
    (hs : s.fsc.ready = true) (ht : t.fsc.ready = true) (hj : j.toNat < s.cfg.n)
    (habsent : s.fsc.dir.getD j.toNat none = none → t.fsc.dir.getD j.toNat none = none)
    (hlive : entryLive s.cfg s.fsc.flash s.fsc.free j.toNat (s.fsc.dir.getD j.toNat none) = true)
    (hmoved : ∀ i, s.fsc.dir.getD j.toNat none = some i → ∃ i' < s.cfg.total,
      t.fsc.dir.getD j.toNat none = some i' ∧
        sectorAt s.cfg t.fsc.flash i' = sectorAt s.cfg s.fsc.flash i) :
    ∃ u₀ u₁, exec (.fsReadFile j) s = .next u₀ ∧ exec (.fsReadFile j) t = .next u₁ ∧
      u₁.ok = u₀.ok ∧ u₁.err = u₀.err ∧ (u₀.ok = true → u₁.dbuf = u₀.dbuf) := by
  rw [← hcfg] at hc hj hlive hmoved
  cases hd : s.fsc.dir.getD j.toNat none with
  | none =>
    exact ⟨_, _, fsReadFile_of_absent (hcfg ▸ hc) hs (hcfg ▸ hj) hd,
      fsReadFile_of_absent hc ht hj (habsent hd), rfl, rfl, nofun⟩
  | some i =>
    obtain ⟨i', hi', hd', hsame⟩ := hmoved i hd
    obtain ⟨hi, -, hvalid, -⟩ := entryLive_some (hd ▸ hlive)
    have hlook := lookup_valid t.cfg j.toNat i' t.fsc hd' hi' (hsame ▸ hvalid)
    have hlook' := lookup_valid t.cfg j.toNat i s.fsc hd hi hvalid
    rw [hcfg] at hlook'
    refine ⟨_, _, fsReadFile_of_valid (hcfg ▸ hc) hs (hcfg ▸ hj) hlook',
      fsReadFile_of_valid hc ht hj hlook, rfl, rfl, fun _ => ?_⟩
    rw [done_dbuf, done_dbuf, hsame, hcfg]

/-- Settles O59: the new sector is valid where it was written, and every other file's sector is unchanged,
where it was or moved. -/
theorem writeThenReadRoundTrip : Obligations.WriteThenReadRoundTrip := by
  intro id s hs hinv hid
  have hc := hs.cfgValid
  have hid' : id.toNat < 127 := by
    obtain ⟨-, -, -, hn, -⟩ := hc
    omega
  obtain ⟨g, hwritten, happ, hread⟩ := append_readable hs hinv hs.dbufSize hid false
  obtain ⟨hlt, hsec⟩ := hread.written
  have hready : g.ready = true := happ.ready.trans hinv.ready
  have hlook : g.lookup s.cfg id.toNat = .valid (appendTarget s.cfg s.fsc) s.dbuf := by
    rw [lookup_valid s.cfg id.toNat _ g happ.entry hlt (hsec ▸ makeSector_valid hid' _ _), hsec,
      makeSector_payload]
  refine ⟨_, _, fsWriteFile_of_written hs hinv.ready hid hwritten,
    fsReadFile_of_valid (s := done (BitVec.ofNat 32 (appendTarget s.cfg s.fsc)) { spend s with fsc := g })
      hc hready hid hlook, rfl, rfl, rfl, fun j hj hjn => ?_⟩
  have hjid : j.toNat ≠ id.toNat := fun h => hj (BitVec.eq_of_toNat_eq h)
  exact fsReadFile_agrees hc rfl hinv.ready hready hjn (happ.absentStay _ hjn hjid)
    (hinv.entriesLive _ hjn) (hread.others _ hjn hjid)

end Sys2Proof.Machine
end

section
/-! PROOFS. What a made sector says (R230), the two paths of `FS_WRITE_FILE` (R238) and the second of two
equal updates (R239). -/

namespace Sys2Proof.Machine

/-! ### What a made sector says of itself (R67, R68, R230) -/

/-- The header of a made sector names its file in bits 6:0 (R67). -/
theorem makeSector_file {id : Nat} (hid : id < 128) (tomb : Bool) (payload : List Byte) :
    sectorFile (makeSector id tomb payload) = id := by
  show ((makeHeader id tomb).extractLsb' 0 7).toNat = id
  rw [BitVec.extractLsb'_toNat, Nat.shiftRight_zero, makeHeader_toNat hid]
  cases tomb with
  | false => simpa using hid
  | true => rw [if_pos rfl, Nat.add_mod_left, Nat.mod_eq_of_lt hid]

/-- And in bit 7 whether it is a tombstone (R67). -/
theorem makeSector_tomb {id : Nat} (hid : id < 128) (tomb : Bool) (payload : List Byte) :
    sectorTomb (makeSector id tomb payload) = tomb := by
  show (makeHeader id tomb).getLsbD 7 = tomb
  rw [BitVec.getLsbD, makeHeader_toNat hid]
  cases tomb with
  | false =>
    rw [if_neg Bool.false_ne_true, Nat.zero_add]
    exact Nat.testBit_lt_two_pow hid
  | true =>
    rw [if_pos rfl]
    exact (Nat.testBit_two_pow_add_eq id 7).trans (by rw [Nat.testBit_lt_two_pow hid]; rfl)

/-- The number of a header is below 0xFF, so it is not the erased byte: what `id ≤ 126` is for (R230). -/
theorem makeHeader_ne_erased {id : Nat} (hid : id < 127) (tomb : Bool) :
    makeHeader id tomb ≠ erasedByte := by
  intro heq
  have hnum := makeHeader_toNat (Nat.lt_succ_of_lt hid) tomb
  rw [heq, show erasedByte.toNat = 255 from rfl] at hnum
  split at hnum <;> omega

/-- Settles O52: the header as a number fixes the file, the flag and that it is not 0xFF. -/
theorem madeSectorIsValid : Obligations.MadeSectorIsValid := by
  intro id tomb payload hid
  have hid' := Nat.lt_succ_of_lt hid
  exact ⟨makeSector_length id tomb payload, makeHeader_toNat hid' tomb, rfl,
    makeSector_payload id tomb payload, makeHeader_ne_erased hid tomb, makeSector_valid hid tomb payload,
    makeSector_file hid' tomb payload, makeSector_tomb hid' tomb payload⟩

/-! ### Writing a file (R238) -/

/-- Settles O54: from elements in range an append always writes its target. -/
theorem writeFileAppends : Obligations.WriteFileAppends := by
  intro id s hs hready hid
  obtain ⟨g, hwritten, happ⟩ := append_appended hs.cfgValid hs.fscInRange hid false hs.dbufSize
  exact ⟨g, fsWriteFile_of_written hs hready hid hwritten, happ⟩

/-! ### Updating a file twice (R239) -/

/-- R6 keeps a file number below 127, so that a header is never 0xFF. -/
theorem file_lt_127 {c : Config} (hc : c.Valid) {id : Nat} (hid : id < c.n) : id < 127 := by
  obtain ⟨-, -, -, hn, -⟩ := hc
  omega

/-- Under the store's invariant a look at an entry finds it absent or valid (R211, R241 b). -/
theorem State.StoreInv.lookup_cases {s : State} (h : s.StoreInv) {id : Nat} (hid : id < s.cfg.n) :
    s.fsc.lookup s.cfg id = .absent ∨ ∃ i p, s.fsc.lookup s.cfg id = .valid i p := by
  cases hd : s.fsc.dir.getD id none with
  | none => exact .inl (lookup_absent _ _ _ hd)
  | some i => exact .inr ⟨i, _, lookup_live hd (h.entriesLive id hid)⟩

/-- The sector an append has written is the one the next look finds (R211, R231, R232). -/
theorem lookup_appended {c : Config} {id : Nat} (hid : id < 127) {payload : List Byte} {f g : Fsc}
    (happ : Appended c id false payload f g)
    (hread : Readable c id (makeSector id false payload) f (appendTarget c f) g) :
    g.lookup c id = .valid (appendTarget c f) payload := by
  obtain ⟨hlt, hsec⟩ := hread.written
  rw [lookup_valid c id _ g happ.entry hlt (hsec ▸ makeSector_valid hid _ _), hsec, makeSector_payload]

/-- An entry holds the payload at the first look, or is one that `FS_UPDATE_FILE` writes (R239). -/
theorem State.StoreInv.lookup_same_or_changed {s : State} (h : s.StoreInv) {id : Nat}
    (hid : id < s.cfg.n) (payload : List Byte) :
    (∃ i, s.fsc.lookup s.cfg id = .valid i payload) ∨ s.fsc.lookup s.cfg id = .absent ∨
      ∃ i p, s.fsc.lookup s.cfg id = .valid i p ∧ p ≠ payload := by
  obtain habsent | ⟨i, p, hlook⟩ := h.lookup_cases hid
  · exact .inr (.inl habsent)
  · by_cases hsame : p = payload
    · exact .inl ⟨i, hsame ▸ hlook⟩
    · exact .inr (.inr ⟨i, p, hlook, hsame⟩)

/-- After an update the file holds `DBUF`, whether it was written or held it before (R239). -/
theorem update_holds_dbuf {id : Byte} {s : State} (hs : s.WellShaped) (hinv : s.StoreInv)
    (hid : id.toNat < s.cfg.n) :
    ∃ t i, exec (.fsUpdateFile id) s = .next t ∧ t.ok = true ∧ t.cfg = s.cfg ∧
      t.fsc.ready = true ∧ t.fsc.lookup t.cfg id.toNat = .valid i t.dbuf := by
  obtain ⟨i, hlook⟩ | hlook := hinv.lookup_same_or_changed hid s.dbuf
  · exact ⟨_, i, fsUpdateFile_of_same hs hinv.ready hid hlook, rfl, rfl, hinv.ready, hlook⟩
  · obtain ⟨g, hwritten, happ, hread⟩ := append_readable hs hinv hs.dbufSize hid false
    exact ⟨_, _, fsUpdateFile_of_changed hs hinv.ready hid hlook hwritten, rfl, rfl,
      happ.ready.trans hinv.ready, lookup_appended (file_lt_127 hs.cfgValid hid) happ hread⟩

/-- Settles O60: the second look finds `DBUF`. -/
theorem secondUpdateWritesNothing : Obligations.SecondUpdateWritesNothing := by
  intro id s hs hinv hid
  obtain ⟨t, i, hrun, hok, hcfg, hready, hlook⟩ := update_holds_dbuf hs hinv hid
  have ht := (exec_keeps hs hrun).1.wellShaped
  exact ⟨t, hrun, hok, fsUpdateFile_of_same ht hready (hcfg ▸ hid) hlook⟩

end Sys2Proof.Machine
end

section
/-! PROOFS. Every command but `FS_BEGIN` keeps the store's invariant (R241): such a command moves the listing
cursor or ends in one append, and an append keeps each part of the invariant. -/

namespace Sys2Proof.Machine

/-! ### The entries after an append (R241 b) -/

section
variable {c : Config} {m : Memory} {free id i : Nat}

/-- The sectors of an erased page are not valid, so a valid one lies outside it (R68, R241 a). -/
theorem pageOf_ne_of_valid (hspp : 0 < c.spp) (herased : pageErased c m free)
    (hvalid : sectorValid (sectorAt c m i) = true) : c.pageOf i ≠ free := by
  rintro rfl
  have hfree := sectorFree_of_erased (sectorErased_of_pageErased hspp herased)
  exact absurd (hfree.symm.trans (sectorFree_of_valid hvalid)) nofun

/-- A valid live sector of the file is what an entry may point at, once page `FREE` is erased (R241 b). -/
theorem entryLive_of_sector (hspp : 0 < c.spp) (herased : pageErased c m free) (hi : i < c.total)
    (hvalid : sectorValid (sectorAt c m i) = true) (hfile : sectorFile (sectorAt c m i) = id)
    (htomb : sectorTomb (sectorAt c m i) = false) : entryLive c m free id (some i) = true := by
  simp [entryLive, hi, hvalid, hfile, htomb, pageOf_ne_of_valid hspp herased hvalid]

/-- A live entry does not point at a tombstone (R241 b). -/
theorem entryLive_not_tomb (h : entryLive c m free id (some i) = true) :
    sectorTomb (sectorAt c m i) = false := by
  simp only [entryLive, Option.all_some, Bool.and_eq_true, Bool.not_eq_true'] at h
  exact h.2

/-- After an append that leaves page `FREE` erased every entry is live: that of the file written by the
sector made for it, the others by their sectors, which are unchanged (R241 b). -/
theorem entriesLive_of_append {tomb : Bool} {payload : List Byte} {f g : Fsc} (hc : c.Valid)
    (hid : id < c.n) (happ : Appended c id tomb payload f g)
    (hread : Readable c id (makeSector id tomb payload) f (appendTarget c f) g)
    (hlive : ∀ j < c.n, entryLive c f.flash f.free j (f.dir.getD j none) = true)
    (herased : pageErased c g.flash g.free) :
    ∀ j < c.n, entryLive c g.flash g.free j (g.dir.getD j none) = true := by
  have hid' := file_lt_127 hc hid
  intro j hj
  by_cases hjid : j = id
  · subst hjid
    obtain ⟨hlt, hsec⟩ := hread.written
    rw [happ.entry]
    cases tomb with
    | true => rfl
    | false =>
      exact entryLive_of_sector hc.spp_pos herased hlt (hsec ▸ makeSector_valid hid' _ _)
        (hsec ▸ makeSector_file (Nat.lt_succ_of_lt hid') _ _)
        (hsec ▸ makeSector_tomb (Nat.lt_succ_of_lt hid') _ _)
  · cases hd : f.dir.getD j none with
    | none =>
      rw [happ.absentStay j hj hjid hd]
      rfl
    | some i =>
      obtain ⟨i', hi', hd', hsame⟩ := hread.others j hj hjid i hd
      have hentry := hd ▸ hlive j hj
      obtain ⟨-, -, hvalid, hfile⟩ := entryLive_some hentry
      rw [hd']
      exact entryLive_of_sector hc.spp_pos herased hi' (hsame ▸ hvalid) (hsame ▸ hfile)
        (hsame ▸ entryLive_not_tomb hentry)

end

/-! ### The free page after an append (R241 a) -/

/-- A byte of one page is not a byte of a sector in another (R66). -/
theorem page_apart_sector {c : Config} (hspp : 0 < c.spp) {i p k : Nat} (h : c.pageOf i ≠ p)
    (hk : k < c.ps) : p * c.ps + k < c.secAddr i ∨ c.secAddr i + c.ss ≤ p * c.ps + k := by
  have hstart := page_start_le_secAddr c i
  have hend := sector_end_le_page hspp i
  rcases h.lt_or_gt with h | h
  all_goals have := page_end_le_page_start c h; omega

/-- The page that is free after an append is erased: the direct path writes in another page, the
defragmentation path erases the victim (R231, R232). -/
theorem pageErased_of_append {c : Config} {id : Nat} {tomb : Bool} {payload : List Byte} {f g : Fsc}
    (hspp : 0 < c.spp) (happ : Appended c id tomb payload f g) (herased : pageErased c f.flash f.free)
    (hother : f.wp % c.spp = 0 ∨ c.pageOf f.wp ≠ f.free) : pageErased c g.flash g.free := by
  by_cases hwp : f.wp % c.spp = 0
  · obtain ⟨-, hvictim, -⟩ := happ.defrag hwp
    exact hvictim
  · obtain ⟨-, hfree, -, -, -, hflash⟩ := happ.direct hwp
    intro k hk
    rw [hfree, hflash _ (page_apart_sector hspp (hother.resolve_left hwp) hk)]
    exact herased k hk

/-! ### The write pointer after an append (R241 d) -/

/-- The write pointer is at a page boundary, or it and every later sector of its page are erased and its page
is not `FREE`: part (d) of the store's invariant. -/
def Headroom (c : Config) (m : Memory) (free wp : Nat) : Prop :=
  wp % c.spp = 0 ∨ (c.pageOf wp ≠ free ∧
    ∀ i < c.total, wp ≤ i → c.pageOf i = c.pageOf wp → sectorErased c m i)

/-- A pointer that has moved on in page `p`, at most to its end, with an erased rest of the page before it:
at the end it is at a boundary, wrapped or not (R231, R235). -/
theorem headroom_of_erased_rest {c : Config} {m : Memory} {free p w : Nat} (hspp : 0 < c.spp)
    (hp : p < c.pages) (hother : p ≠ free) (hlo : p * c.spp ≤ w) (hhi : w ≤ p * c.spp + c.spp)
    (herased : ∀ i, c.pageOf i = p → w ≤ i → sectorErased c m i) :
    Headroom c m free (w % c.total) := by
  have htotal := page_sectors_le c hp
  rcases hhi.eq_or_lt with rfl | hlt
  · refine .inl ?_
    rw [← Nat.succ_mul, Config.total, Nat.mul_mod_mul_right, Nat.mul_mod_left]
  · have hpage : c.pageOf w = p := (pageOf_eq_iff hspp).mpr ⟨hlo, hlt⟩
    rw [Nat.mod_eq_of_lt (hlt.trans_le htotal)]
    exact .inr ⟨hpage.trans_ne hother, fun i _ hle hi => herased i (hi.trans hpage) hle⟩

/-- Erasing a page leaves an erased sector erased, wherever it lies (R64). -/
theorem sectorErased_erase {c : Config} {m : Memory} {i : Nat} (p : Nat) (h : sectorErased c m i) :
    sectorErased c (Memory.eraseRange m (p * c.ps) c.ps) i := by
  intro k hk
  rw [read_eraseRange, h k hk, ite_self]

section
variable {s : State} {id : Nat} {tomb : Bool} {payload : List Byte}
  (hs : s.WellShaped) (hinv : s.StoreInv) (hpay : payload.length = s.cfg.sds)
include hs hinv hpay

/-- The direct path moves the write pointer past the sector it programs (R231). -/
theorem appendDirect_headroom (hwp : s.fsc.wp % s.cfg.spp ≠ 0) :
    Headroom s.cfg (s.fsc.appendDirect s.cfg id tomb payload).flash
      (s.fsc.appendDirect s.cfg id tomb payload).free
      (s.fsc.appendDirect s.cfg id tomb payload).wp := by
  have hspp := hs.cfgValid.spp_pos
  obtain ⟨hother, hrest⟩ := hinv.headroom.resolve_left hwp
  obtain ⟨hlo, hhi⟩ := (pageOf_eq_iff (i := s.fsc.wp) hspp).mp rfl
  have hpage : s.cfg.pageOf s.fsc.wp < s.cfg.pages := (Nat.div_lt_iff_lt_mul hspp).mpr hs.wpRange
  refine headroom_of_erased_rest hspp hpage hother (Nat.le_succ_of_le hlo) hhi fun i hi hle => ?_
  have hlt : i < s.cfg.total := lt_total_of_pageOf hspp (hi ▸ hpage)
  exact sectorErased_program_other hspp (congrArg (· + 2) hpay) _ (Nat.ne_of_gt hle)
    (hrest i hlt (Nat.le_of_succ_le hle) hi)

/-- The defragmentation path ends behind the sectors it copied into the old free page, whose rest is still
erased (R232, R235). -/
theorem appendDefrag_headroom {v : Nat} (hv : selectVictim s.cfg s.fsc.dir s.fsc.free id = some v) :
    Headroom s.cfg (s.fsc.appendDefrag s.cfg id tomb payload v).flash
      (s.fsc.appendDefrag s.cfg id tomb payload v).free
      (s.fsc.appendDefrag s.cfg id tomb payload v).wp := by
  have hc := hs.cfgValid
  have hspp := hc.spp_pos
  have hf := hs.fscInRange
  have hplaced := placedInFree_copying s.cfg hc tomb payload hf hv
  have hcopied := appendDefrag_copied hc hf hv tomb payload
  have hahead : ∀ x, s.cfg.pageOf x = s.fsc.free → s.fsc.free * s.cfg.spp + 1 ≤ x →
      sectorErased s.cfg (s.fsc.placedInFree s.cfg id tomb payload).flash x := fun x hx hle =>
    sectorErased_program_other hspp (congrArg (· + 2) hpay) _ (Nat.ne_of_gt hle)
      (sectorErased_of_pageErased hspp (hx ▸ hinv.freeErased))
  have hhold := copyForward_copiesHold hspp hplaced (wf_programBytes _ _ _ _ hs.flashForm) hahead le_rfl
  have hfree := hcopied.free
  have hstart := hcopied.copying.start
  have hroom := Nat.le_of_add_right_le hcopied.copying.room
  rw [hfree] at hstart hroom
  exact headroom_of_erased_rest hspp hs.freeRange (selectVictim_page s.cfg hc hf.free hv).2 hstart
    hroom fun i hi hle => sectorErased_erase v (hhold.ahead i hi hle)

end

/-! ### An append keeps the invariant -/

/-- The store's invariant speaks of the configuration and the FSC unit only. -/
theorem State.StoreInv.of_fsc {s t : State} (h : s.StoreInv) (hcfg : t.cfg = s.cfg)
    (hfsc : t.fsc = s.fsc) : t.StoreInv := by
  obtain ⟨hready, herased, hlive, hroom⟩ := h
  exact ⟨hfsc ▸ hready, by rw [hcfg, hfsc]; exact herased, by rw [hcfg, hfsc]; exact hlive,
    by rw [hcfg, hfsc]; exact hroom⟩

/-- An append that writes keeps the store's invariant (R241). -/
theorem State.StoreInv.append {s : State} (hinv : s.StoreInv) (hs : s.WellShaped) {id : Nat}
    (hid : id < s.cfg.n) {tomb : Bool} {payload : List Byte} (hpay : payload.length = s.cfg.sds)
    {w : Nat} {g : Fsc} (h : s.fsc.append s.cfg id tomb payload = .written w g) :
    State.StoreInv { s with fsc := g } := by
  have hc := hs.cfgValid
  obtain ⟨g', hwritten, happ, hread⟩ := append_readable hs hinv hpay hid tomb
  obtain ⟨rfl, rfl⟩ := (AppendEnd.written.injEq ..).mp (h.symm.trans hwritten)
  have herased := pageErased_of_append hc.spp_pos happ hinv.freeErased (hinv.headroom.imp_right And.left)
  refine ⟨happ.ready.trans hinv.ready, herased,
    entriesLive_of_append hc hid happ hread hinv.entriesLive herased, ?_⟩
  obtain ⟨hwp, he⟩ | ⟨v, -, hv, he⟩ := append_writes hs.fscInRange hid hc tomb payload
  · obtain ⟨-, rfl⟩ := (AppendEnd.written.injEq ..).mp (h.symm.trans he)
    exact appendDirect_headroom hs hinv hpay hwp
  · obtain ⟨-, rfl⟩ := (AppendEnd.written.injEq ..).mp (h.symm.trans he)
    exact appendDefrag_headroom hs hinv hpay hv

/-! ### What the other commands do to a store with live entries -/

/-- What a command other than `FS_BEGIN` makes of an FSC unit with live entries: it moves the listing cursor
or ends in one append (R212, R216, R217, R238 to R240). -/
inductive Fsc.Serves (c : Config) (f : Fsc) : Fsc → Prop
  | cursor (active : Bool) (id : BitVec 7) (pos base : Nat) : Fsc.Serves c f
      { f with listActive := active, listId := id, listPos := pos, listBase := base }
  | append {id : Nat} {tomb : Bool} {payload : List Byte} {w : Nat} {g : Fsc} : id < c.n →
      payload.length = c.sds → f.append c id tomb payload = .written w g → Fsc.Serves c f g

/-- Many commands leave the FSC unit alone. -/
theorem Fsc.Serves.same (c : Config) (f : Fsc) : f.Serves c f :=
  .cursor f.listActive f.listId f.listPos f.listBase

/-- Either way the invariant is kept. -/
theorem Fsc.Serves.storeInv {s : State} {g : Fsc} (h : s.fsc.Serves s.cfg g) (hs : s.WellShaped)
    (hinv : s.StoreInv) : State.StoreInv { s with fsc := g } := by
  cases h with
  | cursor active id pos base => exact { hinv with }
  | append hid hpay hwritten => exact hinv.append hs hid hpay hwritten

section
variable {s t : State}

theorem withStore_serves {body : State → Result}
    (hbody : body (spend s) = .next t → s.fsc.Serves s.cfg t.fsc)
    (h : withStore s body = .next t) : s.fsc.Serves s.cfg t.fsc := by
  obtain ⟨-, ⟨-, h⟩ | ⟨-, rfl⟩⟩ := (withStore_next s t body).mp h
  · exact hbody h
  · exact .same _ _

theorem withFile_serves {id : Byte} {body : State → Result}
    (hbody : id.toNat < s.cfg.n → body (spend s) = .next t → s.fsc.Serves s.cfg t.fsc)
    (h : withFile id s body = .next t) : s.fsc.Serves s.cfg t.fsc := by
  obtain ⟨-, ⟨-, ⟨hid, h⟩ | ⟨-, rfl⟩⟩ | ⟨-, rfl⟩⟩ := (withFile_next id s t body).mp h
  · exact hbody hid h
  · exact .same _ _
  · exact .same _ _

/-- An append as the end of a command: written, or the store was full and is as before (R231). -/
theorem appendCommand_serves {id : Byte} {tomb : Bool} {payload : List Byte} {okRes : Nat → Word}
    (hid : id.toNat < s.cfg.n) (hpay : payload.length = s.cfg.sds)
    (h : appendCommand id tomb payload okRes s = .next t) : s.fsc.Serves s.cfg t.fsc := by
  unfold appendCommand at h
  split at h
  · cases h
    exact .same _ _
  · next hwritten =>
    cases h
    exact .append hid hpay hwritten
  · cases h

/-- One revision moves the cursor that `FS_LIST_FIRST` or an earlier revision has set (R217). -/
theorem listOnce_serves {f : Fsc} (hf : ∃ active id pos base, s.fsc =
      { f with listActive := active, listId := id, listPos := pos, listBase := base })
    (h : listOnce s = .next t) : f.Serves s.cfg t.fsc := by
  obtain ⟨active, id, pos, base, hf⟩ := hf
  obtain ⟨pos', active', hstep, -⟩ := listStep_frame s.cfg s.fsc
  have hcursor : f.Serves s.cfg (s.fsc.listStep s.cfg (s.cfg.total - s.fsc.listPos)).2 := by
    rw [hstep, hf]
    exact .cursor active' id pos' base
  unfold listOnce at h
  split at h
  all_goals
    next hls =>
      rw [hls] at hcursor
      cases h
      exact hcursor

theorem fsCrcerr_serves (h : execFsCrcerr s = .next t) : s.fsc.Serves s.cfg t.fsc := by
  refine withStore_serves (fun h => ?_) h
  cases h
  exact .same _ _

theorem fsListFirst_serves {id : Byte} (h : execFsListFirst id s = .next t) :
    s.fsc.Serves s.cfg t.fsc := by
  refine withFile_serves (fun _ h => ?_) h
  exact listOnce_serves (s := { spend s with fsc := s.fsc.listStart s.cfg id }) ⟨_, _, _, _, rfl⟩ h

theorem fsListNext_serves (h : execFsListNext s = .next t) : s.fsc.Serves s.cfg t.fsc := by
  refine withStore_serves (fun h => ?_) h
  split at h
  · exact listOnce_serves (s := spend s) ⟨_, _, _, _, rfl⟩ h
  · cases h
    exact .same _ _

section
variable (hinv : s.StoreInv)
include hinv

/-- Under the invariant a read ends at the first look and leaves the FSC unit alone (R211). -/
theorem State.StoreInv.readProc_cases {id : Nat} (hid : id < s.cfg.n) :
    s.fsc.readProc s.cfg id = .notFound s.fsc ∨
      ∃ i p, s.fsc.readProc s.cfg id = .found i p s.fsc := by
  obtain h | ⟨i, p, h⟩ := hinv.lookup_cases hid
  · exact .inl (readProc_absent h)
  · exact .inr ⟨i, p, readProc_valid h⟩

theorem fsReadFile_serves {id : Byte} (h : execFsReadFile id s = .next t) :
    s.fsc.Serves s.cfg t.fsc := by
  refine withFile_serves (fun hid h => ?_) h
  dsimp only [spend_cfg, spend_fsc] at h
  obtain hr | ⟨i, p, hr⟩ := hinv.readProc_cases hid <;> rw [hr] at h <;> cases h
  · exact .same _ _
  · exact .same _ _

theorem fsUpdateFile_serves {id : Byte} (h : execFsUpdateFile id s = .next t) :
    s.fsc.Serves s.cfg t.fsc := by
  refine withFile_serves (fun hid h => ?_) h
  have hlen : (bufTake s.dbuf s.cfg.sds).length = s.cfg.sds := bufTake_length _ _
  dsimp only [spend_cfg, spend_fsc, spend_dbuf] at h
  obtain hr | ⟨i, p, hr⟩ := hinv.readProc_cases hid <;> rw [hr] at h <;> dsimp only at h
  · exact appendCommand_serves (s := spend s) hid hlen h
  · split at h
    · cases h
      exact .same _ _
    · exact appendCommand_serves (s := spend s) hid hlen h

/-- Every FSC command but `FS_BEGIN` serves a store that has its invariant. -/
theorem exec_serves {i : Instr} (hkind : i.kind = .store) (hbegin : i ≠ .fsBegin)
    (h : exec i s = .next t) : s.fsc.Serves s.cfg t.fsc := by
  cases i with
  | fsBegin => exact absurd rfl hbegin
  | fsWriteFile id =>
    exact withFile_serves (fun hid => appendCommand_serves (s := spend s) hid (bufTake_length _ _)) h
  | fsEraseFile id =>
    exact withFile_serves (fun hid => appendCommand_serves (s := spend s) hid List.length_replicate) h
  | fsUpdateFile id => exact fsUpdateFile_serves hinv h
  | fsReadFile id => exact fsReadFile_serves hinv h
  | fsCrcerr => exact fsCrcerr_serves h
  | fsListFirst id => exact fsListFirst_serves h
  | fsListNext => exact fsListNext_serves h
  | _ => cases hkind

end

end

/-- Settles O58: the other units' commands leave the FSC unit alone, and its own serve the store. -/
theorem commandsKeepStoreInvariant : Obligations.CommandsKeepStoreInvariant := by
  intro i s t hs hinv hbegin h
  obtain ⟨hcfg, -, -, -, -, -, hframe, -⟩ := unitFrames i s t h
  by_cases hkind : i.kind = .store
  · exact ((exec_serves hinv hkind hbegin h).storeInv hs hinv).of_fsc hcfg rfl
  · exact hinv.of_fsc hcfg (hframe hkind).1

end Sys2Proof.Machine
end

section
/-! PROOFS. The block-device calls of one append (R236), from any FSC unit an append writes from. Its elements
need not be in range, as `Fsc.Copied` asks: it is enough that the live sectors of the victim are fewer than
`SPP`, which the victim search gives for any directory (R233). -/

namespace Sys2Proof.Machine

/-! ### The live sectors of a page (R233, R235) -/

section
variable {c : Config} {dir : List (Option Nat)} {f : Fsc} {id v i : Nat}

/-- The live sectors of a page are listed in ascending order. -/
theorem liveSectors_pairwise (c : Config) (dir : List (Option Nat)) (id v : Nat) :
    (liveSectors c dir id v).Pairwise (· < ·) :=
  (List.pairwise_map.mpr (List.pairwise_lt_range.imp (Nat.add_lt_add_left · _))).filter _

/-- The file behind a live sector can be named, so that there are no more live sectors than live entries. -/
theorem length_liveSectors_le (hspp : 0 < c.spp) :
    (liveSectors c dir id v).length ≤ liveCount c dir id v := by
  have hnodup : (liveSectors c dir id v).Nodup :=
    (liveSectors_pairwise c dir id v).imp fun h => Nat.ne_of_lt h
  rw [liveCount_eq_card, ← List.toFinset_card_of_nodup hnodup]
  refine Finset.card_le_card_of_surjOn (fun j => (dir.getD j none).getD 0) fun i hi => ?_
  have hmem : i ∈ liveSectors c dir id v := List.mem_toFinset.mp (Finset.mem_coe.mp hi)
  obtain ⟨j, hj, hjid, hentry⟩ := liveAt_iff.mp (mem_liveBelow (k := c.spp).mp hmem).2
  have hpage : livePage c dir j = some v := by
    rw [livePage, hentry, Option.map_some, pageOf_liveSector hspp hmem]
  refine ⟨j, Finset.mem_coe.mpr (Finset.mem_filter.mpr ⟨?_, hpage⟩), ?_⟩
  · exact Finset.mem_erase.mpr ⟨hjid, Finset.mem_range.mpr hj⟩
  · simp only [hentry, Option.getD_some]

/-- A victim has fewer sectors to copy than a page has (R233). -/
theorem length_copiedSectors_lt (hspp : 0 < c.spp) (hv : liveCount c f.dir id v < c.spp) :
    (copiedSectors c f id v).length < c.spp :=
  ((List.length_filter_le _ _).trans (length_liveSectors_le hspp)).trans_lt hv

end

/-! ### The calls of the copies (R235, R236) -/

/-- The program calls that copy the sectors `copies` of `p` one behind the other from its write pointer on. -/
def copyCalls (c : Config) (p : Fsc) (copies : List Nat) : List FlashEvent :=
  copies.zipIdx.map fun q => .program (c.secAddr (p.wp + q.2)) (sectorAt c p.flash q.1)

theorem copyCalls_append_one (c : Config) (p : Fsc) (copies : List Nat) (i : Nat) :
    copyCalls c p (copies ++ [i]) =
      copyCalls c p copies ++ [.program (c.secAddr (p.wp + copies.length)) (sectorAt c p.flash i)] := by
  simp [copyCalls, List.zipIdx_append]

/-- The copies of page `v` fit in page `FREE`, from the write pointer on (R233). -/
structure Fsc.CopyRoom (c : Config) (v id : Nat) (p : Fsc) : Prop where
  other : p.free ≠ v
  start : p.free * c.spp ≤ p.wp
  room : p.wp + (copiedSectors c p id v).length ≤ p.free * c.spp + c.spp

/-- What copying the first `k` sectors of page `v` has called, and where it stands (R235, R236). -/
structure Fsc.CopyCalled (c : Config) (v id : Nat) (p : Fsc) (k : Nat) (g : Fsc) : Prop where
  log : g.log = p.log ++ copyCalls c p (copiedBelow c p id v k)
  wp : g.wp = p.wp + (copiedBelow c p id v k).length
  crcerr : g.crcerr.toNat = min (p.crcerr.toNat + droppedBelow c p id v k) 0xFFFFFFFF
  dir : DirCopied c v id p k g.dir
  source : ∀ i, c.pageOf i = v → sectorAt c g.flash i = sectorAt c p.flash i

section
variable {c : Config} {v id k : Nat} {p g : Fsc}

/-- While a sector of the page remains to be copied, the write pointer is in page `FREE`. -/
theorem Fsc.CopyRoom.pageOf_wp (hspp : 0 < c.spp) (h : p.CopyRoom c v id) (hk : k < c.spp)
    (hlive : liveAt c p.dir id (v * c.spp + k) = true)
    (hvalid : sectorValid (sectorAt c p.flash (v * c.spp + k)) = true) :
    c.pageOf (p.wp + (copiedBelow c p id v k).length) = p.free := by
  have hlen : (copiedBelow c p id v (k + 1)).length ≤ (copiedSectors c p id v).length :=
    (countP_copiedBelow (m := c.spp) hk).symm.trans_le List.countP_le_length
  rw [(below_succ_of_valid hlive hvalid).1, List.length_append, List.length_singleton] at hlen
  have hstart := h.start
  have hroom := h.room
  exact (pageOf_eq_iff hspp).mpr ⟨by omega, by omega⟩

theorem Fsc.CopyCalled.start (hspp : 0 < c.spp) (p : Fsc) : p.CopyCalled c v id 0 p where
  log := (List.append_nil _).symm
  wp := rfl
  crcerr := (Nat.min_eq_left (Nat.le_of_lt_succ p.crcerr.isLt)).symm
  dir := .start hspp
  source _ _ := rfl

/-- Copying one sector of the page, the next. -/
theorem Fsc.CopyCalled.step (hspp : 0 < c.spp) (h : p.CopyCalled c v id k g) (hk : k < c.spp)
    (hroom : p.CopyRoom c v id) :
    p.CopyCalled c v id (k + 1) (g.copySector c id (v * c.spp + k)) := by
  have hpage : c.pageOf (v * c.spp + k) = v := pageOf_slot hk
  have hsec := h.source _ hpage
  have hlive := h.dir.liveAt_eq hpage
  obtain ⟨hno, hg⟩ | ⟨j, hj, hv, hg⟩ | ⟨j, hj, hv, hg⟩ :=
    copySector_cases c id (v * c.spp + k) g <;> rw [hg]
  · rw [liveOwner_none hno] at hlive
    obtain ⟨hcopied, hdropped⟩ := below_succ_of_not_live hlive.symm
    exact ⟨hcopied ▸ h.log, hcopied ▸ h.wp, hdropped ▸ h.crcerr, h.dir.skip hlive.symm, h.source⟩
  · rw [liveAt_of_owner hj] at hlive
    rw [hsec] at hv
    obtain ⟨hcopied, hdropped⟩ := below_succ_of_valid hlive.symm hv
    have hfree : c.pageOf g.wp = p.free := h.wp ▸ hroom.pageOf_wp hspp hk hlive.symm hv
    have hout : c.pageOf g.wp ≠ v := hfree.trans_ne hroom.other
    have hplace : copyTarget c p id v (v * c.spp + k) = g.wp := (copyTarget_slot hk.le).trans h.wp.symm
    refine ⟨?_, ?_, hdropped ▸ h.crcerr, h.dir.move hpage hj ?_ fun x hx => ?_, fun i hi => ?_⟩
    · rw [hcopied, copyCalls_append_one, ← List.append_assoc, ← h.log, ← h.wp, ← hsec]
      rfl
    · rw [hcopied, List.length_append, ← Nat.add_assoc, ← h.wp]
      rfl
    · rw [movedEntry, if_pos hv, hplace]
    · cases hx
      exact hout
    · have hne : i ≠ g.wp := fun heq => hout (heq ▸ hi)
      exact (sectorAt_program_other hspp (sectorAt_length c _ _) _ hne).trans (h.source i hi)
  · rw [liveAt_of_owner hj] at hlive
    rw [hsec] at hv
    obtain ⟨hcopied, hdropped⟩ := below_succ_of_invalid hlive.symm hv
    refine ⟨hcopied ▸ h.log, hcopied ▸ h.wp, ?_, h.dir.move hpage hj ?_ nofun, h.source⟩
    · rw [hdropped]
      exact satInc_count h.crcerr
    · rw [movedEntry, hv, if_neg Bool.false_ne_true]

/-- Copying a page forward. -/
theorem copyForward_called (hspp : 0 < c.spp) (hroom : p.CopyRoom c v id) (hk : k ≤ c.spp) :
    p.CopyCalled c v id k (p.copyForward c v id k) := by
  induction k with
  | zero => exact .start hspp p
  | succ k ih => exact (ih (by omega)).step hspp hk hroom

end

/-! ### The calls of the append (R236) -/

section
variable {c : Config} {id v : Nat} {tomb : Bool} {payload : List Byte} {f : Fsc}
  (hspp : 0 < c.spp) (hpay : payload.length = c.sds)
include hspp hpay

/-- Behind the new sector there is room for what the victim has to copy (R233). -/
theorem placedInFree_copyRoom (hother : f.free ≠ v) (hv : liveCount c f.dir id v < c.spp) :
    (f.placedInFree c id tomb payload).CopyRoom c v id where
  other := hother
  start := Nat.le_succ _
  room := by
    have hlen := length_copiedSectors_lt hspp hv
    rw [copiedSectors_placedInFree hspp hpay hother]
    show f.free * c.spp + 1 + _ ≤ f.free * c.spp + c.spp
    omega

/-- The new sector changes no call that copies a sector of the victim. -/
theorem copyCalls_placedInFree (hother : f.free ≠ v) :
    copyCalls c (f.placedInFree c id tomb payload) (copiedSectors c f id v) =
      (copiedSectors c f id v).zipIdx.map fun q =>
        .program (c.secAddr (f.free * c.spp + 1 + q.2)) (sectorAt c f.flash q.1) := by
  refine List.map_congr_left fun q hq => ?_
  have hmem := List.mem_of_mem_filter (List.fst_mem_of_mem_zipIdx hq)
  rw [placedInFree_sectorAt hspp hpay
    (ne_first_of_page hspp (pageOf_liveSector hspp hmem ▸ hother.symm))]
  rfl

/-- The calls, the write pointer and the error count of the defragmentation path (R232, R235, R236). -/
theorem appendDefrag_calls (hother : f.free ≠ v) (hv : liveCount c f.dir id v < c.spp) :
    (f.appendDefrag c id tomb payload v).log =
        f.log ++ .program (c.secAddr (f.free * c.spp)) (makeSector id tomb payload) ::
          ((copiedSectors c f id v).zipIdx.map fun q =>
            .program (c.secAddr (f.free * c.spp + 1 + q.2)) (sectorAt c f.flash q.1)) ++
          [.erase v] ∧
      (f.appendDefrag c id tomb payload v).wp =
        (f.free * c.spp + 1 + (copiedSectors c f id v).length) % c.total ∧
      (f.appendDefrag c id tomb payload v).crcerr.toNat =
        min (f.crcerr.toNat + droppedCount c f id v) 0xFFFFFFFF := by
  have hcalled := copyForward_called (k := c.spp) hspp
    (placedInFree_copyRoom (tomb := tomb) hspp hpay hother hv) le_rfl
  obtain ⟨hlog, hwp, hcrcerr, -, -⟩ := hcalled
  rw [copiedBelow_spp, copiedSectors_placedInFree hspp hpay hother] at hlog hwp
  rw [droppedBelow_spp, droppedCount_placedInFree hspp hpay hother] at hcrcerr
  refine ⟨?_, congrArg (· % c.total) hwp, hcrcerr⟩
  rw [copyCalls_placedInFree hspp hpay hother] at hlog
  rw [appendDefrag_eq, device_log, hlog]
  simp only [Fsc.placedInFree, Fsc.place, device_log, List.append_assoc, List.cons_append,
    List.nil_append]

end

/-- Settles O57: the two paths of the append that writes. -/
theorem appendCallOrder : Obligations.AppendCallOrder := by
  intro c id tomb payload f g w hc hpay h
  have hspp := hc.spp_pos
  obtain ⟨hwp, -, he⟩ | ⟨v, hwp, hfree, hv, he⟩ | ⟨-, -, -, he⟩ | ⟨-, he⟩ :=
    append_cases c id tomb payload f <;> rw [he] at h
  · obtain ⟨rfl, rfl⟩ := (AppendEnd.written.injEq ..).mp h
    exact ⟨(if_pos hwp).symm, fun _ => ⟨rfl, rfl⟩, fun hboundary => absurd hboundary hwp⟩
  · obtain ⟨rfl, rfl⟩ := (AppendEnd.written.injEq ..).mp h
    have hother := (selectVictim_page c hc hfree hv).2
    have hlive := (selectVictim_some c f.dir f.free id v hv).2
    obtain ⟨hlog, hnext, hcrcerr⟩ := appendDefrag_calls (tomb := tomb) hspp hpay hother hlive
    refine ⟨(if_neg (not_not.mpr hwp)).symm, fun hne => absurd hwp hne, fun _ => ?_⟩
    exact ⟨hlog, hnext, hcrcerr, length_copiedSectors_lt hspp hlive,
      (liveSectors_pairwise c f.dir id v).filter _,
      fun i hi => pageOf_liveSector hspp (List.mem_of_mem_filter hi)⟩
  · cases h
  · cases h

end Sys2Proof.Machine
end

section
/-! PROOFS. Which codes a legal command can report (R262): how every command ends, read for a command that
R93 allows. -/

namespace Sys2Proof.Machine

/-- Settles O18: every command ends by `done`, or by `fail` with a code of its own list, and the list of a
legal command is R262's. -/
theorem failureCodesByCommand : Obligations.FailureCodesByCommand := by
  intro i s t hi ht
  obtain ⟨-, hdone⟩ | ⟨-, hcode, -⟩ := exec_endsWith i s t ht
  · exact .inl hdone
  · exact .inr (endCodes_of_legal hi ▸ hcode)

end Sys2Proof.Machine
end

section
/-! PROOFS. `FS_BEGIN` on a blank flash (R281): every sector of such a flash is free, so R202 to R205 locate
the store at sector 0 and page 0 and the scan records nothing. -/

namespace Sys2Proof.Machine

/-! ### A blank flash -/

/-- Every byte of the flash reads as erased (R64, R281). -/
def Memory.Blank (m : Memory) : Prop := ∀ a, Memory.read m a = erasedByte

theorem Memory.blank_nil : Memory.Blank [] := fun _ => rfl

section
variable {c : Config} {m : Memory}

/-- A flash is blank when one of its pages is erased and it reads as a blank one outside that page. -/
theorem Memory.Blank.of_pageErased {m' : Memory} {p : Nat} (h : m.Blank) (herased : pageErased c m' p)
    (hout : ∀ a, (a < p * c.ps ∨ p * c.ps + c.ps ≤ a) → Memory.read m' a = Memory.read m a) :
    m'.Blank := by
  intro a
  by_cases ha : a < p * c.ps ∨ p * c.ps + c.ps ≤ a
  · exact (hout a ha).trans (h a)
  · obtain ⟨k, rfl⟩ := Nat.exists_eq_add_of_le (Nat.le_of_not_lt fun hlt => ha (.inl hlt))
    exact herased k (by omega)

/-- The sectors of a blank flash are free (R68). -/
theorem Memory.Blank.sectorFree (h : m.Blank) (c : Config) (i : Nat) :
    sectorFree (sectorAt c m i) = true := sectorFree_of_erased fun _ _ => h _

/-- They are not valid (R68). -/
theorem Memory.Blank.not_valid (h : m.Blank) (c : Config) (i : Nat) :
    sectorValid (sectorAt c m i) ≠ true :=
  fun hvalid => Bool.false_ne_true ((sectorFree_of_valid hvalid).symm.trans (h.sectorFree c i))

/-- Nor are they bad (R68, R203). -/
theorem Memory.Blank.badBelow_eq_zero (h : m.Blank) (c : Config) (k : Nat) : badBelow c m k = 0 :=
  List.countP_eq_zero.mpr fun i _ => by simp [sectorBad, h.sectorFree c i]

/-- The directory of a blank flash is absent for every file: there is no valid sector (R203). -/
theorem DirectoryOf.eq_absent {dir : List (Option Nat)} (h : DirectoryOf c m dir) (hm : m.Blank) :
    dir = List.replicate c.n none := by
  refine List.eq_replicate_iff.mpr ⟨h.size, fun e he => ?_⟩
  obtain ⟨id, hid, rfl⟩ := List.mem_iff_getElem.mp he
  rw [← List.getD_eq_getElem dir none hid]
  exact h.missing id (h.size ▸ hid) fun i _ hvalid => absurd hvalid (hm.not_valid c i)

/-- On a blank flash the first sector is the head and the first page is the hint (R202, R205). -/
theorem Located.eq_zero {wp free : Nat} (h : Located c m wp free) (hc : c.Valid) (hm : m.Blank) :
    wp = 0 ∧ free = 0 :=
  ⟨h.head 0 hc.total_pos (hm.sectorFree c _) nofun, h.hint 0 hc.pages_pos (hm.sectorFree c _) nofun⟩

end

/-- Settles O46: what `FS_BEGIN` does to any flash (R200 to R208), read for a blank one, which stays blank
because only a page is erased. -/
theorem beginOnBlankFlash : Obligations.BeginOnBlankFlash := by
  intro s hc hflash
  obtain ⟨f, hrun, hready, -, -, -, -, -, -, -, hlocated, hdir, herased, hlive, hcrcerr, hlog, hout⟩ :=
    beginRebuildsDirectory s hc (hflash ▸ rfl)
  have hblank : s.fsc.flash.Blank := hflash ▸ Memory.blank_nil
  have hblank' : f.flash.Blank := hblank.of_pageErased herased hout
  obtain ⟨hwp, hfree⟩ := hlocated.eq_zero hc hblank
  have hcount : f.crcerr = BitVec.ofNat 32 0 :=
    hcrcerr.trans (congrArg _ (hblank'.badBelow_eq_zero s.cfg s.cfg.total))
  have hheadroom : f.wp % s.cfg.spp = 0 := by rw [hwp, Nat.zero_mod]
  exact ⟨_, hrun, hdir.eq_absent hblank', hwp, hfree, hcount, hfree ▸ hlog,
    ⟨hready, herased, hlive, .inl hheadroom⟩⟩

end Sys2Proof.Machine
end
